-- ==== Sys2Proof/Word.lean ====
section
/-! DEFINITION. The widths of the CBC codec controller (00_scope.md R9, R10; 41_cipher_port.md R86). -/

namespace Sys2Proof

/-- A byte, 0 to 255 (R10). -/
abbrev Byte := BitVec 8

/-- A 32-bit register value, buffer word or command word (R17, R50, R64). -/
abbrev Word := BitVec 32

/-- A 16-byte block, key or IV as it travels on a 128-bit signal: byte `i` in bits `[8i+7 : 8i]`, so that
byte 0, the first of the sequence, is in the least significant lane (R86). -/
abbrev Block := BitVec 128

end Sys2Proof
end

