-- ==== Sys2Proof/Config.lean ====
section
/-! DEFINITION. The constants of the hardware, its parameters (00_scope.md R6) and the two values the spec leaves
free: the cipher's permutation (41_cipher_port.md R87) and the draws of its answers (R88). -/

namespace Sys2Proof

/-- The two parameters of 00_scope.md R6 that a platform fixes: BUF_BYTES and REG_BASE. They are held in the state
only so that a statement about every state is a statement about every parameter value (logs 1 and 2); no step changes
them. -/
structure Params where
  /-- REG_BASE, the bus address of the window (R6, R45). -/
  regBase : Nat
  /-- BUF_BYTES, the capacity of IN in bytes (R6, R32). -/
  bufBytes : Nat
  deriving DecidableEq, Repr

/-- OUT_BYTES = BUF_BYTES + 256 (R6). -/
def Params.outBytes (p : Params) : Nat := p.bufBytes + 256

/-- The draw `f` of a cipher step (R88): the cipher answers, or it rejects the request and drives any 128-bit value. -/
inductive CipherDraw
  | ok
  | fail (rspData : Block)
  deriving DecidableEq, Repr, Inhabited

namespace Config

/-- `BS`, the cipher's block size in bytes (R6, R7). -/
def blockSize : Nat := 16

/-- The value register ID reads (R18). -/
def idValue : Word := 0x43424301

/-- The size of the host window in bytes (R45); REG_BASE is aligned to it. -/
def windowSize : Nat := 0x40000

/-- The end of the register region (R46). -/
def regsEnd : Nat := 0x100

/-- The window offset of `IN[0]` (R46, R47). -/
def inBase : Nat := 0x10000

/-- The window offset of `OUT[0]` (R46, R47), which is also the end of the IN window. -/
def outBase : Nat := 0x20000

/-- The end of the OUT window (R46). -/
def outEnd : Nat := 0x30000

/-- The size in bytes of the IN window and of the OUT window (R46). -/
def bufWindow : Nat := 0x10000

/-- What an unlisted byte of memory reads as: every byte of IN and OUT is 0 at reset (R47, R129). -/
def unlistedByte : Byte := 0

/-- The parameters of `State.reset`: BUF_BYTES at the spec's default 4096 (R6), REG_BASE 0.
DESIGN CHOICE (logs 1 and 2); unsafe only for a statement about the reset state alone. -/
def resetParams : Params := { regBase := 0, bufBytes := 4096 }

/-- The external cipher: for each key ONE unknown permutation of the 16-byte blocks (R87). `Enc(k, b)` is
`cipherPerm k b` and `Dec(k, c)` is `(cipherPerm k).symm c`, so the two laws of R87 hold and nothing else is known of
it (log 5). Safe: a free value. -/
opaque cipherPerm : Block → Equiv.Perm Block

/-- The draws of the cipher's answers (R88, R89) when the device runs on with no turn scheduled: the n-th answer is
`cipherDraw n`, of which nothing is known (log 6). Safe: a free value. -/
opaque cipherDraw : Nat → CipherDraw

end Config

end Sys2Proof
end

