-- ==== Sys2Proof/Syntax.lean ====
section
/-! DEFINITION. The syntax of the machine: the six commands of opcode_table.json, the host's bus accesses
(20_memory.md R50), the host program lines (30_encoding.md R74) and the turns the agents take (00_scope.md R12, R13). -/

namespace Sys2Proof

/-- The six commands (30_encoding.md R67), one constructor per row of opcode_table.json. No command word carries an
operand (R66). -/
inductive Instr
  /-- PAD, R77 -/
  | pad
  /-- UNPAD, R80 -/
  | unpad
  /-- ECB_ENC, R96 -/
  | ecbEnc
  /-- ECB_DEC, R97 -/
  | ecbDec
  /-- CBC_ENC, R104 -/
  | cbcEnc
  /-- CBC_DEC, R105 -/
  | cbcDec
  deriving DecidableEq, Repr

/-- Why a command word is illegal (R68). -/
inductive IllegalReason
  /-- OPCODE is 0x0 or 0x7 to 0xF. -/
  | badOpcode
  /-- OPCODE is legal and bits [31:4] are not 0. -/
  | rsvdBits
  deriving DecidableEq, Repr

/-- What the decoder answers: `Command | Illegal(detail)` (R69). -/
inductive Decoded
  | command (i : Instr)
  | illegal (reason : IllegalReason)
  deriving DecidableEq, Repr

/-- A host access reads, or writes a value (R51, R53). -/
inductive AccessKind
  | read
  | write (value : Word)
  deriving DecidableEq, Repr

/-- A host bus access as a bus could present it, so that the accesses R50 puts outside the contract can be written
down and refused. -/
structure Access where
  /-- The bus address of its first byte. -/
  addr : Nat
  /-- Its width in bytes. -/
  width : Nat
  /-- Its byte enables, one bit for each byte of the word. -/
  lanes : BitVec 4
  kind : AccessKind
  deriving DecidableEq, Repr

/-- One turn of one agent (R12, R13), or a reset (R129). -/
inductive Event
  /-- The host makes one access. -/
  | host (a : Access)
  /-- The host polls STATUS.BUSY until it reads 0 (R74 `POLL`, R133 step 4). -/
  | poll
  /-- The host waits for the interrupt line (R133 step 4). -/
  | awaitIrq
  /-- The device's own turn: the controller's step if it has one, else the cipher's. -/
  | device
  /-- The controller's turn. -/
  | controller
  /-- The cipher's turn, with the draw of its answer (R88). -/
  | cipher (d : CipherDraw)
  /-- The reset input is asserted (R129). -/
  | hardReset
  deriving DecidableEq, Repr

/-- A line of a host program (R74): the four accesses and the four pseudo-instructions. A register name stands for its
offset. -/
inductive HostLine
  | wr (offset : Nat) (value : Word)
  | rd (offset : Nat)
  | cmd (i : Instr)
  | pollBusy
  | loadKey (k : Block)
  | loadIv (v : Block)
  | loadIn (d : List Byte)
  | waitDone
  deriving DecidableEq, Repr

end Sys2Proof
end

