-- ==== Sys2Proof/Machine/Bytes.lean ====
section
/-! DEFINITION. Byte order: words and blocks as byte sequences, the lower byte index in the less significant bits
(20_memory.md R47, R54; 41_cipher_port.md R86). -/

namespace Sys2Proof.Machine

/-- Byte `j` of a word, bits `[8j+7 : 8j]` (R47). -/
def wordByte (w : Word) (j : Nat) : Byte := w.extractLsb' (8 * j) 8

/-- The word whose byte `j` is `f j`, for `j` = 0 to 3 (R47). -/
def wordOfFn (f : Nat → Byte) : Word := f 3 ++ f 2 ++ f 1 ++ f 0

/-- Byte `i` of a block, lane `[8i+7 : 8i]` (R86). -/
def blockByte (b : Block) (i : Nat) : Byte := b.extractLsb' (8 * i) 8

/-- The block whose byte `i` is `f i`, for `i` = 0 to 15 (R86). -/
def blockOfFn (f : Nat → Byte) : Block :=
  f 15 ++ f 14 ++ f 13 ++ f 12 ++ f 11 ++ f 10 ++ f 9 ++ f 8 ++ f 7 ++ f 6 ++ f 5 ++ f 4 ++ f 3 ++ f 2 ++ f 1 ++ f 0

/-- A block as the sequence of its 16 bytes, byte 0 first (R10, R86). -/
def blockBytes (b : Block) : List Byte := (List.range 16).map (blockByte b)

/-- The block of the first 16 bytes of a sequence (R86); a shorter sequence is filled up with 0. -/
def blockOfBytes (d : List Byte) : Block := blockOfFn (fun i => d.getD i 0)

/-- A block with its 32-bit word `i` replaced: bytes `4i` to `4i+3` are the word's (R33, R34). -/
def setBlockWord (b : Block) (i : Nat) (v : Word) : Block :=
  blockOfFn (fun j => if j / 4 = i then wordByte v (j % 4) else blockByte b j)

/-- 32-bit word `i` of a block: bytes `4i` to `4i+3` (R74, the `LOADKEY` words). -/
def blockWord (b : Block) (i : Nat) : Word := wordOfFn (fun j => blockByte b (4 * i + j))

/-- Word `m` of a byte sequence, bytes past its end 0 (R74, the `LOADIN` words). -/
def bytesWord (d : List Byte) (m : Nat) : Word := wordOfFn (fun j => d.getD (4 * m + j) 0)

end Sys2Proof.Machine
end

