-- ==== Sys2Proof/Machine/State.lean ====
section
/-! DEFINITION. The state of the machine (10_state.md R15; 41_cipher_port.md R85), the reasons a step can stop, and the
machine after reset (70_reset_and_hazards.md R129). -/

namespace Sys2Proof.Machine

/-- The controller states (R40). -/
inductive Fsm
  | idle
  | validate
  | load
  | wait
  | copy
  | check
  deriving DecidableEq, Repr

/-- The values STATUS.ERR_CODE ever takes (60_exceptions.md R113). -/
inductive ErrCode
  | none
  | invalidParameter
  | corruptPadding
  | primitiveFailure
  | illegalCommand
  deriving DecidableEq, Repr

/-- The values STATUS.ERR_DETAIL ever takes (R114). -/
inductive ErrDetail
  | none
  | badOpcode
  | rsvdBits
  | keyLen
  | ivLen
  | zeroBs
  | lenRange
  | unaligned
  | empty
  | padZero
  | padGtBs
  | padGtLen
  | primFail
  deriving DecidableEq, Repr

/-- REQ_DIR: 0 = encrypt, 1 = decrypt (R85). -/
inductive Direction
  | encrypt
  | decrypt
  deriving DecidableEq, Repr

/-- The seven signals of the cipher port (R85). -/
structure CipherPort where
  reqValid : Bool
  reqDir : Direction
  reqKey : Block
  reqData : Block
  rspValid : Bool
  rspData : Block
  rspFail : Bool
  deriving DecidableEq, Repr

/-- The two buffers, as (window offset, byte) pairs with strictly rising offsets and no entry equal to
`Config.unlistedByte` (20_memory.md R47). -/
abbrev Memory := List Host.Cell

/-- The machine never stops with a fault: "The hardware never stops working after an error" (R117). A failing command
ends in a next state, written by `raiseError` (log 9). -/
inductive Fault
  deriving DecidableEq, Repr

/-- Why a step is refused. All but the first are host accesses outside the interface contract, for which "the host has
no step" (20_memory.md R50). -/
inductive Refusal
  /-- An instruction without a meaning. No arm of `exec` raises it. Safe. -/
  | notModelled (mnemonic : String)
  /-- A host access of another width than 32 bits (R50), raised by `hostAccess`. Safe. -/
  | accessWidth
  /-- A host access outside the window (R50), raised by `hostAccess`. Safe. -/
  | accessOutsideWindow
  /-- A host access at an offset that is not a multiple of 4 (R50), raised by `hostAccess`. Safe. -/
  | accessMisaligned
  /-- A host access with only some bytes enabled (R50), raised by `hostAccess`. Safe. -/
  | accessByteEnables
  deriving DecidableEq, Repr

/-- The state: host-visible registers (R17), internal registers (R39), the buffers (R47), the cipher port (R85); then
the model's own four fields. -/
structure State where
  /-- CTRL.IE (R19). -/
  ie : Bool
  /-- STATUS.BUSY (R20). -/
  busy : Bool
  /-- STATUS.DONE (R20). -/
  done : Bool
  /-- STATUS.WIGN (R20). -/
  wign : Bool
  /-- STATUS.CIGN (R20). -/
  cign : Bool
  /-- STATUS.ERR_CODE (R113). -/
  errCode : ErrCode
  /-- STATUS.ERR_DETAIL (R114). -/
  errDetail : ErrDetail
  /-- CMD (R26). -/
  cmd : Word
  /-- PAD_BS.PADBS (R27). -/
  padBs : Byte
  /-- IN_LEN (R28). -/
  inLen : Word
  /-- OUT_LEN (R29). -/
  outLen : Word
  /-- BLK_IDX (R30). -/
  blkIdx : Word
  /-- LOADED.KEY_LD (R31). -/
  keyLd : BitVec 4
  /-- LOADED.IV_LD (R31). -/
  ivLd : BitVec 4
  /-- The controller state, shown in STATUS.FSM (R40). -/
  fsm : Fsm
  /-- The opcode of the running command (R39). -/
  opc : BitVec 4
  /-- NB, the number of cipher blocks of the running command (R39). -/
  nb : BitVec 16
  /-- L, the result length of the running command (R39). -/
  len : Word
  /-- KEY (R33). -/
  key : Block
  /-- IV (R34). -/
  iv : Block
  /-- RIV, the running IV (R42). -/
  riv : Block
  /-- BLK, the last cipher input block (R43). -/
  blk : Block
  /-- IN and OUT (R47). -/
  mem : Memory
  /-- The cipher port (R85). -/
  port : CipherPort
  /-- The model's own: BUF_BYTES and REG_BASE (R6; logs 1, 2). -/
  params : Params
  /-- The model's own: the turns still to come (R12; log 3). -/
  agenda : List Event
  /-- The model's own: the value the last host read returned (R51; log 7). -/
  readData : Word
  /-- The model's own: how many of the free draws of `Config.cipherDraw` are used (R88; log 6). -/
  draws : Nat
  deriving DecidableEq, Repr

/-- The cipher port after reset: every signal 0 (R85, R93, R129). -/
def CipherPort.reset : CipherPort :=
  { reqValid := false, reqDir := .encrypt, reqKey := 0, reqData := 0, rspValid := false, rspData := 0,
    rspFail := false }

/-- The machine right after reset (R44, R129), idle with no turn scheduled. -/
def State.reset : State :=
  { ie := false
    busy := false
    done := false
    wign := false
    cign := false
    errCode := .none
    errDetail := .none
    cmd := 0
    padBs := 0x10
    inLen := 0
    outLen := 0
    blkIdx := 0
    keyLd := 0
    ivLd := 0
    fsm := .idle
    opc := 0
    nb := 0
    len := 0
    key := 0
    iv := 0
    riv := 0
    blk := 0
    mem := []
    port := CipherPort.reset
    params := Config.resetParams
    agenda := []
    readData := 0
    draws := 0 }

end Sys2Proof.Machine
end

