-- ==== Sys2Proof/Machine/Modes.lean ====
section
/-! DEFINITION. The byte functions of the three blocks, as the spec writes them down over byte sequences: PKCS#7
(40_pkcs7.md R75, R76), ECB (42_ecb.md R95) and CBC (43_cbc.md R102, R103). The cipher is an argument, one permutation
of the blocks for each key (41_cipher_port.md R87). -/

namespace Sys2Proof.Machine

/-- The number of padding bytes, `bs - (n mod bs)` (R75). -/
def padCount (bs n : Nat) : Nat := bs - n % bs

/-- `pad(bs, D)` (R75). -/
def pad (bs : Nat) (d : List Byte) : List Byte :=
  d ++ List.replicate (padCount bs d.length) (BitVec.ofNat 8 (padCount bs d.length))

/-- `Ok(n) | Bad(detail)` of R76. -/
inductive PadCheck
  | ok (n : Nat)
  | bad (detail : ErrDetail)
  deriving DecidableEq, Repr

/-- `padcheck(bs, S)`: the last byte only, in the order of R76. -/
def padcheck (bs : Nat) (d : List Byte) : PadCheck :=
  if d.length = 0 then .bad .empty
  else
    let n := (d.getD (d.length - 1) 0).toNat
    if n = 0 then .bad .padZero
    else if bs < n then .bad .padGtBs
    else if d.length < n then .bad .padGtLen
    else .ok n

/-- `Bytes | CorruptPadding(detail)` of R76 and R103. -/
inductive Unpadded
  | bytes (d : List Byte)
  | corruptPadding (detail : ErrDetail)
  deriving DecidableEq, Repr

/-- `unpad(bs, S)` (R76). -/
def unpad (bs : Nat) (d : List Byte) : Unpadded :=
  match padcheck bs d with
  | .ok n => .bytes (d.take (d.length - n))
  | .bad x => .corruptPadding x

/-- Block `k` of a byte sequence, `D[16k .. 16k+16)` (R95). -/
def blockAt (d : List Byte) (k : Nat) : Block := blockOfBytes (d.drop (Config.blockSize * k))

/-- `Enc(k, b)` (R87). -/
def enc (cipher : Block → Equiv.Perm Block) (k b : Block) : Block := cipher k b

/-- `Dec(k, c)` (R87). -/
def dec (cipher : Block → Equiv.Perm Block) (k c : Block) : Block := (cipher k).symm c

/-- The first `n` blocks of `ecb_enc(k, D)` (R95). -/
def ecbEncBlocks (cipher : Block → Equiv.Perm Block) (k : Block) (d : List Byte) (n : Nat) : List Byte :=
  match n with
  | 0 => []
  | i + 1 => ecbEncBlocks cipher k d i ++ blockBytes (enc cipher k (blockAt d i))

/-- `ecb_enc(k, D)` (R95). -/
def ecbEnc (cipher : Block → Equiv.Perm Block) (k : Block) (d : List Byte) : List Byte :=
  ecbEncBlocks cipher k d (d.length / Config.blockSize)

/-- The first `n` blocks of `ecb_dec(k, C)` (R95). -/
def ecbDecBlocks (cipher : Block → Equiv.Perm Block) (k : Block) (d : List Byte) (n : Nat) : List Byte :=
  match n with
  | 0 => []
  | i + 1 => ecbDecBlocks cipher k d i ++ blockBytes (dec cipher k (blockAt d i))

/-- `ecb_dec(k, C)` (R95). -/
def ecbDec (cipher : Block → Equiv.Perm Block) (k : Block) (d : List Byte) : List Byte :=
  ecbDecBlocks cipher k d (d.length / Config.blockSize)

/-- The loop of `cbc_enc` (R102) over the padded sequence `b`, after `n` iterations: what it has appended, and R. -/
def cbcEncLoop (cipher : Block → Equiv.Perm Block) (k iv : Block) (b : List Byte) (n : Nat) : List Byte × Block :=
  match n with
  | 0 => ([], iv)
  | i + 1 =>
    let before := cbcEncLoop cipher k iv b i
    let y := enc cipher k (blockAt b i ^^^ before.2)
    (before.1 ++ blockBytes y, y)

/-- `cbc_enc(k, iv, P)` (R102). -/
def cbcEnc (cipher : Block → Equiv.Perm Block) (k iv : Block) (p : List Byte) : List Byte :=
  (cbcEncLoop cipher k iv (pad Config.blockSize p)
    ((pad Config.blockSize p).length / Config.blockSize)).1

/-- The loop of `cbc_dec` (R103), after `n` iterations: Q, and R, the ciphertext block just consumed. -/
def cbcDecLoop (cipher : Block → Equiv.Perm Block) (k iv : Block) (c : List Byte) (n : Nat) : List Byte × Block :=
  match n with
  | 0 => ([], iv)
  | i + 1 =>
    let before := cbcDecLoop cipher k iv c i
    (before.1 ++ blockBytes (dec cipher k (blockAt c i) ^^^ before.2), blockAt c i)

/-- `cbc_dec(k, iv, C)` (R103). -/
def cbcDec (cipher : Block → Equiv.Perm Block) (k iv : Block) (c : List Byte) : Unpadded :=
  unpad Config.blockSize (cbcDecLoop cipher k iv c (c.length / Config.blockSize)).1

end Sys2Proof.Machine
end

