-- ==== Sys2Proof/WellFormed.lean ====
section
/-! DEFINITION. What is well formed: command words (30_encoding.md R65, R67, R68), host accesses (20_memory.md R50) and
the parameters (00_scope.md R6). -/

namespace Sys2Proof

/-- Every command is well formed: its word carries no operand that could be out of range (R66). -/
def Instr.wf (i : Instr) : Bool :=
  match i with
  | .pad => true
  | .unpad => true
  | .ecbEnc => true
  | .ecbDec => true
  | .cbcEnc => true
  | .cbcDec => true

/-- The OPCODE field of a command word, bits [3:0] (R65). -/
def opcodeField (w : Word) : BitVec 4 := w.extractLsb' 0 4

/-- The RSV field of a command word, bits [31:4] (R65). -/
def rsvField (w : Word) : BitVec 28 := w.extractLsb' 4 28

/-- The OPCODE is one of 0x1 to 0x6 (R67). -/
def opcodeLegal (w : Word) : Bool := decide (1 ≤ (opcodeField w).toNat) && decide ((opcodeField w).toNat ≤ 6)

/-- The reserved bits are 0 (R65, R68). -/
def rsvClear (w : Word) : Bool := rsvField w == 0

/-- A legal command word: neither condition of R68 holds. -/
def commandWordWf (w : Word) : Bool := opcodeLegal w && rsvClear w

/-- The bus address lies in the window (R45, R50). -/
def Access.inWindow (p : Params) (a : Access) : Bool :=
  decide (p.regBase ≤ a.addr) && decide (a.addr < p.regBase + Config.windowSize)

/-- The access's offset in the window (R45). -/
def Access.offset (p : Params) (a : Access) : Nat := a.addr - p.regBase

/-- The access is one 32-bit access (R50). -/
def Access.fullWidth (a : Access) : Bool := a.width == 4

/-- Its window offset is a multiple of 4 (R50). -/
def Access.aligned (p : Params) (a : Access) : Bool := a.offset p % 4 == 0

/-- All four bytes are enabled (R50). -/
def Access.allLanes (a : Access) : Bool := a.lanes == 0xF

/-- A host access the hardware defines (R50). -/
def Access.wf (p : Params) (a : Access) : Bool :=
  a.fullWidth && a.inWindow p && a.aligned p && a.allLanes

/-- Legal parameters (R6): BUF_BYTES a multiple of 16 from 16 to 65280, REG_BASE aligned to 256 KiB. -/
def Params.wf (p : Params) : Bool :=
  p.bufBytes % Config.blockSize == 0 && decide (Config.blockSize ≤ p.bufBytes) && decide (p.bufBytes ≤ 65280) &&
    p.regBase % Config.windowSize == 0

end Sys2Proof
end

