-- ==== Sys2Proof/Decode.lean ====
section
/-! DEFINITION. The decoder of command words, total on every 32-bit word (30_encoding.md R69), the encoder (R67), and
the decoder as the opcode table's rows are laid out. -/

namespace Sys2Proof

/-- The command an OPCODE selects, none where it is reserved (R67). -/
def opcodeInstr (op : BitVec 4) : Option Instr :=
  match op.toNat with
  | 1 => some .pad
  | 2 => some .unpad
  | 3 => some .ecbEnc
  | 4 => some .ecbDec
  | 5 => some .cbcEnc
  | 6 => some .cbcDec
  | _ => none

/-- `decode` of R69: the OPCODE is looked at first, then the reserved bits. -/
def decode (w : Word) : Decoded :=
  match opcodeInstr (opcodeField w) with
  | none => .illegal .badOpcode
  | some i => if rsvClear w then .command i else .illegal .rsvdBits

/-- The OPCODE of a command (R67). -/
def encodeOpcode (i : Instr) : BitVec 4 :=
  match i with
  | .pad => 0x1
  | .unpad => 0x2
  | .ecbEnc => 0x3
  | .ecbDec => 0x4
  | .cbcEnc => 0x5
  | .cbcDec => 0x6

/-- The command word of a command: RSV = 0, then OPCODE (R65, R67). -/
def encode (i : Instr) : Word := (0 : BitVec 28) ++ encodeOpcode i

/-- A 32-bit word from its four bytes, the byte of the lowest address in the least significant bits (R54). -/
def wordOfBytes (b0 b1 b2 b3 : Byte) : Word := b3 ++ b2 ++ b1 ++ b0

/-- The instruction the decoder reads from a table row's bits: the low `nbits` bits of `w` laid out as the four bytes
of one command word, every bit above them 0. A row is one 32-bit word (R64); bits beyond it fit no command. -/
def decodeTableWord (nbits w : Nat) : Option Instr :=
  let v := w % 2 ^ nbits
  if v < 2 ^ 32 then
    match decode (wordOfBytes (BitVec.ofNat 8 v) (BitVec.ofNat 8 (v / 2 ^ 8)) (BitVec.ofNat 8 (v / 2 ^ 16))
        (BitVec.ofNat 8 (v / 2 ^ 24))) with
    | .command i => some i
    | .illegal _ => none
  else none

end Sys2Proof
end

