-- ==== Sys2Proof/Machine/Flags.lean ====
section
/-! DEFINITION. The flags and the register words made of them: STATUS (10_state.md R20 to R22), CTRL (R19), LOADED (R31),
the error codes (60_exceptions.md R113, R114) and the interrupt line (R121). -/

namespace Sys2Proof.Machine

/-- The value of a controller state in STATUS.FSM (R40). -/
def fsmCode (f : Fsm) : BitVec 4 :=
  match f with
  | .idle => 0
  | .validate => 1
  | .load => 2
  | .wait => 3
  | .copy => 4
  | .check => 5

/-- The value of ERR_CODE (R113). -/
def errCodeValue (c : ErrCode) : BitVec 4 :=
  match c with
  | .none => 0
  | .invalidParameter => 1
  | .corruptPadding => 2
  | .primitiveFailure => 3
  | .illegalCommand => 4

/-- The value of ERR_DETAIL (R114). -/
def errDetailValue (d : ErrDetail) : BitVec 4 :=
  match d with
  | .none => 0
  | .badOpcode => 1
  | .rsvdBits => 2
  | .keyLen => 3
  | .ivLen => 4
  | .zeroBs => 5
  | .lenRange => 6
  | .unaligned => 7
  | .empty => 8
  | .padZero => 9
  | .padGtBs => 10
  | .padGtLen => 11
  | .primFail => 12

/-- The detail an illegal command word is reported with (R68, R114). -/
def illegalDetail (r : IllegalReason) : ErrDetail :=
  match r with
  | .badOpcode => .badOpcode
  | .rsvdBits => .rsvdBits

/-- STATUS.ERR: 1 exactly when ERR_CODE is not 0 (R20, R22). -/
def statusErr (s : State) : Bool := errCodeValue s.errCode != 0

/-- The value a read of STATUS returns (R20, R22): FSM [27:24], ERR_DETAIL [19:16], ERR_CODE [11:8], CIGN [4], WIGN [3],
ERR [2], DONE [1], BUSY [0], every reserved bit 0. -/
def statusWord (s : State) : Word :=
  (0 : BitVec 4) ++ fsmCode s.fsm ++ (0 : BitVec 4) ++ errDetailValue s.errDetail ++ (0 : BitVec 4) ++
    errCodeValue s.errCode ++ (0 : BitVec 3) ++ BitVec.ofBool s.cign ++ BitVec.ofBool s.wign ++
    BitVec.ofBool (statusErr s) ++ BitVec.ofBool s.done ++ BitVec.ofBool s.busy

/-- The value a read of CTRL returns: IE in bit 0; SRST reads 0 (R19). -/
def ctrlWord (s : State) : Word := (0 : BitVec 31) ++ BitVec.ofBool s.ie

/-- The value a read of LOADED returns: IV_LD [7:4], KEY_LD [3:0] (R31). -/
def loadedWord (s : State) : Word := (0 : BitVec 24) ++ s.ivLd ++ s.keyLd

/-- The interrupt output, `irq = CTRL.IE and STATUS.DONE` (R121). -/
def irq (s : State) : Bool := s.ie && s.done

/-- A write of `v` to STATUS clears DONE, WIGN and CIGN where bits 1, 3 and 4 of `v` are 1 (R21). -/
def writeStatus (v : Word) (s : State) : State :=
  { s with
    done := s.done && !v.getLsbD 1
    wign := s.wign && !v.getLsbD 3
    cign := s.cign && !v.getLsbD 4 }

end Sys2Proof.Machine
end

