-- ==== Sys2Proof/Machine/Ops.lean ====
section
/-! DEFINITION. The shared operations: bytes of memory (20_memory.md R47), acceptance (30_encoding.md R70), the cipher
request and response (41_cipher_port.md R90), and the two ways a command ends: the success procedure and the failure
procedure (60_exceptions.md R116 to R118), which is this hardware's taking of an exception. There is no return from one
(R122). -/

namespace Sys2Proof.Machine

/-! ## Memory -/

/-- The canonical form: offsets strictly rising, no entry equal to what an unlisted offset reads as. -/
abbrev Memory.wf (m : Memory) : Prop :=
  m.Pairwise (fun c d => c.1 < d.1) ∧ ∀ c ∈ m, c.2 ≠ Config.unlistedByte

/-- Every listed offset is a byte of IN or of OUT (R47). -/
abbrev Memory.inBounds (p : Params) (m : Memory) : Prop :=
  ∀ c ∈ m, (Config.inBase ≤ c.1 ∧ c.1 < Config.inBase + p.bufBytes) ∨
    (Config.outBase ≤ c.1 ∧ c.1 < Config.outBase + p.outBytes)

/-- The byte at window offset `a`. -/
def readByte (m : Memory) (a : Nat) : Byte :=
  match m with
  | [] => Config.unlistedByte
  | c :: rest => if c.1 = a then c.2 else readByte rest a

/-- Memory with the byte at window offset `a` set to `b`, in canonical form. -/
def writeByte (m : Memory) (a : Nat) (b : Byte) : Memory :=
  match m with
  | [] => if b = Config.unlistedByte then [] else [(a, b)]
  | c :: rest =>
    if c.1 < a then c :: writeByte rest a b
    else
      let after := if c.1 = a then rest else c :: rest
      if b = Config.unlistedByte then after else (a, b) :: after

/-- Memory with the bytes `d` stored from window offset `a` up. -/
def writeBytes (m : Memory) (a : Nat) (d : List Byte) : Memory :=
  match d with
  | [] => m
  | b :: rest => writeBytes (writeByte m a b) (a + 1) rest

/-- Memory with every byte at an offset in `[lo, hi)` set to 0. -/
def zeroRange (m : Memory) (lo hi : Nat) : Memory :=
  m.filter (fun c => !(decide (lo ≤ c.1) && decide (c.1 < hi)))

/-- Memory with `OUT[i] <- 0` for `i` in `L .. OUT_BYTES-1` (R116; with `L` = 0, R117). -/
def eraseOutFrom (p : Params) (l : Nat) (m : Memory) : Memory :=
  zeroRange m (Config.outBase + l) (Config.outBase + p.outBytes)

/-- `OUT[off + i] <- d[i]`; the controller writes `OUT[i]` only for `i < OUT_BYTES` (R56). -/
def storeOut (p : Params) (off : Nat) (d : List Byte) (m : Memory) : Memory :=
  writeBytes m (Config.outBase + off) (d.take (p.outBytes - off))

/-! ## Completion -/

/-- The command consumes the key (R118). -/
def consumesKey (d : Decoded) : Bool :=
  match d with
  | .command .ecbEnc => true
  | .command .ecbDec => true
  | .command .cbcEnc => true
  | .command .cbcDec => true
  | .command .pad => false
  | .command .unpad => false
  | .illegal _ => false

/-- The command consumes the IV (R118). -/
def consumesIv (d : Decoded) : Bool :=
  match d with
  | .command .cbcEnc => true
  | .command .cbcDec => true
  | .command .pad => false
  | .command .unpad => false
  | .command .ecbEnc => false
  | .command .ecbDec => false
  | .illegal _ => false

/-- `clear_operands()` (R118). -/
def clearOperands (s : State) : State :=
  { s with
    key := if consumesKey (decode s.cmd) then 0 else s.key
    keyLd := if consumesKey (decode s.cmd) then 0 else s.keyLd
    iv := if consumesIv (decode s.cmd) then 0 else s.iv
    ivLd := if consumesIv (decode s.cmd) then 0 else s.ivLd
    riv := 0
    blk := 0 }

/-- The end of every completion: BUSY <- 0, DONE <- 1, `fsm` <- IDLE, after `clear_operands()` (R116, R117). -/
def complete (s : State) : State :=
  { clearOperands s with busy := false, done := true, fsm := .idle }

/-- `finish(L)`, the success procedure (R116). -/
def finish (l : Nat) (s : State) : State :=
  complete { s with outLen := BitVec.ofNat 32 l, mem := eraseOutFrom s.params l s.mem }

/-- RSP_VALID <- 0 (R90, R117). -/
def dropResponse (s : State) : State := { s with port := { s.port with rspValid := false } }

/-- `raise Error(code, detail)`, the failure procedure (R117). -/
def raiseError (code : ErrCode) (detail : ErrDetail) (s : State) : State :=
  complete (dropResponse
    { s with mem := eraseOutFrom s.params 0 s.mem, outLen := 0, errCode := code, errDetail := detail })

/-! ## Acceptance, reset, the cipher port -/

/-- Acceptance of the command word `w` (R70). -/
def acceptCommand (w : Word) (s : State) : State :=
  { s with
    cmd := w
    opc := opcodeField w
    busy := true
    done := false
    errCode := .none
    errDetail := .none
    outLen := 0
    blkIdx := 0
    fsm := .validate }

/-- Reset: every piece of the device's state at its reset value (R129, R130). The model's own fields stay: a reset is an
event of the device, not of its surroundings (log 4). -/
def resetDevice (s : State) : State :=
  { State.reset with params := s.params, agenda := s.agenda, readData := s.readData, draws := s.draws }

/-- The controller may issue a request: REQ_VALID = 0 and RSP_VALID = 0 (R90). -/
def portFree (s : State) : Bool := !s.port.reqValid && !s.port.rspValid

/-- The last actions of a LOAD step: BLK and the request signals, then WAIT (R90, R99, R107). -/
def issueRequest (dir : Direction) (b : Block) (s : State) : State :=
  { s with
    blk := b
    port := { s.port with reqDir := dir, reqKey := s.key, reqData := b, reqValid := true }
    fsm := .wait }

end Sys2Proof.Machine
end

