-- ==== Sys2Proof/Machine/CipherPort.lean ====
section
/-! DEFINITION. The cipher agent (41_cipher_port.md R87, R88). -/

namespace Sys2Proof.Machine

/-- The cipher has an enabled step: REQ_VALID = 1 and RSP_VALID = 0 (R88). -/
def cipherEnabled (s : State) : Bool := s.port.reqValid && !s.port.rspValid

/-- What the cipher computes for the outstanding request (R87, R88). -/
def cipherResult (cipher : Block → Equiv.Perm Block) (q : CipherPort) : Block :=
  match q.reqDir with
  | .encrypt => enc cipher q.reqKey q.reqData
  | .decrypt => dec cipher q.reqKey q.reqData

/-- The cipher step with its draw (R88); where it is not enabled nothing happens. -/
def cipherStep (cipher : Block → Equiv.Perm Block) (d : CipherDraw) (s : State) : State :=
  if cipherEnabled s then
    match d with
    | .ok =>
      { s with
        port := { s.port with
          rspData := cipherResult cipher s.port, rspFail := false, rspValid := true, reqValid := false } }
    | .fail junk =>
      { s with port := { s.port with rspData := junk, rspFail := true, rspValid := true, reqValid := false } }
  else s

end Sys2Proof.Machine
end

