-- ==== Sys2Proof/Machine/Operands.lean ====
section
/-! DEFINITION. The operands of the commands (30_encoding.md R66): the buffers by byte and block index
(20_memory.md R47, 43_cbc.md R108), and the checks VALIDATE makes of them (R72, R73). -/

namespace Sys2Proof.Machine

/-- `IN[i]`; IN has no byte past its capacity, where a read is 0 (R47, R48, R57). -/
def inByte (s : State) (i : Nat) : Byte :=
  if i < s.params.bufBytes then readByte s.mem (Config.inBase + i) else 0

/-- `OUT[i]` (R47, R48). -/
def outByte (s : State) (i : Nat) : Byte :=
  if i < s.params.outBytes then readByte s.mem (Config.outBase + i) else 0

/-- `IN[0..n)`. -/
def inSeq (s : State) (n : Nat) : List Byte := (List.range n).map (inByte s)

/-- `OUT[0..n)`. -/
def outSeq (s : State) (n : Nat) : List Byte := (List.range n).map (outByte s)

/-- `n = r[IN_LEN]` (R73). -/
def inCount (s : State) : Nat := s.inLen.toNat

/-- `p = r[PAD_BS].PADBS` (R73). -/
def padBoundary (s : State) : Nat := s.padBs.toNat

/-- `IN[16k .. 16k+16)` (R99, R107). -/
def inBlock (s : State) (k : Nat) : Block := blockOfFn (fun j => inByte s (Config.blockSize * k + j))

/-- `padblock(k)`: block `k` of the padded input, formed without storing it; no byte of IN at or above `n` is read
(R108). -/
def padBlock (s : State) (k : Nat) : Block :=
  blockOfFn (fun j =>
    if Config.blockSize * k + j < inCount s then inByte s (Config.blockSize * k + j)
    else BitVec.ofNat 8 (padCount Config.blockSize (inCount s)))

/-- One check of R73: whether its condition holds, and what it reports then. -/
structure Check where
  holds : Bool
  code : ErrCode
  detail : ErrDetail
  deriving DecidableEq, Repr

/-- p = 0: INVALID_PARAMETER, ZERO_BS. -/
def checkZeroBs (s : State) : Check := ⟨padBoundary s == 0, .invalidParameter, .zeroBs⟩

/-- n > BUF_BYTES: INVALID_PARAMETER, LEN_RANGE. -/
def checkLenRange (s : State) : Check := ⟨decide (s.params.bufBytes < inCount s), .invalidParameter, .lenRange⟩

/-- K != 0xF: INVALID_PARAMETER, KEY_LEN. -/
def checkKeyLen (s : State) : Check := ⟨s.keyLd != 0xF, .invalidParameter, .keyLen⟩

/-- V != 0xF: INVALID_PARAMETER, IV_LEN. -/
def checkIvLen (s : State) : Check := ⟨s.ivLd != 0xF, .invalidParameter, .ivLen⟩

/-- n mod 16 != 0: INVALID_PARAMETER, UNALIGNED. -/
def checkUnaligned (s : State) : Check := ⟨inCount s % Config.blockSize != 0, .invalidParameter, .unaligned⟩

/-- n = 0: INVALID_PARAMETER, EMPTY. -/
def checkEmpty (s : State) : Check := ⟨inCount s == 0, .invalidParameter, .empty⟩

/-- The checks of PAD and UNPAD in their order (R73). -/
def padChecks (s : State) : List Check := [checkZeroBs s, checkLenRange s]

/-- The checks of ECB_ENC and ECB_DEC in their order (R73). -/
def ecbChecks (s : State) : List Check := [checkKeyLen s, checkLenRange s, checkUnaligned s]

/-- The checks of CBC_ENC in their order (R73). -/
def cbcEncChecks (s : State) : List Check := [checkKeyLen s, checkIvLen s, checkLenRange s]

/-- The checks of CBC_DEC in their order (R73). -/
def cbcDecChecks (s : State) : List Check :=
  [checkKeyLen s, checkIvLen s, checkLenRange s, checkUnaligned s, checkEmpty s]

/-- The VALIDATE step of a legal command: the first check that holds is reported, else the setup is performed (R72). -/
def validateThen (checks : List Check) (setup : State → State) (s : State) : State :=
  match checks with
  | [] => setup s
  | c :: rest => if c.holds then raiseError c.code c.detail s else validateThen rest setup s

end Sys2Proof.Machine
end

