-- ==== Sys2Proof/Machine/Cbc.lean ====
section
/-! DEFINITION. CBC_ENC and CBC_DEC (43_cbc.md R104 to R110). -/

namespace Sys2Proof.Machine

/-- CBC setup with NB = `blocks` (R106). -/
def cbcSetup (blocks : Nat) (s : State) : State :=
  { s with
    nb := BitVec.ofNat 16 blocks
    len := BitVec.ofNat 32 (Config.blockSize * blocks)
    riv := s.iv
    fsm := .load }

/-- CBC_ENC setup: NB = n div 16 + 1 (R106). -/
def cbcEncSetup (s : State) : State := cbcSetup (inCount s / Config.blockSize + 1) s

/-- CBC_DEC setup: NB = n / 16 (R106). -/
def cbcDecSetup (s : State) : State := cbcSetup (inCount s / Config.blockSize) s

/-- CBC_ENC LOAD step: the padded plaintext block XOR the running IV goes to the cipher (R107). -/
def cbcEncLoad (s : State) : State :=
  if portFree s then issueRequest .encrypt (padBlock s s.blkIdx.toNat ^^^ s.riv) s else s

/-- CBC_DEC LOAD step: the ciphertext block goes to the cipher unchanged (R107). -/
def cbcDecLoad (s : State) : State :=
  if portFree s then issueRequest .decrypt (inBlock s s.blkIdx.toNat) s else s

/-- The part CBC_ENC and CBC_DEC share of the WAIT step (R109): take the response, fail on a rejected request, else store
the result block, latch the next running IV and count the block; after the last block `last` happens. -/
def cbcWait (result nextRiv : Block) (last : State → State) (s : State) : State :=
  if s.port.rspValid then
    let k := s.blkIdx.toNat
    let s1 := dropResponse s
    if s.port.rspFail then raiseError .primitiveFailure .primFail s1
    else
      let s2 :=
        { s1 with
          mem := storeOut s.params (Config.blockSize * k) (blockBytes result) s.mem
          riv := nextRiv
          blkIdx := s.blkIdx + 1 }
      if k + 1 < s.nb.toNat then { s2 with fsm := .load } else last s2
  else s

/-- CBC_ENC WAIT step: the ciphertext block is the output and the next running IV (R109). -/
def cbcEncWait (s : State) : State :=
  cbcWait s.port.rspData s.port.rspData (finish s.len.toNat) s

/-- CBC_DEC WAIT step: the output is made with the RIV held when the step began; the next running IV is the ciphertext
block just consumed (R109). -/
def cbcDecWait (s : State) : State :=
  cbcWait (s.port.rspData ^^^ s.riv) (inBlock s s.blkIdx.toNat) (fun t => { t with fsm := .check }) s

/-- CBC_DEC CHECK step: strip the padding (R110). -/
def cbcDecCheck (s : State) : State :=
  match padcheck Config.blockSize (outSeq s s.len.toNat) with
  | .bad x => raiseError .corruptPadding x s
  | .ok m => finish (s.len.toNat - m) s

/-- CBC_ENC (R104): the controller's step in the state `s.fsm`. No rule gives CBC_ENC a step in IDLE, COPY or CHECK;
there the state is unchanged (log 8). -/
def execCbcEnc (s : State) : Host.Outcome State Fault Refusal :=
  match s.fsm with
  | .validate => .next (validateThen (cbcEncChecks s) cbcEncSetup s)
  | .load => .next (cbcEncLoad s)
  | .wait => .next (cbcEncWait s)
  | .idle => .next s
  | .copy => .next s
  | .check => .next s

/-- CBC_DEC (R105): the controller's step in the state `s.fsm`. No rule gives CBC_DEC a step in IDLE or COPY; there the
state is unchanged (log 8). -/
def execCbcDec (s : State) : Host.Outcome State Fault Refusal :=
  match s.fsm with
  | .validate => .next (validateThen (cbcDecChecks s) cbcDecSetup s)
  | .load => .next (cbcDecLoad s)
  | .wait => .next (cbcDecWait s)
  | .check => .next (cbcDecCheck s)
  | .idle => .next s
  | .copy => .next s

end Sys2Proof.Machine
end

