-- ==== Sys2Proof/Machine/Ecb.lean ====
section
/-! DEFINITION. ECB_ENC and ECB_DEC (42_ecb.md R96 to R100). -/

namespace Sys2Proof.Machine

/-- ECB setup (R98). -/
def ecbSetup (s : State) : State :=
  let n := inCount s
  let s1 := { s with nb := BitVec.ofNat 16 (n / Config.blockSize), len := BitVec.ofNat 32 n }
  if n / Config.blockSize = 0 then finish 0 s1 else { s1 with fsm := .load }

/-- ECB LOAD step, enabled when the port is free (R99); until then the controller waits. -/
def ecbLoad (dir : Direction) (s : State) : State :=
  if portFree s then issueRequest dir (inBlock s s.blkIdx.toNat) s else s

/-- ECB WAIT step, enabled when a response is waiting (R100); until then the controller waits. -/
def ecbWait (s : State) : State :=
  if s.port.rspValid then
    let k := s.blkIdx.toNat
    let s1 := dropResponse s
    if s.port.rspFail then raiseError .primitiveFailure .primFail s1
    else
      let s2 :=
        { s1 with
          mem := storeOut s.params (Config.blockSize * k) (blockBytes s.port.rspData) s.mem
          blkIdx := s.blkIdx + 1 }
      if k + 1 < s.nb.toNat then { s2 with fsm := .load } else finish s.len.toNat s2
  else s

/-- ECB_ENC (R96): the controller's step in the state `s.fsm`. No rule gives ECB_ENC a step in IDLE, COPY or CHECK; there
the state is unchanged (log 8). -/
def execEcbEnc (s : State) : Host.Outcome State Fault Refusal :=
  match s.fsm with
  | .validate => .next (validateThen (ecbChecks s) ecbSetup s)
  | .load => .next (ecbLoad .encrypt s)
  | .wait => .next (ecbWait s)
  | .idle => .next s
  | .copy => .next s
  | .check => .next s

/-- ECB_DEC (R97): as ECB_ENC, with REQ_DIR = 1. -/
def execEcbDec (s : State) : Host.Outcome State Fault Refusal :=
  match s.fsm with
  | .validate => .next (validateThen (ecbChecks s) ecbSetup s)
  | .load => .next (ecbLoad .decrypt s)
  | .wait => .next (ecbWait s)
  | .idle => .next s
  | .copy => .next s
  | .check => .next s

end Sys2Proof.Machine
end

