-- ==== Sys2Proof/Machine/Pkcs7.lean ====
section
/-! DEFINITION. PAD and UNPAD (40_pkcs7.md R77 to R83). -/

namespace Sys2Proof.Machine

/-- PAD setup (R78). -/
def padSetup (s : State) : State :=
  { s with len := BitVec.ofNat 32 (inCount s + padCount (padBoundary s) (inCount s)), fsm := .copy }

/-- PAD COPY step (R79). -/
def padCopy (s : State) : State :=
  let n := inCount s
  let l := s.len.toNat
  finish l
    { s with mem := storeOut s.params 0 (inSeq s n ++ List.replicate (l - n) (BitVec.ofNat 8 (l - n))) s.mem }

/-- UNPAD setup (R81). -/
def unpadSetup (s : State) : State := { s with fsm := .check }

/-- UNPAD CHECK step (R82). -/
def unpadCheck (s : State) : State :=
  match padcheck (padBoundary s) (inSeq s (inCount s)) with
  | .bad x => raiseError .corruptPadding x s
  | .ok m => { s with len := BitVec.ofNat 32 (inCount s - m), fsm := .copy }

/-- UNPAD COPY step (R83). -/
def unpadCopy (s : State) : State :=
  finish s.len.toNat { s with mem := storeOut s.params 0 (inSeq s s.len.toNat) s.mem }

/-- PAD (R77): the controller's step in the state `s.fsm`. No rule gives PAD a step in IDLE, LOAD, WAIT or CHECK; there
the state is unchanged (log 8). -/
def execPad (s : State) : Host.Outcome State Fault Refusal :=
  match s.fsm with
  | .validate => .next (validateThen (padChecks s) padSetup s)
  | .copy => .next (padCopy s)
  | .idle => .next s
  | .load => .next s
  | .wait => .next s
  | .check => .next s

/-- UNPAD (R80): the controller's step in the state `s.fsm`. No rule gives UNPAD a step in IDLE, LOAD or WAIT; there the
state is unchanged (log 8). -/
def execUnpad (s : State) : Host.Outcome State Fault Refusal :=
  match s.fsm with
  | .validate => .next (validateThen (padChecks s) unpadSetup s)
  | .check => .next (unpadCheck s)
  | .copy => .next (unpadCopy s)
  | .idle => .next s
  | .load => .next s
  | .wait => .next s

end Sys2Proof.Machine
end

