-- ==== Sys2Proof/Machine/HostPort.lean ====
section
/-! DEFINITION. The host agent: the register map (10_state.md R17 to R37), the windows (20_memory.md R45 to R49) and the
two host steps (R50 to R53). -/

namespace Sys2Proof.Machine

/-- The host-visible registers (R17). -/
inductive Reg
  | id
  | ctrl
  | status
  | cmd
  | padBs
  | inLen
  | outLen
  | blkIdx
  | loaded
  | cap
  | key (i : Fin 4)
  | iv (i : Fin 4)
  deriving DecidableEq, Repr

/-- The offset of a register (R17). -/
def regOffset (r : Reg) : Nat :=
  match r with
  | .id => 0x000
  | .ctrl => 0x004
  | .status => 0x008
  | .cmd => 0x00C
  | .padBs => 0x010
  | .inLen => 0x014
  | .outLen => 0x018
  | .blkIdx => 0x01C
  | .loaded => 0x020
  | .cap => 0x024
  | .key i => 0x030 + 4 * i.val
  | .iv i => 0x040 + 4 * i.val

/-- The registers of the map (R17). -/
def allRegs : List Reg :=
  [.id, .ctrl, .status, .cmd, .padBs, .inLen, .outLen, .blkIdx, .loaded, .cap, .key 0, .key 1, .key 2, .key 3,
    .iv 0, .iv 1, .iv 2, .iv 3]

/-- The register at a window offset, none where the offset is reserved (R17, R49). -/
def regAt (off : Nat) : Option Reg := allRegs.find? (fun r => regOffset r == off)

/-- What stands at a window offset (R46). -/
inductive Target
  | reg (r : Reg)
  /-- The IN window, with the index of the first byte of the word. -/
  | inWindow (i : Nat)
  /-- The OUT window, with the index of the first byte of the word. -/
  | outWindow (i : Nat)
  | reserved
  deriving DecidableEq, Repr

/-- The address map (R46). -/
def targetAt (off : Nat) : Target :=
  if off < Config.regsEnd then
    match regAt off with
    | some r => .reg r
    | none => .reserved
  else if off < Config.inBase then .reserved
  else if off < Config.outBase then .inWindow (off - Config.inBase)
  else if off < Config.outEnd then .outWindow (off - Config.outBase)
  else .reserved

/-! ## Reads -/

/-- The value a read of a register returns (R18, R19, R22, R26 to R34). -/
def readReg (r : Reg) (s : State) : Word :=
  match r with
  | .id => Config.idValue
  | .ctrl => ctrlWord s
  | .status => statusWord s
  | .cmd => s.cmd
  | .padBs => (0 : BitVec 24) ++ s.padBs
  | .inLen => s.inLen
  | .outLen => s.outLen
  | .blkIdx => s.blkIdx
  | .loaded => loadedWord s
  | .cap => BitVec.ofNat 32 s.params.bufBytes
  | .key _ => 0
  | .iv _ => 0

/-- The value a host read at a window offset returns (R51); OUT reads 0 while BUSY (R52), words past a capacity and
reserved offsets read 0 (R48, R49). -/
def busValue (off : Nat) (s : State) : Word :=
  match targetAt off with
  | .reg r => readReg r s
  | .inWindow i => wordOfFn (fun j => inByte s (i + j))
  | .outWindow i => if s.busy then 0 else wordOfFn (fun j => outByte s (i + j))
  | .reserved => 0

/-- A host read: the device's state is unchanged (R51); the value appears on the read bus. -/
def busRead (off : Nat) (s : State) : State := { s with readData := busValue off s }

/-! ## Writes -/

/-- The input write gate (R36): a write to an input register or to IN while BUSY = 1 only sets WIGN. -/
def inputWrite (f : State → State) (s : State) : State := if s.busy then { s with wign := true } else f s

/-- A write to CMD: accepted when idle (R70), ignored with CIGN set while busy (R37, R71). -/
def writeCmd (v : Word) (s : State) : State := if s.busy then { s with cign := true } else acceptCommand v s

/-- A write to CTRL: SRST performs the soft reset and keeps nothing of the write, else IE is stored (R19, R130). -/
def writeCtrl (v : Word) (s : State) : State :=
  if v.getLsbD 1 then resetDevice s else { s with ie := v.getLsbD 0 }

/-- A write to KEYi (R33). -/
def writeKeyWord (i : Fin 4) (v : Word) (s : State) : State :=
  { s with key := setBlockWord s.key i.val v, keyLd := s.keyLd ||| BitVec.twoPow 4 i.val }

/-- A write to IVi (R34). -/
def writeIvWord (i : Fin 4) (v : Word) (s : State) : State :=
  { s with iv := setBlockWord s.iv i.val v, ivLd := s.ivLd ||| BitVec.twoPow 4 i.val }

/-- A write to a register (R53): read-only registers ignore it (R17). -/
def writeReg (r : Reg) (v : Word) (s : State) : State :=
  match r with
  | .id => s
  | .ctrl => writeCtrl v s
  | .status => writeStatus v s
  | .cmd => writeCmd v s
  | .padBs => inputWrite (fun t => { t with padBs := v.extractLsb' 0 8 }) s
  | .inLen => inputWrite (fun t => { t with inLen := v }) s
  | .outLen => s
  | .blkIdx => s
  | .loaded => s
  | .cap => s
  | .key i => inputWrite (writeKeyWord i v) s
  | .iv i => inputWrite (writeIvWord i v) s

/-- The four bytes of a word in buffer order (R47). -/
def wordBytes (v : Word) : List Byte := [wordByte v 0, wordByte v 1, wordByte v 2, wordByte v 3]

/-- A write to the IN window (R53); past the capacity it is ignored with no flag (R48). -/
def writeIn (i : Nat) (v : Word) (s : State) : State :=
  if i < s.params.bufBytes then
    inputWrite (fun t => { t with mem := writeBytes t.mem (Config.inBase + i) (wordBytes v) }) s
  else s

/-- A host write at a window offset (R53): the OUT window and reserved offsets ignore it (R49). -/
def busWrite (off : Nat) (v : Word) (s : State) : State :=
  match targetAt off with
  | .reg r => writeReg r v s
  | .inWindow i => writeIn i v s
  | .outWindow _ => s
  | .reserved => s

/-! ## The host step -/

/-- A host access within the contract (R51, R53). -/
def busAccess (off : Nat) (k : AccessKind) (s : State) : State :=
  match k with
  | .read => busRead off s
  | .write v => busWrite off v s

/-- A host access: refused outside the contract of R50, else one atomic step. -/
def hostAccess (a : Access) (s : State) : Host.Outcome State Fault Refusal :=
  if !a.fullWidth then .refused .accessWidth
  else if !a.inWindow s.params then .refused .accessOutsideWindow
  else if !a.aligned s.params then .refused .accessMisaligned
  else if !a.allLanes then .refused .accessByteEnables
  else .next (busAccess (a.offset s.params) a.kind s)

end Sys2Proof.Machine
end

