-- ==== Sys2Proof/Machine/Agents.lean ====
section
/-! DEFINITION. The turns of the agents (00_scope.md R12, R13): the controller's step (30_encoding.md R72), the device's
own turn, and what each event of the agenda does. -/

namespace Sys2Proof.Machine

/-- The controller's step. At VALIDATE the command is the one CMD decodes to, an illegal word failing there (R68, R72);
after it, the one `opc` names (R79, R82, R83, R99, R100, R107, R109, R110). IDLE has no step (R40). -/
def controllerTurn (s : State) : Host.Outcome State Fault Refusal :=
  match s.fsm with
  | .idle => .next s
  | .validate =>
    match decode s.cmd with
    | .command i => exec i s
    | .illegal r => .next (raiseError .illegalCommand (illegalDetail r) s)
  | .load | .wait | .copy | .check =>
    match opcodeInstr s.opc with
    | some i => exec i s
    | none => .next s

/-- A command has a step rule in a controller state after VALIDATE (R40). -/
def hasStepRule (i : Instr) (f : Fsm) : Bool :=
  match i with
  | .pad => f == .copy
  | .unpad => f == .check || f == .copy
  | .ecbEnc => f == .load || f == .wait
  | .ecbDec => f == .load || f == .wait
  | .cbcEnc => f == .load || f == .wait
  | .cbcDec => f == .load || f == .wait || f == .check

/-- The port lets the controller go on: LOAD needs it free, WAIT needs a response (R90). -/
def portReady (s : State) : Bool :=
  match s.fsm with
  | .load => portFree s
  | .wait => s.port.rspValid
  | .idle | .validate | .copy | .check => true

/-- The controller has an enabled step. -/
def controllerEnabled (s : State) : Bool :=
  match s.fsm with
  | .idle => false
  | .validate => true
  | .load | .wait | .copy | .check =>
    match opcodeInstr s.opc with
    | some i => hasStepRule i s.fsm && portReady s
    | none => false

/-- The device's own turn: the controller's step where it has one, else the cipher's with the next free draw, else
nothing (log 3). In the states that occur at most one of the two is enabled (R90). -/
def deviceTurn (s : State) : Host.Outcome State Fault Refusal :=
  if controllerEnabled s then controllerTurn s
  else if cipherEnabled s then
    .next (cipherStep Config.cipherPerm (Config.cipherDraw s.draws) { s with draws := s.draws + 1 })
  else .next s

/-- One turn. A poll that still finds BUSY = 1, and a wait that still finds `irq` = 0, gives the device a turn and comes
again (R74, R133). -/
def takeTurn (e : Event) (s : State) : Host.Outcome State Fault Refusal :=
  match e with
  | .host a => hostAccess a s
  | .poll =>
    let s1 := busRead (regOffset .status) s
    .next (if s.busy then { s1 with agenda := .device :: .poll :: s.agenda } else s1)
  | .awaitIrq => .next (if irq s then s else { s with agenda := .device :: .awaitIrq :: s.agenda })
  | .device => deviceTurn s
  | .controller => controllerTurn s
  | .cipher d => .next (cipherStep Config.cipherPerm d s)
  | .hardReset => .next (resetDevice s)

/-- One step of the machine: the next turn of the agenda, or the device's own when none is scheduled. -/
def nextTurn (s : State) : Host.Outcome State Fault Refusal :=
  match s.agenda with
  | [] => deviceTurn s
  | e :: rest => takeTurn e { s with agenda := rest }

/-- `s` with the command word `w` accepted (R70) and the controller to move next. -/
def presentCommand (w : Word) (s : State) : State :=
  match s.agenda with
  | [] => acceptCommand w s
  | e :: rest => { acceptCommand w s with agenda := .controller :: e :: rest }

end Sys2Proof.Machine
end

