-- ==== Sys2Proof/Machine/Step.lean ====
section
/-! DEFINITION. The step, and where an instruction stands for the next step. -/

namespace Sys2Proof.Machine

/-- One atomic step of the machine (00_scope.md R12). -/
def step (s : State) : Host.Outcome State Fault Refusal := nextTurn s

/-- `s` with the command word of the bits `w` accepted in CMD, as the host's write of it leaves the device
(30_encoding.md R70), so that the very next step is its VALIDATE step. -/
def State.withFetchWord (s : State) (nbits w : Nat) : State :=
  presentCommand (BitVec.ofNat 32 (w % 2 ^ nbits)) s

end Sys2Proof.Machine
end

