-- ==== Sys2Proof/Machine/HostProgram.lean ====
section
/-! DEFINITION. Host programs in the syntax of 30_encoding.md R74, expanded into the turns they stand for. -/

namespace Sys2Proof.Machine

/-- A full-word access at a window offset (R50). -/
def wordAccess (p : Params) (off : Nat) (k : AccessKind) : Access :=
  { addr := p.regBase + off, width := 4, lanes := 0xF, kind := k }

/-- `WR offset, value` (R74). -/
def wrTurn (p : Params) (off : Nat) (v : Word) : Event := .host (wordAccess p off (.write v))

/-- `RD offset` (R74); the value read appears in `readData`. -/
def rdTurn (p : Params) (off : Nat) : Event := .host (wordAccess p off .read)

/-- The four writes of a block to the registers `r 0` to `r 3` (R74 `LOADKEY`, `LOADIV`). -/
def loadBlockTurns (p : Params) (r : Fin 4 → Reg) (b : Block) : List Event :=
  [wrTurn p (regOffset (r 0)) (blockWord b 0), wrTurn p (regOffset (r 1)) (blockWord b 1),
    wrTurn p (regOffset (r 2)) (blockWord b 2), wrTurn p (regOffset (r 3)) (blockWord b 3)]

/-- The turns of one line (R74). -/
def expandLine (p : Params) (l : HostLine) : List Event :=
  match l with
  | .wr off v => [wrTurn p off v]
  | .rd off => [rdTurn p off]
  | .cmd i => [wrTurn p (regOffset .cmd) (encode i)]
  | .pollBusy => [.poll]
  | .loadKey k => loadBlockTurns p .key k
  | .loadIv v => loadBlockTurns p .iv v
  | .loadIn d =>
    (List.range ((d.length + 3) / 4)).map (fun m => wrTurn p (Config.inBase + 4 * m) (bytesWord d m)) ++
      [wrTurn p (regOffset .inLen) (BitVec.ofNat 32 d.length)]
  | .waitDone => [.poll]

/-- The turns of a host program (R74), in program order (R58). -/
def expandProgram (p : Params) (lines : List HostLine) : List Event := lines.flatMap (expandLine p)

end Sys2Proof.Machine
end

