-- ==== Sys2Proof/Safety.lean ====
section
/-! DEFINITION. The terms the claims use: runs of the machine, the invariants of the states that occur, the turns of a
whole command, and what a host access cannot touch. -/

namespace Sys2Proof.Machine

/-- `k` steps of the machine. -/
abbrev run (k : Nat) (s : State) : Host.Outcome State Fault Refusal := Host.Core.run Sys2Proof.core k s

/-! ## Invariants -/

/-- The pairs of ERR_CODE and ERR_DETAIL that occur (60_exceptions.md R114). -/
def legalError (c : ErrCode) (d : ErrDetail) : Bool :=
  match c with
  | .none => d == .none
  | .illegalCommand => d == .badOpcode || d == .rsvdBits
  | .invalidParameter =>
    d == .keyLen || d == .ivLen || d == .zeroBs || d == .lenRange || d == .unaligned || d == .empty
  | .corruptPadding => d == .empty || d == .padZero || d == .padGtBs || d == .padGtLen
  | .primitiveFailure => d == .primFail

/-- REQ_DIR of the requests a command makes (42_ecb.md R96, R97; 43_cbc.md R104, R105). -/
def requestDir (i : Instr) : Direction :=
  match i with
  | .pad => .encrypt
  | .unpad => .encrypt
  | .ecbEnc => .encrypt
  | .ecbDec => .decrypt
  | .cbcEnc => .encrypt
  | .cbcDec => .decrypt

/-- NB of a command with `n` input bytes (R98, R106). -/
def blockCount (i : Instr) (n : Nat) : Nat :=
  match i with
  | .pad => 0
  | .unpad => 0
  | .ecbEnc => n / 16
  | .ecbDec => n / 16
  | .cbcEnc => n / 16 + 1
  | .cbcDec => n / 16

/-- The conditions VALIDATE has checked of a command's operands (30_encoding.md R73). -/
def operandsValid (i : Instr) (s : State) : Prop :=
  inCount s ≤ s.params.bufBytes ∧
    match i with
    | .pad => padBoundary s ≠ 0
    | .unpad => padBoundary s ≠ 0
    | .ecbEnc => s.keyLd = 0xF ∧ inCount s % 16 = 0
    | .ecbDec => s.keyLd = 0xF ∧ inCount s % 16 = 0
    | .cbcEnc => s.keyLd = 0xF ∧ s.ivLd = 0xF
    | .cbcDec => s.keyLd = 0xF ∧ s.ivLd = 0xF ∧ inCount s % 16 = 0 ∧ inCount s ≠ 0

/-- In the block loop of LOAD and WAIT: NB and L are the command's, and a block is still to be stored (R98, R106). -/
def inBlockLoop (i : Instr) (s : State) : Prop :=
  (s.fsm = .load ∨ s.fsm = .wait) ∧ s.nb.toNat = blockCount i (inCount s) ∧
    s.len.toNat = 16 * blockCount i (inCount s) ∧ s.blkIdx.toNat < s.nb.toNat

/-- Where a command stands after VALIDATE, with what its earlier steps have left (R40). -/
def runningAt (i : Instr) (s : State) : Prop :=
  match i with
  | .pad =>
    s.fsm = .copy ∧ s.blkIdx = 0 ∧ s.len.toNat = inCount s + padCount (padBoundary s) (inCount s)
  | .unpad => s.blkIdx = 0 ∧ (s.fsm = .check ∨ (s.fsm = .copy ∧ s.len.toNat < inCount s))
  | .ecbEnc => inBlockLoop .ecbEnc s
  | .ecbDec => inBlockLoop .ecbDec s
  | .cbcEnc => inBlockLoop .cbcEnc s
  | .cbcDec =>
    inBlockLoop .cbcDec s ∨ (s.fsm = .check ∧ s.len.toNat = inCount s ∧ s.blkIdx.toNat = blockCount .cbcDec (inCount s))

/-- Memory is in canonical form and lists only bytes of IN and OUT (20_memory.md R47). -/
def MemoryInv (s : State) : Prop := Memory.wf s.mem ∧ Memory.inBounds s.params s.mem

/-- The registers, the controller state and the cipher port fit together. -/
structure ControlInv (s : State) : Prop where
  /-- The parameters are legal (R6). -/
  params_legal : s.params.wf = true
  /-- BUSY = 1 exactly when `fsm` is not IDLE (R40). -/
  busy_iff : s.busy = true ↔ s.fsm ≠ .idle
  /-- While BUSY = 1, DONE, ERR_CODE, ERR_DETAIL and OUT_LEN are 0 (R25, R70). -/
  busy_flags : s.busy = true → s.done = false ∧ s.errCode = .none ∧ s.errDetail = .none ∧ s.outLen = 0
  /-- ERR_DETAIL goes with its ERR_CODE (R114). -/
  error_pair : legalError s.errCode s.errDetail = true
  /-- `opc` is the opcode of the running command (R39, R70). -/
  opc_of_cmd : s.busy = true → s.opc = opcodeField s.cmd
  /-- RIV and BLK are cleared at every completion (R42, R43). -/
  idle_clear : s.fsm = .idle → s.riv = 0 ∧ s.blk = 0
  /-- Outside WAIT the port is free (R90). -/
  port_free : s.fsm ≠ .wait → s.port.reqValid = false ∧ s.port.rspValid = false
  /-- In WAIT exactly one of a request and a response is there (R90). -/
  port_wait : s.fsm = .wait → s.port.reqValid = !s.port.rspValid
  /-- The request signals are stable from issue to response (R90). -/
  request_stable : s.fsm = .wait → s.port.reqKey = s.key ∧ s.port.reqData = s.blk
  /-- BLK_IDX starts at 0 (R70). -/
  validate_start : s.fsm = .validate → s.blkIdx = 0
  /-- After VALIDATE a legal command runs, on checked operands (R72, R73). -/
  running : s.fsm ≠ .idle → s.fsm ≠ .validate →
    ∃ i, decode s.cmd = .command i ∧ operandsValid i s ∧ runningAt i s ∧
      (s.fsm = .wait → s.port.reqDir = requestDir i)

/-- While IDLE, OUT holds exactly the result: every byte at or above OUT_LEN is 0, and after a failure OUT_LEN is 0
(60_exceptions.md R119). -/
def OutputInv (s : State) : Prop :=
  s.fsm = .idle → s.outLen.toNat ≤ s.params.outBytes ∧ (∀ i, s.outLen.toNat ≤ i → outByte s i = 0) ∧
    (s.errCode ≠ .none → s.outLen = 0)

/-- The invariant of the states that occur. -/
def Inv (s : State) : Prop := MemoryInv s ∧ ControlInv s ∧ OutputInv s

/-! ## Turns -/

/-- A turn of the controller or of the cipher. -/
def isDeviceTurn (e : Event) : Bool :=
  match e with
  | .controller => true
  | .cipher _ => true
  | .host _ => false
  | .poll => false
  | .awaitIrq => false
  | .device => false
  | .hardReset => false

/-- A host access within the contract that is no soft reset (20_memory.md R50, 70_reset_and_hazards.md R130). -/
def isPlainAccess (p : Params) (e : Event) : Bool :=
  match e with
  | .host a =>
    a.wf p &&
      match a.kind with
      | .read => true
      | .write v => !(a.offset p == regOffset .ctrl && v.getLsbD 1)
  | .controller => false
  | .cipher _ => false
  | .poll => false
  | .awaitIrq => false
  | .device => false
  | .hardReset => false

/-- The turns of one block: LOAD, the cipher's answer, WAIT. -/
def blockTurns : List Event := [.controller, .cipher .ok, .controller]

/-- The turns of `n` blocks. -/
def blocksTurns (n : Nat) : List Event := (List.replicate n blockTurns).flatten

/-- The turns of a whole command with `n` input bytes, from VALIDATE to completion, when the cipher fails no request
(70_reset_and_hazards.md R138; 41_cipher_port.md R94). -/
def commandTurns (i : Instr) (n : Nat) : List Event :=
  match i with
  | .pad => [.controller, .controller]
  | .unpad => [.controller, .controller, .controller]
  | .ecbEnc => .controller :: blocksTurns (blockCount .ecbEnc n)
  | .ecbDec => .controller :: blocksTurns (blockCount .ecbDec n)
  | .cbcEnc => .controller :: blocksTurns (blockCount .cbcEnc n)
  | .cbcDec => .controller :: (blocksTurns (blockCount .cbcDec n) ++ [.controller])

/-- The command `i` stands accepted, at its VALIDATE step, with operands that pass every check (R70, R73). -/
def acceptedValid (i : Instr) (s : State) : Prop :=
  s.fsm = .validate ∧ decode s.cmd = .command i ∧ operandsValid i s

/-- The command `i` is ready to run: accepted on valid operands (R70, R73), with the parameters legal, the memory in
canonical form and the cipher port free. Every state that meets `Inv` at the VALIDATE step of a valid command is so. -/
structure ReadyToRun (i : Instr) (s : State) : Prop where
  accepted : acceptedValid i s
  opc_of_cmd : s.opc = opcodeField s.cmd
  blkIdx_zero : s.blkIdx = 0
  no_error : s.errCode = .none ∧ s.errDetail = .none
  params_legal : s.params.wf = true
  memory_wf : Memory.wf s.mem
  port_free : portFree s = true

/-- The turns of a cipher command whose request for block `k` is the first the cipher fails (41_cipher_port.md R89). -/
def failingTurns (k : Nat) (junk : Block) : List Event :=
  .controller :: (blocksTurns k ++ [.controller, .cipher (.fail junk), .controller])

/-! ## What the next turn is -/

/-- The next turn is a host write of `v` at the window offset `off`, within the contract (20_memory.md R53). -/
def writesNow (s : State) (off : Nat) (v : Word) : Prop :=
  ∃ (a : Access) (rest : List Event),
    s.agenda = .host a :: rest ∧ a.wf s.params = true ∧ a.offset s.params = off ∧ a.kind = .write v

/-- The next turn is the acceptance of a command: a write to CMD while BUSY = 0 (30_encoding.md R70). -/
def acceptsNow (s : State) : Prop := s.busy = false ∧ ∃ w, writesNow s 0x00C w

/-- The next turn is a reset: the reset input, or a write to CTRL with SRST = 1 (70_reset_and_hazards.md R129, R130). -/
def resetsNow (s : State) : Prop :=
  (∃ rest, s.agenda = .hardReset :: rest) ∨ ∃ v, writesNow s 0x004 v ∧ v.getLsbD 1 = true

/-- The step from `s` to `t` is the completion of a command, successful or not, by the controller's turn or the device's own
(60_exceptions.md R116, R117). -/
def completesTo (s t : State) : Prop :=
  s.busy = true ∧ t.busy = false ∧ t.done = true ∧ t.fsm = .idle ∧
    (s.agenda = [] ∨ ∃ rest, s.agenda = .controller :: rest ∨ s.agenda = .device :: rest)

/-- The offsets of the input write gate: PAD_BS, IN_LEN, KEY0 to KEY3, IV0 to IV3 and the words of IN (10_state.md R36). -/
def isInputOffset (p : Params) (off : Nat) : Bool :=
  off == 0x010 || off == 0x014 || off == 0x030 || off == 0x034 || off == 0x038 || off == 0x03C ||
    off == 0x040 || off == 0x044 || off == 0x048 || off == 0x04C ||
    (decide (0x10000 ≤ off) && decide (off < 0x10000 + p.bufBytes))

/-! ## Views -/

/-- What a running command and its result depend on: the state without the fields a host access can change while a
command runs, CTRL.IE and the two ignored-write flags, and without the host's own side (20_memory.md R59). -/
def commandView (s : State) : State :=
  { s with ie := false, wign := false, cign := false, readData := 0, agenda := [] }

/-- The input a command reads: IN_LEN, PAD_BS and the bytes of IN (30_encoding.md R66). -/
def sameInputs (s t : State) : Prop :=
  t.padBs = s.padBs ∧ t.inLen = s.inLen ∧ ∀ i, inByte t i = inByte s i

/-- The result of a completed command: `d` in OUT, 0 from its end up (60_exceptions.md R116). -/
def outHolds (s : State) (d : List Byte) : Prop :=
  s.outLen.toNat = d.length ∧ ∀ i, outByte s i = d.getD i 0

/-- Outside the bytes of OUT memory reads as before. -/
def onlyOutChanged (s t : State) : Prop :=
  ∀ a, ¬(Config.outBase ≤ a ∧ a < Config.outBase + s.params.outBytes) → readByte t.mem a = readByte s.mem a

end Sys2Proof.Machine
end

