-- ==== Sys2Proof/Certificates/Slice0/Obligations.lean ====
section
/-! DEFINITION. The statements about the CBC codec controller, for the provers. Each docstring names the rule of spec/ it
formalises; the forms of bus access `wordAccess`, the completion procedures `finish` and `raiseError` and the readings
`inByte`, `outByte` are the model's own operations, stated themselves below. The order of the agents' turns stands in
`agenda` and a step takes the first of them: that is the model's presentation of R12 (log 3), in every statement that
names `agenda`, `run` or `step`. -/

open Sys2Proof Sys2Proof.Machine

/-! ## Command words -/

/-- R67: decoding an encoded command gives it back, every word that decodes to a command is that command's word, and the
six legal command words are exactly 0x00000001 to 0x00000006. -/
def Obligations.DecodeEncodeAgree : Prop :=
  (∀ i : Instr, i.wf = true → decode (encode i) = .command i) ∧
    (∀ (w : Word) (i : Instr), decode w = .command i → w = encode i) ∧
    ∀ w : Word, (∃ i, decode w = .command i) ↔ (1 ≤ w.toNat ∧ w.toNat ≤ 6)

/-- R69: the decoder on every 32-bit word, by its OPCODE `w mod 16` and its reserved bits `w div 16`. -/
def Obligations.DecoderIsTotal : Prop :=
  ∀ w : Word,
    decode w =
      if w.toNat % 16 = 0 ∨ 7 ≤ w.toNat % 16 then .illegal .badOpcode
      else if w.toNat / 16 ≠ 0 then .illegal .rsvdBits
      else if w.toNat % 16 = 1 then .command .pad
      else if w.toNat % 16 = 2 then .command .unpad
      else if w.toNat % 16 = 3 then .command .ecbEnc
      else if w.toNat % 16 = 4 then .command .ecbDec
      else if w.toNat % 16 = 5 then .command .cbcEnc
      else .command .cbcDec

/-- R67, R68 (sanity): words written out from the opcode map and from the vectors V80 to V84. -/
def Obligations.DecodeSampleWords : Prop :=
  decode 0x00000001 = .command .pad ∧ decode 0x00000002 = .command .unpad ∧ decode 0x00000003 = .command .ecbEnc ∧
    decode 0x00000004 = .command .ecbDec ∧ decode 0x00000005 = .command .cbcEnc ∧
    decode 0x00000006 = .command .cbcDec ∧ decode 0x00000000 = .illegal .badOpcode ∧
    decode 0x00000007 = .illegal .badOpcode ∧ decode 0x0000000F = .illegal .badOpcode ∧
    decode 0x00000015 = .illegal .rsvdBits ∧ decode 0x80000003 = .illegal .rsvdBits

/-! ## The step -/

/-- R72 and the step rules: on the controller's turn the step is `exec` of the command CMD decodes to at VALIDATE, and of
the command `opc` names after it; the turn is taken from the agenda, which is the only other change. With no turn
scheduled the controller moves by itself (log 3). -/
def Obligations.StepRunsTheDecodedCommand : Prop :=
  ∀ (s : State) (i : Instr), i.wf = true →
    (s.fsm = .validate → decode s.cmd = .command i →
      (s.agenda = [] → step s = exec i s) ∧
        ∀ rest, s.agenda = .controller :: rest → step s = exec i { s with agenda := rest }) ∧
    (s.fsm ≠ .idle → s.fsm ≠ .validate → opcodeInstr s.opc = some i →
      (s.agenda = [] → hasStepRule i s.fsm = true → portReady s = true → step s = exec i s) ∧
        ∀ rest, s.agenda = .controller :: rest → step s = exec i { s with agenda := rest })

/-- R68: an illegal command word fails at VALIDATE with ILLEGAL_COMMAND and its detail; it clears neither key nor IV, and
CMD keeps the word. -/
def Obligations.IllegalCommandFailsAtValidate : Prop :=
  ∀ (s : State) (r : IllegalReason) (rest : List Event),
    s.fsm = .validate → decode s.cmd = .illegal r → s.agenda = .controller :: rest →
    ∃ t, step s = .next t ∧
      t = { s with
        mem := t.mem, outLen := 0, errCode := .illegalCommand,
        errDetail := (match r with | .badOpcode => .badOpcode | .rsvdBits => .rsvdBits),
        port := { s.port with rspValid := false }, riv := 0, blk := 0, busy := false, done := true, fsm := .idle,
        agenda := rest } ∧
      (∀ i, outByte t i = 0) ∧ onlyOutChanged s t

/-- R72, R73: at VALIDATE the first check that holds, in the order of the table, is the one reported; for all six
commands. -/
def Obligations.ValidateReportsTheFirstFailingCheck : Prop :=
  ∀ s : State, s.fsm = .validate →
    (∀ i, i = .pad ∨ i = .unpad →
      (padBoundary s = 0 → exec i s = .next (raiseError .invalidParameter .zeroBs s)) ∧
      (padBoundary s ≠ 0 → s.params.bufBytes < inCount s →
        exec i s = .next (raiseError .invalidParameter .lenRange s))) ∧
    (∀ i, i = .ecbEnc ∨ i = .ecbDec →
      (s.keyLd ≠ 0xF → exec i s = .next (raiseError .invalidParameter .keyLen s)) ∧
      (s.keyLd = 0xF → s.params.bufBytes < inCount s →
        exec i s = .next (raiseError .invalidParameter .lenRange s)) ∧
      (s.keyLd = 0xF → inCount s ≤ s.params.bufBytes → inCount s % 16 ≠ 0 →
        exec i s = .next (raiseError .invalidParameter .unaligned s))) ∧
    (∀ i, i = .cbcEnc ∨ i = .cbcDec →
      (s.keyLd ≠ 0xF → exec i s = .next (raiseError .invalidParameter .keyLen s)) ∧
      (s.keyLd = 0xF → s.ivLd ≠ 0xF → exec i s = .next (raiseError .invalidParameter .ivLen s)) ∧
      (s.keyLd = 0xF → s.ivLd = 0xF → s.params.bufBytes < inCount s →
        exec i s = .next (raiseError .invalidParameter .lenRange s))) ∧
    (s.keyLd = 0xF → s.ivLd = 0xF → inCount s ≤ s.params.bufBytes →
      (inCount s % 16 ≠ 0 → exec .cbcDec s = .next (raiseError .invalidParameter .unaligned s)) ∧
      (inCount s = 0 → exec .cbcDec s = .next (raiseError .invalidParameter .empty s)))

/-! ## PAD and UNPAD -/

/-- R78, R81: when the checks pass, PAD's VALIDATE step sets L = n + (p - n mod p) and goes to COPY, UNPAD's goes to
CHECK; nothing else changes. -/
def Obligations.PaddingSetups : Prop :=
  ∀ s : State, s.fsm = .validate → s.params.wf = true → padBoundary s ≠ 0 → inCount s ≤ s.params.bufBytes →
    (∃ t, exec .pad s = .next t ∧ t = { s with len := t.len, fsm := .copy } ∧
      t.len.toNat = inCount s + (padBoundary s - inCount s % padBoundary s)) ∧
    exec .unpad s = .next { s with fsm := .check }

/-- R79 with R116: PAD's COPY step copies the input, fills up to L with bytes of value L - n, erases OUT from L up and
completes. -/
def Obligations.PadCopyStep : Prop :=
  ∀ s : State, s.fsm = .copy → decode s.cmd = .command .pad → Memory.wf s.mem → inCount s ≤ s.len.toNat →
    s.len.toNat ≤ s.params.outBytes →
    ∃ t, exec .pad s = .next t ∧
      t = { s with
        mem := t.mem, outLen := s.len, riv := 0, blk := 0, busy := false, done := true, fsm := .idle } ∧
      (∀ i, outByte t i =
        if i < inCount s then inByte s i
        else if i < s.len.toNat then BitVec.ofNat 8 (s.len.toNat - inCount s) else 0) ∧
      onlyOutChanged s t

/-- R82 with R76: UNPAD's CHECK step looks at the last input byte m only, in the order EMPTY, PAD_ZERO, PAD_GT_BS,
PAD_GT_LEN; when none holds, L = n - m and COPY is next. -/
def Obligations.UnpadCheckStep : Prop :=
  ∀ (s : State) (m : Nat), s.fsm = .check → m = (inByte s (inCount s - 1)).toNat →
    (inCount s = 0 → exec .unpad s = .next (raiseError .corruptPadding .empty s)) ∧
    (inCount s ≠ 0 → m = 0 → exec .unpad s = .next (raiseError .corruptPadding .padZero s)) ∧
    (inCount s ≠ 0 → m ≠ 0 → padBoundary s < m → exec .unpad s = .next (raiseError .corruptPadding .padGtBs s)) ∧
    (inCount s ≠ 0 → m ≠ 0 → m ≤ padBoundary s → inCount s < m →
      exec .unpad s = .next (raiseError .corruptPadding .padGtLen s)) ∧
    (m ≠ 0 → m ≤ padBoundary s → m ≤ inCount s →
      exec .unpad s = .next { s with len := BitVec.ofNat 32 (inCount s - m), fsm := .copy })

/-- R83 with R116: UNPAD's COPY step copies the first L input bytes, erases OUT from L up and completes. -/
def Obligations.UnpadCopyStep : Prop :=
  ∀ s : State, s.fsm = .copy → decode s.cmd = .command .unpad → Memory.wf s.mem → s.len.toNat ≤ s.params.outBytes →
    ∃ t, exec .unpad s = .next t ∧
      t = { s with
        mem := t.mem, outLen := s.len, riv := 0, blk := 0, busy := false, done := true, fsm := .idle } ∧
      (∀ i, outByte t i = if i < s.len.toNat then inByte s i else 0) ∧ onlyOutChanged s t

/-- R77, R138: a PAD command on valid operands takes two controller steps from VALIDATE and leaves pad(p, D) in OUT, with
key, IV and inputs untouched. -/
def Obligations.PadCommandResult : Prop :=
  ∀ (s : State) (rest : List Event), ReadyToRun .pad s →
    s.agenda = [.controller, .controller] ++ rest →
    ∃ t, run 2 s = .next t ∧
      t = { s with
        mem := t.mem, len := t.len, outLen := t.outLen, riv := 0, blk := 0, busy := false, done := true,
        fsm := .idle, agenda := rest } ∧
      outHolds t (pad (padBoundary s) (inSeq s (inCount s))) ∧ onlyOutChanged s t

/-- R80, R138: an UNPAD command on valid operands leaves unpad(p, S) in OUT after three controller steps, or fails with
CORRUPT_PADDING and the detail of padcheck after two, with OUT all 0. -/
def Obligations.UnpadCommandResult : Prop :=
  ∀ (s : State) (rest : List Event), ReadyToRun .unpad s →
    (∀ m, unpad (padBoundary s) (inSeq s (inCount s)) = .bytes m →
      s.agenda = [.controller, .controller, .controller] ++ rest →
      ∃ t, run 3 s = .next t ∧
        t = { s with
          mem := t.mem, len := t.len, outLen := t.outLen, riv := 0, blk := 0, busy := false, done := true,
          fsm := .idle, agenda := rest } ∧
        outHolds t m ∧ onlyOutChanged s t) ∧
    ∀ x, unpad (padBoundary s) (inSeq s (inCount s)) = .corruptPadding x →
      s.agenda = [.controller, .controller] ++ rest →
      ∃ t, run 2 s = .next t ∧
        t = { s with
          mem := t.mem, outLen := 0, errCode := .corruptPadding, errDetail := x,
          port := { s.port with rspValid := false }, riv := 0, blk := 0, busy := false, done := true, fsm := .idle,
          agenda := rest } ∧
        outHolds t [] ∧ onlyOutChanged s t

/-- R84: padding makes a sequence longer and aligned, unpadding undoes it, and padcheck answers a count from 1 to the
block size and the length. -/
def Obligations.PaddingLaws : Prop :=
  ∀ bs : Nat, 1 ≤ bs → bs ≤ 255 →
    (∀ d : List Byte, d.length < (pad bs d).length ∧ (pad bs d).length % bs = 0) ∧
    (∀ d : List Byte, unpad bs (pad bs d) = .bytes d) ∧
    ∀ (d : List Byte) (n : Nat), padcheck bs d = .ok n → 1 ≤ n ∧ n ≤ min bs d.length

/-! ## ECB -/

/-- R98: when the checks pass, ECB's VALIDATE step sets NB and L and goes to LOAD, or with no block completes at once with
an empty result, consuming the key. -/
def Obligations.EcbSetups : Prop :=
  ∀ (s : State) (i : Instr), i = .ecbEnc ∨ i = .ecbDec → s.fsm = .validate → s.params.wf = true →
    s.keyLd = 0xF → inCount s ≤ s.params.bufBytes → inCount s % 16 = 0 →
    (inCount s ≠ 0 → ∃ t, exec i s = .next t ∧ t = { s with nb := t.nb, len := t.len, fsm := .load } ∧
      t.nb.toNat = inCount s / 16 ∧ t.len.toNat = inCount s) ∧
    (inCount s = 0 → decode s.cmd = .command i → ∃ t, exec i s = .next t ∧
      t = { s with
        nb := 0, len := 0, mem := t.mem, outLen := 0, key := 0, keyLd := 0, riv := 0, blk := 0, busy := false,
        done := true, fsm := .idle } ∧
      (∀ j, outByte t j = 0) ∧ onlyOutChanged s t)

/-- R99: ECB's LOAD step, enabled when the port is free, requests the cipher on input block BLK_IDX under KEY. -/
def Obligations.EcbLoadStep : Prop :=
  ∀ (s : State) (i : Instr), i = .ecbEnc ∨ i = .ecbDec → s.fsm = .load →
    s.port.reqValid = false → s.port.rspValid = false → ∃ t, exec i s = .next t ∧
      t = { s with
        blk := t.blk,
        port := { s.port with
          reqDir := (if i = .ecbDec then .decrypt else .encrypt), reqKey := s.key, reqData := t.blk,
          reqValid := true },
        fsm := .wait } ∧
      ∀ j < 16, blockByte t.blk j = inByte s (16 * s.blkIdx.toNat + j)

/-- R100 with R116: ECB's WAIT step, enabled when a response is waiting, fails on a rejected request; else it stores the
block at 16k, counts it and goes on to LOAD or, after block NB - 1, completes. -/
def Obligations.EcbWaitStep : Prop :=
  ∀ (s : State) (i : Instr), i = .ecbEnc ∨ i = .ecbDec → s.fsm = .wait → Memory.wf s.mem →
    (s.port.rspValid = true → s.port.rspFail = true →
      exec i s = .next (raiseError .primitiveFailure .primFail s)) ∧
    (s.port.rspValid = true → s.port.rspFail = false → s.blkIdx.toNat + 1 < s.nb.toNat → ∃ t, exec i s = .next t ∧
      t = { s with
        mem := t.mem, blkIdx := s.blkIdx + 1, port := { s.port with rspValid := false }, fsm := .load } ∧
      (∀ a, outByte t a =
        if 16 * s.blkIdx.toNat ≤ a ∧ a < 16 * s.blkIdx.toNat + 16 ∧ a < s.params.outBytes
        then blockByte s.port.rspData (a - 16 * s.blkIdx.toNat) else outByte s a) ∧
      onlyOutChanged s t) ∧
    (s.port.rspValid = true → s.port.rspFail = false → s.nb.toNat ≤ s.blkIdx.toNat + 1 →
      decode s.cmd = .command i → ∃ t, exec i s = .next t ∧
      t = { s with
        mem := t.mem, blkIdx := s.blkIdx + 1, port := { s.port with rspValid := false }, outLen := s.len, key := 0,
        keyLd := 0, riv := 0, blk := 0, busy := false, done := true, fsm := .idle } ∧
      (∀ a, outByte t a =
        if s.len.toNat ≤ a then 0
        else if 16 * s.blkIdx.toNat ≤ a ∧ a < 16 * s.blkIdx.toNat + 16 ∧ a < s.params.outBytes
        then blockByte s.port.rspData (a - 16 * s.blkIdx.toNat) else outByte s a) ∧
      onlyOutChanged s t)

/-- R96, R97, R138: an ECB command on valid operands, the cipher failing no request, leaves ecb_enc(KEY, D) or
ecb_dec(KEY, C) in OUT after 1 + 2 NB controller steps and NB cipher steps, and consumes the key alone. -/
def Obligations.EcbCommandResult : Prop :=
  ∀ (s : State) (i : Instr) (rest : List Event), i = .ecbEnc ∨ i = .ecbDec → ReadyToRun i s →
    s.agenda = commandTurns i (inCount s) ++ rest →
    ∃ t, run (commandTurns i (inCount s)).length s = .next t ∧
      t = { s with
        mem := t.mem, nb := t.nb, len := t.len, blkIdx := t.blkIdx, port := t.port, outLen := t.outLen, key := 0,
        keyLd := 0, riv := 0, blk := 0, busy := false, done := true, fsm := .idle, agenda := rest } ∧
      (i = .ecbEnc → outHolds t (ecbEnc Config.cipherPerm s.key (inSeq s (inCount s)))) ∧
      (i = .ecbDec → outHolds t (ecbDec Config.cipherPerm s.key (inSeq s (inCount s)))) ∧
      t.blkIdx.toNat = inCount s / 16 ∧ portFree t = true ∧ onlyOutChanged s t

/-- R101, R97: whatever the cipher, equal input blocks give equal output blocks and different ones different, and
decryption undoes encryption on aligned data. -/
def Obligations.EcbLaws : Prop :=
  ∀ (c : Block → Equiv.Perm Block) (k : Block) (d : List Byte), d.length % 16 = 0 →
    (ecbEnc c k d).length = d.length ∧ ecbDec c k (ecbEnc c k d) = d ∧
    ∀ i j, i < d.length / 16 → j < d.length / 16 →
      (blockAt (ecbEnc c k d) i = blockAt (ecbEnc c k d) j ↔ blockAt d i = blockAt d j)

/-! ## CBC -/

/-- R106: when the checks pass, CBC's VALIDATE step sets NB and L = 16 NB, loads RIV from IV and goes to LOAD. -/
def Obligations.CbcSetups : Prop :=
  ∀ s : State, s.fsm = .validate → s.params.wf = true → s.keyLd = 0xF → s.ivLd = 0xF →
    inCount s ≤ s.params.bufBytes →
    (∃ t, exec .cbcEnc s = .next t ∧ t = { s with nb := t.nb, len := t.len, riv := s.iv, fsm := .load } ∧
      t.nb.toNat = inCount s / 16 + 1 ∧ t.len.toNat = 16 * (inCount s / 16 + 1)) ∧
    (inCount s % 16 = 0 → inCount s ≠ 0 →
      ∃ t, exec .cbcDec s = .next t ∧ t = { s with nb := t.nb, len := t.len, riv := s.iv, fsm := .load } ∧
        t.nb.toNat = inCount s / 16 ∧ t.len.toNat = 16 * (inCount s / 16))

/-- R107, R108: CBC's LOAD step. CBC_ENC requests the encryption of the padded plaintext block XOR the running IV, CBC_DEC
the decryption of the ciphertext block unchanged. -/
def Obligations.CbcLoadStep : Prop :=
  ∀ (s : State) (i : Instr), i = .cbcEnc ∨ i = .cbcDec → s.fsm = .load →
    s.port.reqValid = false → s.port.rspValid = false → ∃ t, exec i s = .next t ∧
      t = { s with
        blk := t.blk,
        port := { s.port with
          reqDir := (if i = .cbcDec then .decrypt else .encrypt), reqKey := s.key, reqData := t.blk,
          reqValid := true },
        fsm := .wait } ∧
      (i = .cbcEnc → ∀ j < 16, blockByte t.blk j =
        (if 16 * s.blkIdx.toNat + j < inCount s then inByte s (16 * s.blkIdx.toNat + j)
          else BitVec.ofNat 8 (16 - inCount s % 16)) ^^^ blockByte s.riv j) ∧
      (i = .cbcDec → ∀ j < 16, blockByte t.blk j = inByte s (16 * s.blkIdx.toNat + j))

/-- R109, CBC_ENC: the WAIT step outputs the ciphertext block and latches it as the next running IV; a rejected request
fails the command; after block NB - 1 the command completes. -/
def Obligations.CbcEncWaitStep : Prop :=
  ∀ s : State, s.fsm = .wait → Memory.wf s.mem →
    (s.port.rspValid = true → s.port.rspFail = true →
      exec .cbcEnc s = .next (raiseError .primitiveFailure .primFail s)) ∧
    (s.port.rspValid = true → s.port.rspFail = false → s.blkIdx.toNat + 1 < s.nb.toNat →
      ∃ t, exec .cbcEnc s = .next t ∧
      t = { s with
        mem := t.mem, riv := s.port.rspData, blkIdx := s.blkIdx + 1, port := { s.port with rspValid := false },
        fsm := .load } ∧
      (∀ a, outByte t a =
        if 16 * s.blkIdx.toNat ≤ a ∧ a < 16 * s.blkIdx.toNat + 16 ∧ a < s.params.outBytes
        then blockByte s.port.rspData (a - 16 * s.blkIdx.toNat) else outByte s a) ∧
      onlyOutChanged s t) ∧
    (s.port.rspValid = true → s.port.rspFail = false → s.nb.toNat ≤ s.blkIdx.toNat + 1 →
      decode s.cmd = .command .cbcEnc → ∃ t, exec .cbcEnc s = .next t ∧
      t = { s with
        mem := t.mem, blkIdx := s.blkIdx + 1, port := { s.port with rspValid := false }, outLen := s.len, key := 0,
        keyLd := 0, iv := 0, ivLd := 0, riv := 0, blk := 0, busy := false, done := true, fsm := .idle } ∧
      (∀ a, outByte t a =
        if s.len.toNat ≤ a then 0
        else if 16 * s.blkIdx.toNat ≤ a ∧ a < 16 * s.blkIdx.toNat + 16 ∧ a < s.params.outBytes
        then blockByte s.port.rspData (a - 16 * s.blkIdx.toNat) else outByte s a) ∧
      onlyOutChanged s t)

/-- R109, CBC_DEC: the WAIT step outputs the response XOR the running IV held when the step began, and only then is the
running IV the ciphertext block just consumed; after block NB - 1 comes CHECK. -/
def Obligations.CbcDecWaitStep : Prop :=
  ∀ s : State, s.fsm = .wait → Memory.wf s.mem →
    (s.port.rspValid = true → s.port.rspFail = true →
      exec .cbcDec s = .next (raiseError .primitiveFailure .primFail s)) ∧
    (s.port.rspValid = true → s.port.rspFail = false → ∃ t, exec .cbcDec s = .next t ∧
      t = { s with
        mem := t.mem, riv := t.riv, blkIdx := s.blkIdx + 1, port := { s.port with rspValid := false },
        fsm := (if s.blkIdx.toNat + 1 < s.nb.toNat then .load else .check) } ∧
      (∀ j < 16, blockByte t.riv j = inByte s (16 * s.blkIdx.toNat + j)) ∧
      (∀ a, outByte t a =
        if 16 * s.blkIdx.toNat ≤ a ∧ a < 16 * s.blkIdx.toNat + 16 ∧ a < s.params.outBytes
        then blockByte s.port.rspData (a - 16 * s.blkIdx.toNat) ^^^ blockByte s.riv (a - 16 * s.blkIdx.toNat)
        else outByte s a) ∧
      onlyOutChanged s t)

/-- R110 with R76, R116: CBC_DEC's CHECK step looks at the last decrypted byte m only; when no check fails the command
completes with L - m bytes and the stripped padding is erased. -/
def Obligations.CbcDecCheckStep : Prop :=
  ∀ (s : State) (m : Nat), s.fsm = .check → m = (outByte s (s.len.toNat - 1)).toNat →
    (s.len.toNat = 0 → exec .cbcDec s = .next (raiseError .corruptPadding .empty s)) ∧
    (s.len.toNat ≠ 0 → m = 0 → exec .cbcDec s = .next (raiseError .corruptPadding .padZero s)) ∧
    (s.len.toNat ≠ 0 → 16 < m → exec .cbcDec s = .next (raiseError .corruptPadding .padGtBs s)) ∧
    (s.len.toNat ≠ 0 → m ≠ 0 → m ≤ 16 → s.len.toNat < m →
      exec .cbcDec s = .next (raiseError .corruptPadding .padGtLen s)) ∧
    (m ≠ 0 → m ≤ 16 → m ≤ s.len.toNat → decode s.cmd = .command .cbcDec → ∃ t, exec .cbcDec s = .next t ∧
      t = { s with
        mem := t.mem, outLen := t.outLen, key := 0, keyLd := 0, iv := 0, ivLd := 0, riv := 0, blk := 0,
        busy := false, done := true, fsm := .idle } ∧
      t.outLen.toNat = s.len.toNat - m ∧
      (∀ a, outByte t a = if s.len.toNat - m ≤ a then 0 else outByte s a) ∧ onlyOutChanged s t)

/-- R108: padblock(k) is block k of pad(16, IN[0..n)), for every k below NB. -/
def Obligations.PadBlockIsBlockOfPaddedInput : Prop :=
  ∀ (s : State) (k : Nat), k < inCount s / 16 + 1 →
    padBlock s k = blockAt (pad 16 (inSeq s (inCount s))) k

/-- R111: while a CBC command runs, after k WAIT steps OUT[0..16k) holds the first k blocks the loop of R102 or R103
appends, and RIV holds that loop's R after k iterations. -/
def Obligations.CbcRunFollowsTheLoop : Prop :=
  ∀ (s : State) (i : Instr) (k : Nat) (rest : List Event), i = .cbcEnc ∨ i = .cbcDec → ReadyToRun i s →
    k < blockCount i (inCount s) → s.agenda = .controller :: (blocksTurns k ++ rest) →
    ∃ t, run (1 + 3 * k) s = .next t ∧
      t = { s with
        mem := t.mem, nb := t.nb, len := t.len, blkIdx := t.blkIdx, riv := t.riv, blk := t.blk, port := t.port,
        fsm := .load, agenda := rest } ∧
      t.blkIdx.toNat = k ∧ t.nb.toNat = blockCount i (inCount s) ∧ portFree t = true ∧
      (i = .cbcEnc →
        outSeq t (16 * k) =
          (cbcEncLoop Config.cipherPerm s.key s.iv (pad 16 (inSeq s (inCount s))) k).1 ∧
        t.riv = (cbcEncLoop Config.cipherPerm s.key s.iv (pad 16 (inSeq s (inCount s))) k).2) ∧
      (i = .cbcDec →
        outSeq t (16 * k) = (cbcDecLoop Config.cipherPerm s.key s.iv (inSeq s (inCount s)) k).1 ∧
        t.riv = (cbcDecLoop Config.cipherPerm s.key s.iv (inSeq s (inCount s)) k).2) ∧
      onlyOutChanged s t

/-- R104, R138: a CBC_ENC command on valid operands, the cipher failing no request, leaves cbc_enc(KEY, IV, P) in OUT and
consumes key and IV. -/
def Obligations.CbcEncCommandResult : Prop :=
  ∀ (s : State) (rest : List Event), ReadyToRun .cbcEnc s →
    s.agenda = commandTurns .cbcEnc (inCount s) ++ rest →
    ∃ t, run (commandTurns .cbcEnc (inCount s)).length s = .next t ∧
      t = { s with
        mem := t.mem, nb := t.nb, len := t.len, blkIdx := t.blkIdx, port := t.port, outLen := t.outLen, key := 0,
        keyLd := 0, iv := 0, ivLd := 0, riv := 0, blk := 0, busy := false, done := true, fsm := .idle,
        agenda := rest } ∧
      outHolds t (cbcEnc Config.cipherPerm s.key s.iv (inSeq s (inCount s))) ∧
      t.outLen.toNat = 16 * (inCount s / 16 + 1) ∧ t.blkIdx.toNat = inCount s / 16 + 1 ∧ portFree t = true ∧
      onlyOutChanged s t

/-- R105, R138: a CBC_DEC command on valid operands, the cipher failing no request, leaves the plaintext of
cbc_dec(KEY, IV, C) in OUT, or fails with CORRUPT_PADDING and its detail and OUT all 0; either way it consumes key and
IV. -/
def Obligations.CbcDecCommandResult : Prop :=
  ∀ (s : State) (rest : List Event), ReadyToRun .cbcDec s →
    s.agenda = commandTurns .cbcDec (inCount s) ++ rest →
    ∃ t, run (commandTurns .cbcDec (inCount s)).length s = .next t ∧
      t = { s with
        mem := t.mem, nb := t.nb, len := t.len, blkIdx := t.blkIdx, port := t.port, outLen := t.outLen,
        errCode := t.errCode, errDetail := t.errDetail, key := 0, keyLd := 0, iv := 0, ivLd := 0, riv := 0,
        blk := 0, busy := false, done := true, fsm := .idle, agenda := rest } ∧
      (∀ m, cbcDec Config.cipherPerm s.key s.iv (inSeq s (inCount s)) = .bytes m →
        outHolds t m ∧ t.errCode = .none ∧ t.errDetail = .none) ∧
      (∀ x, cbcDec Config.cipherPerm s.key s.iv (inSeq s (inCount s)) = .corruptPadding x →
        outHolds t [] ∧ t.errCode = .corruptPadding ∧ t.errDetail = x) ∧
      t.blkIdx.toNat = inCount s / 16 ∧ portFree t = true ∧ onlyOutChanged s t

/-- R89, R115, R117, R138: when the cipher fails the request of block k first, an ECB or CBC command ends with
PRIMITIVE_FAILURE after 1 + 2 (k + 1) controller steps; OUT is all 0, BLK_IDX is k, the key is consumed, and by a CBC
command the IV too; what the cipher drove on RSP_DATA does not matter. -/
def Obligations.CipherFailureAbortsTheCommand : Prop :=
  ∀ (s : State) (i : Instr) (k : Nat) (junk : Block) (rest : List Event),
    i = .ecbEnc ∨ i = .ecbDec ∨ i = .cbcEnc ∨ i = .cbcDec → ReadyToRun i s → k < blockCount i (inCount s) →
    s.agenda = failingTurns k junk ++ rest →
    ∃ t, run (failingTurns k junk).length s = .next t ∧
      t = { s with
        mem := t.mem, nb := t.nb, len := t.len, blkIdx := t.blkIdx, port := t.port, outLen := 0,
        errCode := .primitiveFailure, errDetail := .primFail, key := 0, keyLd := 0,
        iv := (if i = .cbcEnc ∨ i = .cbcDec then 0 else s.iv),
        ivLd := (if i = .cbcEnc ∨ i = .cbcDec then 0 else s.ivLd),
        riv := 0, blk := 0, busy := false, done := true, fsm := .idle, agenda := rest } ∧
      (∀ a, outByte t a = 0) ∧ t.blkIdx.toNat = k ∧ portFree t = true ∧ onlyOutChanged s t

/-- R112, R102: whatever the cipher, CBC decryption under the same key and IV undoes CBC encryption, for every byte
sequence; and two equal plaintext blocks that the loop of R102 XORs with different running IVs give different ciphertext
blocks. -/
def Obligations.CbcLaws : Prop :=
  ∀ (c : Block → Equiv.Perm Block) (k iv : Block),
    (∀ p : List Byte,
      (cbcEnc c k iv p).length = 16 * (p.length / 16 + 1) ∧ cbcDec c k iv (cbcEnc c k iv p) = .bytes p) ∧
    ∀ (b : List Byte) (i j : Nat),
      blockAt b i = blockAt b j → (cbcEncLoop c k iv b i).2 ≠ (cbcEncLoop c k iv b j).2 →
      (cbcEncLoop c k iv b (i + 1)).2 ≠ (cbcEncLoop c k iv b (j + 1)).2 ∧
        blockAt (cbcEncLoop c k iv b (i + 1)).1 i ≠ blockAt (cbcEncLoop c k iv b (j + 1)).1 j

/-- R138, R94 (sanity): the numbers of controller and cipher turns in `commandTurns`, the schedule of the command result
statements above. -/
def Obligations.CommandTurnCounts : Prop :=
  ∀ n : Nat,
    (commandTurns .pad n).count .controller = 2 ∧ (commandTurns .pad n).count (.cipher .ok) = 0 ∧
    (commandTurns .unpad n).count .controller = 3 ∧ (commandTurns .unpad n).count (.cipher .ok) = 0 ∧
    (commandTurns .ecbEnc n).count .controller = 1 + 2 * (n / 16) ∧
    (commandTurns .ecbEnc n).count (.cipher .ok) = n / 16 ∧
    (commandTurns .ecbDec n).count .controller = 1 + 2 * (n / 16) ∧
    (commandTurns .ecbDec n).count (.cipher .ok) = n / 16 ∧
    (commandTurns .cbcEnc n).count .controller = 1 + 2 * (n / 16 + 1) ∧
    (commandTurns .cbcEnc n).count (.cipher .ok) = n / 16 + 1 ∧
    (commandTurns .cbcDec n).count .controller = 2 + 2 * (n / 16) ∧
    (commandTurns .cbcDec n).count (.cipher .ok) = n / 16

/-! ## The cipher -/

/-- R88: the cipher's step. With a request and no response waiting it answers Enc or Dec of the request's key and data, or
fails the request with any value. -/
def Obligations.CipherStepAnswersTheRequest : Prop :=
  ∀ s : State,
    s.port.reqValid = true → s.port.rspValid = false →
      (s.port.reqDir = .encrypt → takeTurn (.cipher .ok) s = .next
        { s with port := { s.port with
            rspData := Config.cipherPerm s.port.reqKey s.port.reqData, rspFail := false, rspValid := true,
            reqValid := false } }) ∧
      (s.port.reqDir = .decrypt → takeTurn (.cipher .ok) s = .next
        { s with port := { s.port with
            rspData := (Config.cipherPerm s.port.reqKey).symm s.port.reqData, rspFail := false, rspValid := true,
            reqValid := false } }) ∧
      ∀ junk : Block, takeTurn (.cipher (.fail junk)) s = .next
        { s with port := { s.port with rspData := junk, rspFail := true, rspValid := true, reqValid := false } }

/-- A turn of the controller or the cipher that has no enabled step changes nothing: the model's choice (log 8) for the
enabling conditions of R40, R88, R99, R100, R107 and R109. The controller has none in IDLE, in LOAD with the port not free
and in WAIT with no response; the cipher none without a request or with a response waiting. -/
def Obligations.TurnsWithoutAStepChangeNothing : Prop :=
  ∀ s : State,
    (s.fsm = .idle → takeTurn .controller s = .next s) ∧
    (∀ i, i = .ecbEnc ∨ i = .ecbDec ∨ i = .cbcEnc ∨ i = .cbcDec →
      (s.fsm = .load → s.port.reqValid = true ∨ s.port.rspValid = true → exec i s = .next s) ∧
      (s.fsm = .wait → s.port.rspValid = false → exec i s = .next s)) ∧
    (s.port.reqValid = false ∨ s.port.rspValid = true → ∀ d, takeTurn (.cipher d) s = .next s)

/-- R92: a cipher that does not answer leaves the controller in WAIT with BUSY = 1 for ever (a controller turn there changes
nothing, log 8): no run of controller turns and
host accesses within the contract that are no soft reset leaves that state. -/
def Obligations.OnlyTheCipherOrAResetLeavesWait : Prop :=
  ∀ (s : State) (turns : List Event), s.fsm = .wait → s.busy = true → s.port.rspValid = false → s.agenda = turns →
    (∀ e ∈ turns, e = .controller ∨ isPlainAccess s.params e = true) →
    ∃ t, run turns.length s = .next t ∧ t.fsm = .wait ∧ t.busy = true ∧ t.port = s.port ∧ t.mem = s.mem ∧
      t.key = s.key ∧ t.riv = s.riv

/-! ## Completion -/

/-- R116, R118: the success procedure, field by field. -/
def Obligations.SuccessProcedure : Prop :=
  ∀ (s : State) (l : Nat), l ≤ s.params.outBytes → s.params.wf = true →
    ∃ t, finish l s = t ∧
      t = { s with
        mem := t.mem, outLen := t.outLen,
        key := (if decode s.cmd = .command .ecbEnc ∨ decode s.cmd = .command .ecbDec ∨
          decode s.cmd = .command .cbcEnc ∨ decode s.cmd = .command .cbcDec then 0 else s.key),
        keyLd := (if decode s.cmd = .command .ecbEnc ∨ decode s.cmd = .command .ecbDec ∨
          decode s.cmd = .command .cbcEnc ∨ decode s.cmd = .command .cbcDec then 0 else s.keyLd),
        iv := (if decode s.cmd = .command .cbcEnc ∨ decode s.cmd = .command .cbcDec then 0 else s.iv),
        ivLd := (if decode s.cmd = .command .cbcEnc ∨ decode s.cmd = .command .cbcDec then 0 else s.ivLd),
        riv := 0, blk := 0, busy := false, done := true, fsm := .idle } ∧
      t.outLen.toNat = l ∧ (∀ i, outByte t i = if l ≤ i then 0 else outByte s i) ∧ onlyOutChanged s t

/-- R117, R118: the failure procedure, field by field. -/
def Obligations.FailureProcedure : Prop :=
  ∀ (s : State) (code : ErrCode) (detail : ErrDetail),
    ∃ t, raiseError code detail s = t ∧
      t = { s with
        mem := t.mem, outLen := 0, errCode := code, errDetail := detail, port := { s.port with rspValid := false },
        key := (if decode s.cmd = .command .ecbEnc ∨ decode s.cmd = .command .ecbDec ∨
          decode s.cmd = .command .cbcEnc ∨ decode s.cmd = .command .cbcDec then 0 else s.key),
        keyLd := (if decode s.cmd = .command .ecbEnc ∨ decode s.cmd = .command .ecbDec ∨
          decode s.cmd = .command .cbcEnc ∨ decode s.cmd = .command .cbcDec then 0 else s.keyLd),
        iv := (if decode s.cmd = .command .cbcEnc ∨ decode s.cmd = .command .cbcDec then 0 else s.iv),
        ivLd := (if decode s.cmd = .command .cbcEnc ∨ decode s.cmd = .command .cbcDec then 0 else s.ivLd),
        riv := 0, blk := 0, busy := false, done := true, fsm := .idle } ∧
      (∀ i, outByte t i = 0) ∧ onlyOutChanged s t

/-- R35, R118: whatever the outcome, the step that completes a command consumes the key of an ECB or CBC command and the IV
of a CBC command; a PAD, UNPAD or illegal command leaves KEY, IV and LOADED as they are. -/
def Obligations.CompletionConsumesKeyAndIv : Prop :=
  ∀ s t : State, Inv s → step s = .next t → s.busy = true → t.busy = false → t.done = true →
    t.riv = 0 ∧ t.blk = 0 ∧
    (decode s.cmd = .command .ecbEnc ∨ decode s.cmd = .command .ecbDec →
      t.key = 0 ∧ t.keyLd = 0 ∧ t.iv = s.iv ∧ t.ivLd = s.ivLd) ∧
    (decode s.cmd = .command .cbcEnc ∨ decode s.cmd = .command .cbcDec →
      t.key = 0 ∧ t.keyLd = 0 ∧ t.iv = 0 ∧ t.ivLd = 0) ∧
    (decode s.cmd = .command .pad ∨ decode s.cmd = .command .unpad ∨ (∃ r, decode s.cmd = .illegal r) →
      t.key = s.key ∧ t.keyLd = s.keyLd ∧ t.iv = s.iv ∧ t.ivLd = s.ivLd)

/-! ## The host interface -/

/-- R70, R71, R37: a host write to CMD while BUSY = 0 accepts the word, whatever it is, and does exactly what the rule
lists, dropping the interrupt line; while BUSY = 1 it only sets CIGN. -/
def Obligations.CommandWrite : Prop :=
  ∀ (s : State) (w : Word),
    (s.busy = false → ∃ t, hostAccess (wordAccess s.params 0x00C (.write w)) s = .next t ∧
      t = { s with
        cmd := w, opc := w.extractLsb' 0 4, busy := true, done := false, errCode := .none, errDetail := .none,
        outLen := 0, blkIdx := 0, fsm := .validate } ∧
      irq t = false) ∧
    (s.busy = true → hostAccess (wordAccess s.params 0x00C (.write w)) s = .next { s with cign := true })

/-- R36: a write to an input register or to IN while BUSY = 1 only sets WIGN; while BUSY = 0 it takes effect and leaves
WIGN unchanged. -/
def Obligations.InputWriteGate : Prop :=
  ∀ (s : State) (off : Nat) (v : Word), s.params.wf = true → Memory.wf s.mem →
    (off = 0x010 ∨ off = 0x014 ∨ (∃ i : Fin 4, off = 0x030 + 4 * i.val ∨ off = 0x040 + 4 * i.val) ∨
      (0x10000 ≤ off ∧ off < 0x10000 + s.params.bufBytes ∧ off % 4 = 0)) →
    (s.busy = true → hostAccess (wordAccess s.params off (.write v)) s = .next { s with wign := true }) ∧
    (s.busy = false → ∃ t, hostAccess (wordAccess s.params off (.write v)) s = .next t ∧ t.wign = s.wign ∧
      (off = 0x010 → t.padBs = v.extractLsb' 0 8) ∧ (off = 0x014 → t.inLen = v) ∧
      (∀ i : Fin 4, off = 0x030 + 4 * i.val →
        t.keyLd.getLsbD i.val = true ∧ ∀ j < 4, blockByte t.key (4 * i.val + j) = wordByte v j) ∧
      (∀ i : Fin 4, off = 0x040 + 4 * i.val →
        t.ivLd.getLsbD i.val = true ∧ ∀ j < 4, blockByte t.iv (4 * i.val + j) = wordByte v j) ∧
      (0x10000 ≤ off → ∀ j < 4, inByte t (off - 0x10000 + j) = wordByte v j))

/-- R27, R28: while BUSY = 0 a write to PAD_BS stores bits [7:0], a write to IN_LEN stores all 32 bits, and nothing else
changes; what is stored reads back. -/
def Obligations.PadBsAndInLenWrites : Prop :=
  ∀ (s : State) (v : Word), s.busy = false →
    (∃ t, hostAccess (wordAccess s.params 0x010 (.write v)) s = .next t ∧
      t = { s with padBs := v.extractLsb' 0 8 } ∧ (busValue 0x010 t).toNat = v.toNat % 256) ∧
    (∃ t, hostAccess (wordAccess s.params 0x014 (.write v)) s = .next t ∧
      t = { s with inLen := v } ∧ busValue 0x014 t = v)

/-- R33, R34: while BUSY = 0 a write to KEYi or IVi replaces the four bytes 4i to 4i + 3, sets its LOADED bit, and changes
nothing else; the register reads 0. -/
def Obligations.KeyAndIvWrites : Prop :=
  ∀ (s : State) (i : Fin 4) (v : Word), s.busy = false →
    (∃ t, hostAccess (wordAccess s.params (0x030 + 4 * i.val) (.write v)) s = .next t ∧
      t = { s with key := t.key, keyLd := t.keyLd } ∧
      (∀ j < 16, blockByte t.key j = if j / 4 = i.val then wordByte v (j % 4) else blockByte s.key j) ∧
      (∀ j < 4, t.keyLd.getLsbD j = (decide (j = i.val) || s.keyLd.getLsbD j)) ∧
      busValue (0x030 + 4 * i.val) t = 0) ∧
    (∃ t, hostAccess (wordAccess s.params (0x040 + 4 * i.val) (.write v)) s = .next t ∧
      t = { s with iv := t.iv, ivLd := t.ivLd } ∧
      (∀ j < 16, blockByte t.iv j = if j / 4 = i.val then wordByte v (j % 4) else blockByte s.iv j) ∧
      (∀ j < 4, t.ivLd.getLsbD j = (decide (j = i.val) || s.ivLd.getLsbD j)) ∧
      busValue (0x040 + 4 * i.val) t = 0)

/-- R47, R53: while BUSY = 0 a write to a word of the IN window stores its four bytes, the lowest index from the least
significant bits, changes nothing else, and reads back. -/
def Obligations.InWindowWriteReadsBack : Prop :=
  ∀ (s : State) (m : Nat) (v : Word), s.busy = false → s.params.wf = true → Memory.wf s.mem →
    4 * m < s.params.bufBytes →
    ∃ t, hostAccess (wordAccess s.params (0x10000 + 4 * m) (.write v)) s = .next t ∧
      t = { s with mem := t.mem } ∧
      (∀ a, readByte t.mem a =
        if 0x10000 + 4 * m ≤ a ∧ a < 0x10000 + 4 * m + 4 then wordByte v (a - (0x10000 + 4 * m))
        else readByte s.mem a) ∧
      busValue (0x10000 + 4 * m) t = v

/-- R48: a word of a buffer window past the capacity reads 0 and ignores writes, with no flag set. -/
def Obligations.WordsPastTheCapacity : Prop :=
  ∀ (s : State) (m : Nat) (v : Word), s.params.wf = true → m < 0x4000 →
    (s.params.bufBytes ≤ 4 * m → busValue (0x10000 + 4 * m) s = 0 ∧
      hostAccess (wordAccess s.params (0x10000 + 4 * m) (.write v)) s = .next s) ∧
    (s.params.bufBytes + 256 ≤ 4 * m → busValue (0x20000 + 4 * m) s = 0 ∧
      hostAccess (wordAccess s.params (0x20000 + 4 * m) (.write v)) s = .next s)

/-- R17, R46, R49, R53: the read-only registers, the OUT window and the reserved offsets ignore writes and set no flag;
reserved offsets read 0. -/
def Obligations.ReadOnlyAndReservedOffsetsIgnoreWrites : Prop :=
  ∀ (s : State) (off : Nat) (v : Word), off % 4 = 0 →
    (off = 0x000 ∨ off = 0x018 ∨ off = 0x01C ∨ off = 0x020 ∨ off = 0x024 ∨ (0x20000 ≤ off ∧ off < 0x30000) →
      hostAccess (wordAccess s.params off (.write v)) s = .next s) ∧
    (off = 0x028 ∨ off = 0x02C ∨ (0x050 ≤ off ∧ off < 0x10000) ∨ (0x30000 ≤ off ∧ off < 0x40000) →
      busValue off s = 0 ∧ hostAccess (wordAccess s.params off (.write v)) s = .next s)

/-- R19: a write to CTRL with SRST = 0 stores IE and nothing else, whether or not a command runs, and CTRL reads back as
IE alone. -/
def Obligations.CtrlWriteStoresTheInterruptEnable : Prop :=
  ∀ (s : State) (v : Word), v.getLsbD 1 = false →
    ∃ t, hostAccess (wordAccess s.params 0x004 (.write v)) s = .next t ∧ t = { s with ie := v.getLsbD 0 } ∧
      busValue 0x004 t = (if v.getLsbD 0 then 1 else 0) ∧ irq t = (v.getLsbD 0 && s.done)

/-- R21: a write to STATUS clears DONE, WIGN and CIGN where the written bits 1, 3 and 4 are 1, and changes nothing else. -/
def Obligations.StatusWriteClearsFlags : Prop :=
  ∀ (s : State) (v : Word),
    hostAccess (wordAccess s.params 0x008 (.write v)) s = .next
      { s with
        done := (if v.getLsbD 1 = true then false else s.done),
        wign := (if v.getLsbD 3 = true then false else s.wign),
        cign := (if v.getLsbD 4 = true then false else s.cign) }

/-- R20, R22, R40, R113, R114: the fields of the word a read of STATUS returns, at their positions and with the numbers of
the controller states, the error codes and the details; every reserved bit is 0. -/
def Obligations.StatusReadLayout : Prop :=
  ∀ s : State,
    (busValue 0x008 s).toNat =
      (if s.busy then 1 else 0) + (if s.done then 2 else 0) + (if s.errCode = .none then 0 else 4) +
        (if s.wign then 8 else 0) + (if s.cign then 16 else 0) +
        0x100 * (match s.errCode with
          | .none => 0 | .invalidParameter => 1 | .corruptPadding => 2 | .primitiveFailure => 3
          | .illegalCommand => 4) +
        0x10000 * (match s.errDetail with
          | .none => 0 | .badOpcode => 1 | .rsvdBits => 2 | .keyLen => 3 | .ivLen => 4 | .zeroBs => 5 | .lenRange => 6
          | .unaligned => 7 | .empty => 8 | .padZero => 9 | .padGtBs => 10 | .padGtLen => 11 | .primFail => 12) +
        0x1000000 * (match s.fsm with
          | .idle => 0 | .validate => 1 | .load => 2 | .wait => 3 | .copy => 4 | .check => 5)

/-- R17 to R34: the value a host read of each register returns. -/
def Obligations.RegisterReads : Prop :=
  ∀ s : State, s.params.wf = true →
    busValue 0x000 s = 0x43424301 ∧ busValue 0x004 s = (if s.ie then 1 else 0) ∧ busValue 0x00C s = s.cmd ∧
    (busValue 0x010 s).toNat = s.padBs.toNat ∧ busValue 0x014 s = s.inLen ∧ busValue 0x018 s = s.outLen ∧
    busValue 0x01C s = s.blkIdx ∧ (busValue 0x020 s).toNat = s.keyLd.toNat + 16 * s.ivLd.toNat ∧
    (busValue 0x024 s).toNat = s.params.bufBytes ∧
    ∀ i : Fin 4, busValue (0x030 + 4 * i.val) s = 0 ∧ busValue (0x040 + 4 * i.val) s = 0

/-- R51, R52, R47, R48: a host read of any word of the window is one step that changes no state of the device, its value
appearing on the host's side (log 7). The IN window returns the word of its four bytes whatever BUSY is; the OUT window
returns 0 while BUSY = 1, else the word of its four bytes. No read depends on the key, the IV, RIV, BLK or the port. -/
def Obligations.HostRead : Prop :=
  ∀ s : State, s.params.wf = true →
    (∀ off, off % 4 = 0 → off < 0x40000 →
      hostAccess (wordAccess s.params off .read) s = .next { s with readData := busValue off s } ∧
      ∀ (key iv riv blk : Block) (port : CipherPort),
        busValue off { s with key := key, iv := iv, riv := riv, blk := blk, port := port } = busValue off s) ∧
    (∀ m, 4 * m < s.params.bufBytes → ∀ j < 4,
      wordByte (busValue (0x10000 + 4 * m) s) j = readByte s.mem (0x10000 + 4 * m + j)) ∧
    ∀ m, 4 * m < s.params.bufBytes + 256 →
      (s.busy = true → busValue (0x20000 + 4 * m) s = 0) ∧
      (s.busy = false → ∀ j < 4,
        wordByte (busValue (0x20000 + 4 * m) s) j = readByte s.mem (0x20000 + 4 * m + j))

/-- R50: an access of another width, outside the window, at an offset that is not a multiple of 4 or with only some bytes
enabled is refused, and every other access is a step. -/
def Obligations.OnlyContractAccessesAreSteps : Prop :=
  ∀ (s : State) (a : Access),
    ((∃ t, hostAccess a s = .next t) ↔
      (a.width = 4 ∧ s.params.regBase ≤ a.addr ∧ a.addr < s.params.regBase + 0x40000 ∧
        (a.addr - s.params.regBase) % 4 = 0 ∧ a.lanes = 0xF)) ∧
    ((∃ r, hostAccess a s = .refused r) ↔
      ¬(a.width = 4 ∧ s.params.regBase ≤ a.addr ∧ a.addr < s.params.regBase + 0x40000 ∧
        (a.addr - s.params.regBase) % 4 = 0 ∧ a.lanes = 0xF))

/-- R74, R33, R34, R47: the pseudo-instructions LOADKEY, LOADIV and LOADIN on an idle device. LOADKEY and LOADIV load the
block and all four LOADED bits in four host steps and change nothing else; LOADIN puts the bytes in IN from IN[0] up and
their number in IN_LEN, writes 0 to the bytes of the last word past them, and leaves every byte outside its words. -/
def Obligations.LoadLines : Prop :=
  ∀ (s : State) (rest : List Event), s.busy = false →
    (∀ b : Block, s.agenda = expandLine s.params (.loadKey b) ++ rest →
      run 4 s = .next { s with key := b, keyLd := 0xF, agenda := rest }) ∧
    (∀ b : Block, s.agenda = expandLine s.params (.loadIv b) ++ rest →
      run 4 s = .next { s with iv := b, ivLd := 0xF, agenda := rest }) ∧
    ∀ d : List Byte, s.params.wf = true → Memory.wf s.mem → d.length ≤ s.params.bufBytes →
      s.agenda = expandLine s.params (.loadIn d) ++ rest →
      ∃ t, run (expandLine s.params (.loadIn d)).length s = .next t ∧
        t = { s with mem := t.mem, inLen := t.inLen, agenda := rest } ∧ inCount t = d.length ∧
        inSeq t d.length = d ∧
        (∀ a, 0x10000 + d.length ≤ a → a < 0x10000 + 4 * ((d.length + 3) / 4) → readByte t.mem a = 0) ∧
        ∀ a, ¬(0x10000 ≤ a ∧ a < 0x10000 + 4 * ((d.length + 3) / 4)) → readByte t.mem a = readByte s.mem a

/-! ## Reset -/

/-- R129, R130: the reset input, and a write to CTRL with SRST = 1 whatever its other bits and whether or not a command
runs, put every piece of the device's state at its reset value; the parameters and the host's own side stay (log 4). -/
def Obligations.ResetPutsEverythingAtItsResetValue : Prop :=
  ∀ s : State,
    ∃ t : State,
      t = { s with
        ie := false, busy := false, done := false, wign := false, cign := false, errCode := .none,
        errDetail := .none, cmd := 0, padBs := 0x10, inLen := 0, outLen := 0, blkIdx := 0, keyLd := 0, ivLd := 0,
        fsm := .idle, opc := 0, nb := 0, len := 0, key := 0, iv := 0, riv := 0, blk := 0, mem := t.mem,
        port := { reqValid := false, reqDir := .encrypt, reqKey := 0, reqData := 0, rspValid := false,
                  rspData := 0, rspFail := false } } ∧
      (∀ a, readByte t.mem a = 0) ∧ irq t = false ∧ takeTurn .hardReset s = .next t ∧
      ∀ v : Word, v.getLsbD 1 = true → hostAccess (wordAccess s.params 0x004 (.write v)) s = .next t

/-! ## Whole-machine rules -/

/-- The invariant holds at reset (R44, R129); the legal parameters of the reset state are the model's choice (logs 1, 2). -/
def Obligations.ResetMeetsTheInvariant : Prop := Inv State.reset

/-- The invariant of the machine is kept by every step, from every state that meets it: the memory stays in canonical form
within IN and OUT (R47, R56, R57); BUSY, DONE and the error fields fit the controller state (R25, R40, R114); the cipher
port holds at most one request, stable until its answer (R90); a command past VALIDATE runs on checked operands (R73);
an idle device shows exactly the result and holds no running IV (R42, R43, R119). -/
def Obligations.StepKeepsTheInvariant : Prop :=
  ∀ s t : State, Inv s → step s = .next t → Inv t

/-- R23, R36, R37: who sets and who clears each flag, in both directions and by the turn that does it. BUSY rises only by an
acceptance and falls only by a completion or a reset. DONE rises only by a completion and falls only by a write of STATUS
with bit 1 = 1, an acceptance or a reset. WIGN rises only by a write to an input while BUSY = 1, CIGN only by a write to CMD
while BUSY = 1; they fall only by a write of STATUS with bit 3 or bit 4 = 1 or a reset. ERR_CODE and ERR_DETAIL change only
by an acceptance or a reset, to 0, and by a completion with a failure. -/
def Obligations.FlagSettersAreComplete : Prop :=
  ∀ s t : State, Inv s → step s = .next t →
    (s.busy = false → t.busy = true → acceptsNow s ∧ t.fsm = .validate) ∧
    (s.busy = true → t.busy = false → completesTo s t ∨ resetsNow s) ∧
    (s.done = false → t.done = true → completesTo s t) ∧
    (s.done = true → t.done = false →
      (∃ v, writesNow s 0x008 v ∧ v.getLsbD 1 = true) ∨ acceptsNow s ∨ resetsNow s) ∧
    (s.wign = false → t.wign = true →
      s.busy = true ∧ ∃ off v, writesNow s off v ∧ isInputOffset s.params off = true) ∧
    (s.wign = true → t.wign = false → (∃ v, writesNow s 0x008 v ∧ v.getLsbD 3 = true) ∨ resetsNow s) ∧
    (s.cign = false → t.cign = true → s.busy = true ∧ ∃ v, writesNow s 0x00C v) ∧
    (s.cign = true → t.cign = false → (∃ v, writesNow s 0x008 v ∧ v.getLsbD 4 = true) ∨ resetsNow s) ∧
    (t.errCode ≠ s.errCode ∨ t.errDetail ≠ s.errDetail →
      ((acceptsNow s ∨ resetsNow s) ∧ t.errCode = .none ∧ t.errDetail = .none) ∨
      (completesTo s t ∧ t.errCode ≠ .none))

/-- R121: the interrupt line rises only in the step that completes a command, or in the step that sets CTRL.IE while
DONE = 1. -/
def Obligations.InterruptRisesOnlyAtCompletion : Prop :=
  ∀ s t : State, Inv s → step s = .next t → irq s = false → irq t = true →
    (s.busy = true ∧ t.busy = false ∧ t.fsm = .idle ∧ t.done = true ∧ t.ie = s.ie) ∨
    (s.done = true ∧ s.ie = false ∧ t.ie = true ∧ t = { s with ie := true, agenda := t.agenda })

/-- R59, R56: while a command runs, no step changes its inputs: PAD_BS, IN_LEN, IN, the key, the IV, LOADED and CMD stay
until the step that completes or resets. -/
def Obligations.InputsAreFixedWhileBusy : Prop :=
  ∀ s t : State, s.params.wf = true → Memory.wf s.mem → s.busy = true → step s = .next t → t.busy = true →
    sameInputs s t ∧ t.key = s.key ∧ t.iv = s.iv ∧ t.keyLd = s.keyLd ∧ t.ivLd = s.ivLd ∧ t.cmd = s.cmd ∧
      t.opc = s.opc

/-- R59: host accesses that are no soft reset, interleaved in any way with the turns of a running command, change nothing
of it. As long as the command still runs, its state is that of the device turns alone, but for CTRL.IE, WIGN, CIGN and the
host's own side; and so it is after one more device turn, which may be the one that completes the command, so that its
whole result is that of the device turns alone. -/
def Obligations.InterleavedHostAccessesDoNotMatter : Prop :=
  ∀ (s u : State) (turns : List Event), s.busy = true → s.done = false →
    (∀ e ∈ turns, isDeviceTurn e = true ∨ isPlainAccess s.params e = true) →
    run (turns.filter isDeviceTurn).length { s with agenda := turns.filter isDeviceTurn } = .next u →
    u.busy = true →
    (∃ t, run turns.length { s with agenda := turns } = .next t ∧ commandView t = commandView u) ∧
    ∀ last : Event, isDeviceTurn last = true →
      ∃ t v,
        run ((turns.filter isDeviceTurn).length + 1) { s with agenda := turns.filter isDeviceTurn ++ [last] } =
          .next v ∧
        run (turns.length + 1) { s with agenda := turns ++ [last] } = .next t ∧ commandView t = commandView v

/-- R92, R117, R138: a running command always completes, whatever the cipher's draws, when the device runs on by itself
(log 3, log 6): within 3 (n div 16 + 1) + 2 steps of controller and cipher together. -/
def Obligations.EveryCommandCompletes : Prop :=
  ∀ s : State, Inv s → s.agenda = [] → s.busy = true →
    ∃ (k : Nat) (t : State), k ≤ 3 * (inCount s / 16 + 1) + 2 ∧ run k s = .next t ∧ t.busy = false ∧
      t.done = true ∧ t.fsm = .idle

/-- R74, R92, R133: a POLL loop ends, at a read of STATUS with bit 0 = 0, and the host program goes on. That the device
moves once between two failing polls, and that the cipher answers it, is the model's choice (logs 3, 6, 16). -/
def Obligations.PollEndsWhenTheCommandIsDone : Prop :=
  ∀ (s : State) (rest : List Event), Inv s → s.agenda = .poll :: rest →
    ∃ (k : Nat) (t : State), run k s = .next t ∧ t.agenda = rest ∧ t.busy = false ∧
      t.readData.getLsbD 0 = false ∧ (s.busy = true → t.done = true)

/-- R6, R18, R32: no step changes the parameters, so ID and CAP read as constants. -/
def Obligations.ParametersNeverChange : Prop :=
  ∀ s t : State, step s = .next t →
    t.params = s.params ∧ busValue 0x000 t = busValue 0x000 s ∧ busValue 0x024 t = busValue 0x024 s
end

