-- ==== Sys2Proof/Laws/Bytes.lean ====
section
/-! SUPPORT. Laws of the byte order (20_memory.md R47, 41_cipher_port.md R86): a word or a block is the sequence of its
bytes. -/

namespace Sys2Proof.Machine

theorem extract_append_high {v : Nat} (x : BitVec v) (b : Byte) (i : Nat) :
    BitVec.extractLsb' (8 * (i + 1)) 8 (x ++ b) = BitVec.extractLsb' (8 * i) 8 x := by
  rw [BitVec.extractLsb'_append_eq_of_le (by omega)]; congr 1

theorem extract_append_low {v : Nat} (x : BitVec v) (b : Byte) : BitVec.extractLsb' (8 * 0) 8 (x ++ b) = b := by
  rw [BitVec.extractLsb'_append_eq_of_add_le (by omega)]; simp

theorem extract_whole_byte (b : Byte) : BitVec.extractLsb' (8 * 0) 8 b = b := by simp

theorem blockByte_blockOfFn (f : Nat → Byte) {i : Nat} (h : i < 16) : blockByte (blockOfFn f) i = f i := by
  interval_cases i <;> unfold blockByte blockOfFn
  all_goals
    repeat refine (extract_append_high _ _ _).trans ?_
    first | exact extract_append_low _ _ | exact extract_whole_byte _

theorem wordByte_wordOfFn (f : Nat → Byte) {j : Nat} (h : j < 4) : wordByte (wordOfFn f) j = f j := by
  interval_cases j <;> unfold wordByte wordOfFn
  all_goals
    repeat refine (extract_append_high _ _ _).trans ?_
    first | exact extract_append_low _ _ | exact extract_whole_byte _

theorem eq_of_extract_bytes {n w : Nat} {a b : BitVec w} (hw : w = 8 * n)
    (h : ∀ i < n, BitVec.extractLsb' (8 * i) 8 a = BitVec.extractLsb' (8 * i) 8 b) : a = b := by
  apply BitVec.eq_of_getLsbD_eq
  intro k hk
  have hb := congrArg (fun x : Byte => x.getLsbD (k % 8)) (h (k / 8) (by omega))
  simp only [BitVec.getLsbD_extractLsb'] at hb
  rw [show 8 * (k / 8) + k % 8 = k by omega] at hb
  simpa [show k % 8 < 8 by omega] using hb

/-- Two blocks with the same bytes are the same block. -/
theorem block_ext {a b : Block} (h : ∀ i < 16, blockByte a i = blockByte b i) : a = b :=
  eq_of_extract_bytes (n := 16) rfl h

/-- Two words with the same bytes are the same word. -/
theorem word_ext {a b : Word} (h : ∀ j < 4, wordByte a j = wordByte b j) : a = b :=
  eq_of_extract_bytes (n := 4) rfl h

theorem blockOfFn_congr {f g : Nat → Byte} (h : ∀ i < 16, f i = g i) : blockOfFn f = blockOfFn g :=
  block_ext fun i hi => by rw [blockByte_blockOfFn f hi, blockByte_blockOfFn g hi, h i hi]

theorem wordOfFn_congr {f g : Nat → Byte} (h : ∀ j < 4, f j = g j) : wordOfFn f = wordOfFn g :=
  word_ext fun j hj => by rw [wordByte_wordOfFn f hj, wordByte_wordOfFn g hj, h j hj]

@[simp] theorem blockOfFn_blockByte (b : Block) : blockOfFn (blockByte b) = b :=
  block_ext fun _ hi => blockByte_blockOfFn _ hi

@[simp] theorem wordOfFn_wordByte (w : Word) : wordOfFn (wordByte w) = w :=
  word_ext fun _ hj => wordByte_wordOfFn _ hj

@[simp] theorem blockByte_xor (a b : Block) (i : Nat) : blockByte (a ^^^ b) i = blockByte a i ^^^ blockByte b i := by
  simp [blockByte, BitVec.extractLsb'_xor]

@[simp] theorem blockByte_zero (i : Nat) : blockByte 0 i = 0 := by simp [blockByte]

theorem blockByte_setBlockWord (b : Block) (i : Nat) (v : Word) {j : Nat} (hj : j < 16) :
    blockByte (setBlockWord b i v) j = if j / 4 = i then wordByte v (j % 4) else blockByte b j :=
  blockByte_blockOfFn _ hj

@[simp] theorem length_blockBytes (b : Block) : (blockBytes b).length = 16 := by simp [blockBytes]

theorem getD_blockBytes (b : Block) {i : Nat} (h : i < 16) (x : Byte) : (blockBytes b).getD i x = blockByte b i := by
  simp [blockBytes, List.getD_eq_getElem?_getD, List.getElem?_range h]

@[simp] theorem blockOfBytes_blockBytes (b : Block) : blockOfBytes (blockBytes b) = b :=
  block_ext fun i hi => by rw [blockOfBytes, blockByte_blockOfFn _ hi, getD_blockBytes b hi]

theorem blockBytes_blockOfBytes {d : List Byte} (h : d.length = 16) : blockBytes (blockOfBytes d) = d := by
  apply List.ext_getElem (by simp [h])
  intro i h1 h2
  have hi : i < 16 := by simpa using h1
  simp [blockBytes, blockOfBytes, blockByte_blockOfFn _ hi, List.getD_eq_getElem?_getD, h2]

end Sys2Proof.Machine
end

