-- ==== Sys2Proof/Laws/Memory.lean ====
section
/-! SUPPORT. Laws of memory (20_memory.md R47): what each operation makes a byte read as, that every operation keeps the
canonical form and the bounds, and that equal readings are equal data. -/

namespace Sys2Proof.Machine

@[simp] theorem readByte_nil (a : Nat) : readByte [] a = Config.unlistedByte := rfl

theorem readByte_cons (c : Host.Cell) (m : Memory) (a : Nat) :
    readByte (c :: m) a = if c.1 = a then c.2 else readByte m a := rfl

theorem readByte_of_forall_lt {m : Memory} {a : Nat} (h : ∀ c ∈ m, a < c.1) : readByte m a = Config.unlistedByte := by
  induction m with
  | nil => rfl
  | cons c m ih =>
    have hc := h c (by simp)
    rw [readByte_cons, if_neg (show ¬c.1 = a by omega)]
    exact ih fun d hd => h d (by simp [hd])

theorem Memory.wf_nil : Memory.wf [] := by simp [Memory.wf]

theorem Memory.wf_cons {c : Host.Cell} {m : Memory} :
    Memory.wf (c :: m) ↔ (∀ d ∈ m, c.1 < d.1) ∧ c.2 ≠ Config.unlistedByte ∧ Memory.wf m := by
  simp only [Memory.wf, List.pairwise_cons, List.mem_cons, forall_eq_or_imp]
  tauto

theorem writeByte_cons (c : Host.Cell) (m : Memory) (a : Nat) (b : Byte) :
    writeByte (c :: m) a b =
      if c.1 < a then c :: writeByte m a b
      else if b = Config.unlistedByte then (if c.1 = a then m else c :: m)
      else (a, b) :: (if c.1 = a then m else c :: m) := rfl

/-- Every entry of a written memory was there before or is the written byte. -/
theorem mem_writeByte {m : Memory} {a : Nat} {b : Byte} {c : Host.Cell} (h : c ∈ writeByte m a b) :
    c ∈ m ∨ (c = (a, b) ∧ b ≠ Config.unlistedByte) := by
  induction m with
  | nil =>
    unfold writeByte at h
    split at h
    · simp at h
    · exact .inr ⟨by simpa using h, ‹_›⟩
  | cons d m ih =>
    rw [writeByte_cons] at h
    have hafter : c ∈ (if d.1 = a then m else d :: m) → c ∈ d :: m := by
      split
      · exact List.mem_cons_of_mem d
      · exact id
    split at h
    · rcases List.mem_cons.1 h with rfl | h
      · exact .inl (by simp)
      · exact (ih h).imp (List.mem_cons_of_mem d) id
    · split at h
      · exact .inl (hafter h)
      · rcases List.mem_cons.1 h with rfl | h
        · exact .inr ⟨rfl, ‹_›⟩
        · exact .inl (hafter h)

theorem writeByte_wf {m : Memory} (hm : Memory.wf m) (a : Nat) (b : Byte) : Memory.wf (writeByte m a b) := by
  induction m with
  | nil =>
    unfold writeByte
    split
    · exact Memory.wf_nil
    · exact Memory.wf_cons.2 ⟨by simp, ‹_›, Memory.wf_nil⟩
  | cons c m ih =>
    obtain ⟨hlt, hc, hw⟩ := Memory.wf_cons.1 hm
    rw [writeByte_cons]
    have hafter : Memory.wf (if c.1 = a then m else c :: m) := by split <;> assumption
    split
    · refine Memory.wf_cons.2 ⟨fun d hd => ?_, hc, ih hw⟩
      rcases mem_writeByte hd with hd | ⟨rfl, -⟩
      · exact hlt d hd
      · assumption
    · split
      · exact hafter
      · refine Memory.wf_cons.2 ⟨fun d hd => ?_, ‹_›, hafter⟩
        split at hd
        · have := hlt d hd; simp only; omega
        · rcases List.mem_cons.1 hd with rfl | hd
          · simp only; omega
          · have := hlt d hd; simp only; omega

/-- A byte read after a byte write. -/
theorem readByte_writeByte {m : Memory} (hm : Memory.wf m) (a : Nat) (b : Byte) (x : Nat) :
    readByte (writeByte m a b) x = if x = a then b else readByte m x := by
  induction m with
  | nil =>
    unfold writeByte
    by_cases hx : x = a
    · subst hx; rw [if_pos rfl]; split
      · exact (‹b = _›).symm
      · simp [readByte_cons]
    · rw [if_neg hx]; split
      · rfl
      · rw [readByte_cons, if_neg (show ¬a = x from fun h => hx h.symm)]
  | cons c m ih =>
    obtain ⟨hlt, hc, hw⟩ := Memory.wf_cons.1 hm
    rw [writeByte_cons]
    by_cases h1 : c.1 < a
    · rw [if_pos h1, readByte_cons, readByte_cons, ih hw]
      by_cases h2 : c.1 = x
      · rw [if_pos h2, if_neg (show ¬x = a by omega), if_pos h2]
      · rw [if_neg h2, if_neg h2]
    · rw [if_neg h1]
      have hat : readByte (if c.1 = a then m else c :: m) a = Config.unlistedByte := by
        apply readByte_of_forall_lt
        intro d hd
        split at hd
        · have := hlt d hd; omega
        · rcases List.mem_cons.1 hd with rfl | hd
          · omega
          · have := hlt d hd; omega
      have hoff : x ≠ a → readByte (if c.1 = a then m else c :: m) x = readByte (c :: m) x := by
        intro hx
        split
        · rw [readByte_cons, if_neg (show ¬c.1 = x by omega)]
        · rfl
      by_cases hx : x = a
      · subst hx
        rw [if_pos rfl]
        split
        · rw [hat]; exact (‹b = _›).symm
        · rw [readByte_cons, if_pos rfl]
      · rw [if_neg hx]
        split
        · exact hoff hx
        · rw [readByte_cons, if_neg (show ¬a = x from fun h => hx h.symm), hoff hx]

theorem writeBytes_wf {m : Memory} (hm : Memory.wf m) (a : Nat) (d : List Byte) : Memory.wf (writeBytes m a d) := by
  induction d generalizing m a with
  | nil => exact hm
  | cons b d ih => exact ih (writeByte_wf hm a b) (a + 1)

/-- A byte read after a byte sequence is stored. -/
theorem readByte_writeBytes {m : Memory} (hm : Memory.wf m) (a : Nat) (d : List Byte) (x : Nat) :
    readByte (writeBytes m a d) x = if a ≤ x ∧ x < a + d.length then d.getD (x - a) 0 else readByte m x := by
  induction d generalizing m a with
  | nil => simp only [writeBytes, List.length_nil]; rw [if_neg (by omega)]
  | cons b d ih =>
    rw [writeBytes, ih (writeByte_wf hm a b), readByte_writeByte hm]
    simp only [List.length_cons]
    by_cases hx : x = a
    · subst hx; rw [if_neg (by omega), if_pos rfl, if_pos (by omega)]; simp
    · by_cases h : a + 1 ≤ x ∧ x < a + 1 + d.length
      · rw [if_pos h, if_pos (by omega)]
        obtain ⟨k, rfl⟩ : ∃ k, x = a + 1 + k := ⟨x - (a + 1), by omega⟩
        rw [show a + 1 + k - a = k + 1 by omega, show a + 1 + k - (a + 1) = k by omega]; simp
      · rw [if_neg h, if_neg hx, if_neg (by omega)]

theorem mem_writeBytes {m : Memory} {a : Nat} {d : List Byte} {c : Host.Cell} (h : c ∈ writeBytes m a d) :
    c ∈ m ∨ (a ≤ c.1 ∧ c.1 < a + d.length) := by
  induction d generalizing m a with
  | nil => exact .inl h
  | cons b d ih =>
    rcases ih h with h | h
    · rcases mem_writeByte h with h | ⟨rfl, -⟩
      · exact .inl h
      · right; simp
    · right; simp only [List.length_cons]; omega

theorem zeroRange_wf {m : Memory} (hm : Memory.wf m) (lo hi : Nat) : Memory.wf (zeroRange m lo hi) :=
  ⟨hm.1.filter _, fun c hc => hm.2 c (List.mem_of_mem_filter hc)⟩

/-- A byte read after a range is zeroed. -/
theorem readByte_zeroRange (m : Memory) (lo hi x : Nat) :
    readByte (zeroRange m lo hi) x = if lo ≤ x ∧ x < hi then 0 else readByte m x := by
  induction m with
  | nil => simp only [zeroRange, List.filter_nil, readByte_nil]; split <;> rfl
  | cons c m ih =>
    unfold zeroRange at ih ⊢
    by_cases hc : lo ≤ c.1 ∧ c.1 < hi
    · rw [List.filter_cons_of_neg (by simp [hc]), ih]
      by_cases hx : lo ≤ x ∧ x < hi
      · rw [if_pos hx, if_pos hx]
      · rw [if_neg hx, if_neg hx, readByte_cons, if_neg (by rintro rfl; exact hx hc)]
    · rw [List.filter_cons_of_pos (by simp; omega)]
      by_cases hcx : c.1 = x
      · subst hcx; rw [readByte_cons, if_pos rfl, if_neg hc, readByte_cons, if_pos rfl]
      · rw [readByte_cons, if_neg hcx, ih, readByte_cons, if_neg hcx]

theorem mem_zeroRange {m : Memory} {lo hi : Nat} {c : Host.Cell} (h : c ∈ zeroRange m lo hi) : c ∈ m :=
  List.mem_of_mem_filter h

theorem eraseOutFrom_wf {p : Params} {l : Nat} {m : Memory} (hm : Memory.wf m) : Memory.wf (eraseOutFrom p l m) :=
  zeroRange_wf hm _ _

/-- What the erasure of OUT from `l` up leaves (60_exceptions.md R116, R117). -/
theorem readByte_eraseOutFrom (p : Params) (l : Nat) (m : Memory) (x : Nat) :
    readByte (eraseOutFrom p l m) x =
      if Config.outBase + l ≤ x ∧ x < Config.outBase + p.outBytes then 0 else readByte m x :=
  readByte_zeroRange _ _ _ _

theorem eraseOutFrom_inBounds {p : Params} {l : Nat} {m : Memory} (h : Memory.inBounds p m) :
    Memory.inBounds p (eraseOutFrom p l m) := fun c hc => h c (mem_zeroRange hc)

theorem storeOut_wf {p : Params} {off : Nat} {d : List Byte} {m : Memory} (hm : Memory.wf m) :
    Memory.wf (storeOut p off d m) := writeBytes_wf hm _ _

/-- What a store to OUT leaves: the bytes below OUT_BYTES are stored (20_memory.md R56). -/
theorem readByte_storeOut {p : Params} {off : Nat} {d : List Byte} {m : Memory} (hm : Memory.wf m) (x : Nat) :
    readByte (storeOut p off d m) x =
      if Config.outBase + off ≤ x ∧ x < Config.outBase + off + d.length ∧ x < Config.outBase + p.outBytes
      then d.getD (x - (Config.outBase + off)) 0 else readByte m x := by
  rw [storeOut, readByte_writeBytes hm, List.length_take]
  by_cases h : Config.outBase + off ≤ x ∧ x < Config.outBase + off + d.length ∧ x < Config.outBase + p.outBytes
  · rw [if_pos h, if_pos (by omega)]
    simp only [List.getD_eq_getElem?_getD]
    rw [List.getElem?_take_of_lt (by omega)]
  · rw [if_neg h, if_neg (by omega)]

theorem storeOut_inBounds {p : Params} {off : Nat} {d : List Byte} {m : Memory} (h : Memory.inBounds p m) :
    Memory.inBounds p (storeOut p off d m) := by
  intro c hc
  rcases mem_writeBytes hc with hc | ⟨h1, h2⟩
  · exact h c hc
  · right; rw [List.length_take] at h2; omega

/-- Memories in canonical form that read the same are the same data. -/
theorem memory_ext {m n : Memory} (hm : Memory.wf m) (hn : Memory.wf n) (h : ∀ a, readByte m a = readByte n a) :
    m = n := by
  induction m generalizing n with
  | nil =>
    cases n with
    | nil => rfl
    | cons d n =>
      have h1 := h d.1
      rw [readByte_cons, if_pos rfl] at h1
      exact absurd h1.symm (Memory.wf_cons.1 hn).2.1
  | cons c m ih =>
    obtain ⟨hlt, hc, hw⟩ := Memory.wf_cons.1 hm
    cases n with
    | nil =>
      have h1 := h c.1
      rw [readByte_cons, if_pos rfl] at h1
      exact absurd h1 hc
    | cons d n =>
      obtain ⟨hlt', hd, hw'⟩ := Memory.wf_cons.1 hn
      have hkey : c.1 = d.1 := by
        rcases Nat.lt_trichotomy c.1 d.1 with h1 | h1 | h1
        · have h2 := h c.1
          rw [readByte_cons, if_pos rfl, readByte_of_forall_lt (m := d :: n) fun e he => by
            rcases List.mem_cons.1 he with rfl | he
            · exact h1
            · exact h1.trans (hlt' e he)] at h2
          exact absurd h2 hc
        · exact h1
        · have h2 := h d.1
          rw [readByte_cons d, if_pos rfl, readByte_of_forall_lt (m := c :: m) fun e he => by
            rcases List.mem_cons.1 he with rfl | he
            · exact h1
            · exact h1.trans (hlt e he)] at h2
          exact absurd h2.symm hd
      have hval : c.2 = d.2 := by
        have h1 := h c.1
        rwa [readByte_cons, if_pos rfl, readByte_cons, if_pos hkey.symm] at h1
      have hrest : m = n := ih hw hw' fun a => by
        by_cases ha : c.1 = a
        · rw [readByte_of_forall_lt fun e he => ha ▸ hlt e he,
            readByte_of_forall_lt fun e he => ha ▸ hkey ▸ hlt' e he]
        · have h1 := h a
          rwa [readByte_cons, if_neg ha, readByte_cons, if_neg (hkey ▸ ha)] at h1
      rw [hrest, Prod.ext hkey hval]

end Sys2Proof.Machine
end

