-- ==== Sys2Proof/Laws/State.lean ====
section
/-! SUPPORT. What each shared update of the state does to each field, so that no later proof unfolds one. -/

namespace Sys2Proof.Machine

/-! ## `clear_operands()` (60_exceptions.md R118) -/

@[simp] theorem clearOperands_ie (s : State) : (clearOperands s).ie = s.ie := rfl
@[simp] theorem clearOperands_busy (s : State) : (clearOperands s).busy = s.busy := rfl
@[simp] theorem clearOperands_done (s : State) : (clearOperands s).done = s.done := rfl
@[simp] theorem clearOperands_wign (s : State) : (clearOperands s).wign = s.wign := rfl
@[simp] theorem clearOperands_cign (s : State) : (clearOperands s).cign = s.cign := rfl
@[simp] theorem clearOperands_errCode (s : State) : (clearOperands s).errCode = s.errCode := rfl
@[simp] theorem clearOperands_errDetail (s : State) : (clearOperands s).errDetail = s.errDetail := rfl
@[simp] theorem clearOperands_cmd (s : State) : (clearOperands s).cmd = s.cmd := rfl
@[simp] theorem clearOperands_padBs (s : State) : (clearOperands s).padBs = s.padBs := rfl
@[simp] theorem clearOperands_inLen (s : State) : (clearOperands s).inLen = s.inLen := rfl
@[simp] theorem clearOperands_outLen (s : State) : (clearOperands s).outLen = s.outLen := rfl
@[simp] theorem clearOperands_blkIdx (s : State) : (clearOperands s).blkIdx = s.blkIdx := rfl
@[simp] theorem clearOperands_keyLd (s : State) :
    (clearOperands s).keyLd = if consumesKey (decode s.cmd) then 0 else s.keyLd := rfl
@[simp] theorem clearOperands_ivLd (s : State) :
    (clearOperands s).ivLd = if consumesIv (decode s.cmd) then 0 else s.ivLd := rfl
@[simp] theorem clearOperands_fsm (s : State) : (clearOperands s).fsm = s.fsm := rfl
@[simp] theorem clearOperands_opc (s : State) : (clearOperands s).opc = s.opc := rfl
@[simp] theorem clearOperands_nb (s : State) : (clearOperands s).nb = s.nb := rfl
@[simp] theorem clearOperands_len (s : State) : (clearOperands s).len = s.len := rfl
@[simp] theorem clearOperands_key (s : State) :
    (clearOperands s).key = if consumesKey (decode s.cmd) then 0 else s.key := rfl
@[simp] theorem clearOperands_iv (s : State) :
    (clearOperands s).iv = if consumesIv (decode s.cmd) then 0 else s.iv := rfl
@[simp] theorem clearOperands_riv (s : State) : (clearOperands s).riv = 0 := rfl
@[simp] theorem clearOperands_blk (s : State) : (clearOperands s).blk = 0 := rfl
@[simp] theorem clearOperands_mem (s : State) : (clearOperands s).mem = s.mem := rfl
@[simp] theorem clearOperands_port (s : State) : (clearOperands s).port = s.port := rfl
@[simp] theorem clearOperands_params (s : State) : (clearOperands s).params = s.params := rfl
@[simp] theorem clearOperands_agenda (s : State) : (clearOperands s).agenda = s.agenda := rfl
@[simp] theorem clearOperands_readData (s : State) : (clearOperands s).readData = s.readData := rfl
@[simp] theorem clearOperands_draws (s : State) : (clearOperands s).draws = s.draws := rfl

/-! ## The end of every completion (R116, R117) -/

@[simp] theorem complete_ie (s : State) : (complete s).ie = s.ie := rfl
@[simp] theorem complete_busy (s : State) : (complete s).busy = false := rfl
@[simp] theorem complete_done (s : State) : (complete s).done = true := rfl
@[simp] theorem complete_wign (s : State) : (complete s).wign = s.wign := rfl
@[simp] theorem complete_cign (s : State) : (complete s).cign = s.cign := rfl
@[simp] theorem complete_errCode (s : State) : (complete s).errCode = s.errCode := rfl
@[simp] theorem complete_errDetail (s : State) : (complete s).errDetail = s.errDetail := rfl
@[simp] theorem complete_cmd (s : State) : (complete s).cmd = s.cmd := rfl
@[simp] theorem complete_padBs (s : State) : (complete s).padBs = s.padBs := rfl
@[simp] theorem complete_inLen (s : State) : (complete s).inLen = s.inLen := rfl
@[simp] theorem complete_outLen (s : State) : (complete s).outLen = s.outLen := rfl
@[simp] theorem complete_blkIdx (s : State) : (complete s).blkIdx = s.blkIdx := rfl
@[simp] theorem complete_keyLd (s : State) :
    (complete s).keyLd = if consumesKey (decode s.cmd) then 0 else s.keyLd := rfl
@[simp] theorem complete_ivLd (s : State) : (complete s).ivLd = if consumesIv (decode s.cmd) then 0 else s.ivLd := rfl
@[simp] theorem complete_fsm (s : State) : (complete s).fsm = .idle := rfl
@[simp] theorem complete_opc (s : State) : (complete s).opc = s.opc := rfl
@[simp] theorem complete_nb (s : State) : (complete s).nb = s.nb := rfl
@[simp] theorem complete_len (s : State) : (complete s).len = s.len := rfl
@[simp] theorem complete_key (s : State) : (complete s).key = if consumesKey (decode s.cmd) then 0 else s.key := rfl
@[simp] theorem complete_iv (s : State) : (complete s).iv = if consumesIv (decode s.cmd) then 0 else s.iv := rfl
@[simp] theorem complete_riv (s : State) : (complete s).riv = 0 := rfl
@[simp] theorem complete_blk (s : State) : (complete s).blk = 0 := rfl
@[simp] theorem complete_mem (s : State) : (complete s).mem = s.mem := rfl
@[simp] theorem complete_port (s : State) : (complete s).port = s.port := rfl
@[simp] theorem complete_params (s : State) : (complete s).params = s.params := rfl
@[simp] theorem complete_agenda (s : State) : (complete s).agenda = s.agenda := rfl
@[simp] theorem complete_readData (s : State) : (complete s).readData = s.readData := rfl
@[simp] theorem complete_draws (s : State) : (complete s).draws = s.draws := rfl

/-! ## The success procedure (R116) -/

@[simp] theorem finish_ie (l : Nat) (s : State) : (finish l s).ie = s.ie := rfl
@[simp] theorem finish_busy (l : Nat) (s : State) : (finish l s).busy = false := rfl
@[simp] theorem finish_done (l : Nat) (s : State) : (finish l s).done = true := rfl
@[simp] theorem finish_wign (l : Nat) (s : State) : (finish l s).wign = s.wign := rfl
@[simp] theorem finish_cign (l : Nat) (s : State) : (finish l s).cign = s.cign := rfl
@[simp] theorem finish_errCode (l : Nat) (s : State) : (finish l s).errCode = s.errCode := rfl
@[simp] theorem finish_errDetail (l : Nat) (s : State) : (finish l s).errDetail = s.errDetail := rfl
@[simp] theorem finish_cmd (l : Nat) (s : State) : (finish l s).cmd = s.cmd := rfl
@[simp] theorem finish_padBs (l : Nat) (s : State) : (finish l s).padBs = s.padBs := rfl
@[simp] theorem finish_inLen (l : Nat) (s : State) : (finish l s).inLen = s.inLen := rfl
@[simp] theorem finish_outLen (l : Nat) (s : State) : (finish l s).outLen = BitVec.ofNat 32 l := rfl
@[simp] theorem finish_blkIdx (l : Nat) (s : State) : (finish l s).blkIdx = s.blkIdx := rfl
@[simp] theorem finish_keyLd (l : Nat) (s : State) :
    (finish l s).keyLd = if consumesKey (decode s.cmd) then 0 else s.keyLd := rfl
@[simp] theorem finish_ivLd (l : Nat) (s : State) :
    (finish l s).ivLd = if consumesIv (decode s.cmd) then 0 else s.ivLd := rfl
@[simp] theorem finish_fsm (l : Nat) (s : State) : (finish l s).fsm = .idle := rfl
@[simp] theorem finish_opc (l : Nat) (s : State) : (finish l s).opc = s.opc := rfl
@[simp] theorem finish_nb (l : Nat) (s : State) : (finish l s).nb = s.nb := rfl
@[simp] theorem finish_len (l : Nat) (s : State) : (finish l s).len = s.len := rfl
@[simp] theorem finish_key (l : Nat) (s : State) :
    (finish l s).key = if consumesKey (decode s.cmd) then 0 else s.key := rfl
@[simp] theorem finish_iv (l : Nat) (s : State) :
    (finish l s).iv = if consumesIv (decode s.cmd) then 0 else s.iv := rfl
@[simp] theorem finish_riv (l : Nat) (s : State) : (finish l s).riv = 0 := rfl
@[simp] theorem finish_blk (l : Nat) (s : State) : (finish l s).blk = 0 := rfl
@[simp] theorem finish_mem (l : Nat) (s : State) : (finish l s).mem = eraseOutFrom s.params l s.mem := rfl
@[simp] theorem finish_port (l : Nat) (s : State) : (finish l s).port = s.port := rfl
@[simp] theorem finish_params (l : Nat) (s : State) : (finish l s).params = s.params := rfl
@[simp] theorem finish_agenda (l : Nat) (s : State) : (finish l s).agenda = s.agenda := rfl
@[simp] theorem finish_readData (l : Nat) (s : State) : (finish l s).readData = s.readData := rfl
@[simp] theorem finish_draws (l : Nat) (s : State) : (finish l s).draws = s.draws := rfl

/-! ## RSP_VALID <- 0 (R90) -/

@[simp] theorem dropResponse_ie (s : State) : (dropResponse s).ie = s.ie := rfl
@[simp] theorem dropResponse_busy (s : State) : (dropResponse s).busy = s.busy := rfl
@[simp] theorem dropResponse_done (s : State) : (dropResponse s).done = s.done := rfl
@[simp] theorem dropResponse_wign (s : State) : (dropResponse s).wign = s.wign := rfl
@[simp] theorem dropResponse_cign (s : State) : (dropResponse s).cign = s.cign := rfl
@[simp] theorem dropResponse_errCode (s : State) : (dropResponse s).errCode = s.errCode := rfl
@[simp] theorem dropResponse_errDetail (s : State) : (dropResponse s).errDetail = s.errDetail := rfl
@[simp] theorem dropResponse_cmd (s : State) : (dropResponse s).cmd = s.cmd := rfl
@[simp] theorem dropResponse_padBs (s : State) : (dropResponse s).padBs = s.padBs := rfl
@[simp] theorem dropResponse_inLen (s : State) : (dropResponse s).inLen = s.inLen := rfl
@[simp] theorem dropResponse_outLen (s : State) : (dropResponse s).outLen = s.outLen := rfl
@[simp] theorem dropResponse_blkIdx (s : State) : (dropResponse s).blkIdx = s.blkIdx := rfl
@[simp] theorem dropResponse_keyLd (s : State) : (dropResponse s).keyLd = s.keyLd := rfl
@[simp] theorem dropResponse_ivLd (s : State) : (dropResponse s).ivLd = s.ivLd := rfl
@[simp] theorem dropResponse_fsm (s : State) : (dropResponse s).fsm = s.fsm := rfl
@[simp] theorem dropResponse_opc (s : State) : (dropResponse s).opc = s.opc := rfl
@[simp] theorem dropResponse_nb (s : State) : (dropResponse s).nb = s.nb := rfl
@[simp] theorem dropResponse_len (s : State) : (dropResponse s).len = s.len := rfl
@[simp] theorem dropResponse_key (s : State) : (dropResponse s).key = s.key := rfl
@[simp] theorem dropResponse_iv (s : State) : (dropResponse s).iv = s.iv := rfl
@[simp] theorem dropResponse_riv (s : State) : (dropResponse s).riv = s.riv := rfl
@[simp] theorem dropResponse_blk (s : State) : (dropResponse s).blk = s.blk := rfl
@[simp] theorem dropResponse_mem (s : State) : (dropResponse s).mem = s.mem := rfl
@[simp] theorem dropResponse_port (s : State) : (dropResponse s).port = { s.port with rspValid := false } := rfl
@[simp] theorem dropResponse_params (s : State) : (dropResponse s).params = s.params := rfl
@[simp] theorem dropResponse_agenda (s : State) : (dropResponse s).agenda = s.agenda := rfl
@[simp] theorem dropResponse_readData (s : State) : (dropResponse s).readData = s.readData := rfl
@[simp] theorem dropResponse_draws (s : State) : (dropResponse s).draws = s.draws := rfl

/-! ## The failure procedure (R117) -/

@[simp] theorem raiseError_ie (c : ErrCode) (d : ErrDetail) (s : State) : (raiseError c d s).ie = s.ie := rfl
@[simp] theorem raiseError_busy (c : ErrCode) (d : ErrDetail) (s : State) : (raiseError c d s).busy = false := rfl
@[simp] theorem raiseError_done (c : ErrCode) (d : ErrDetail) (s : State) : (raiseError c d s).done = true := rfl
@[simp] theorem raiseError_wign (c : ErrCode) (d : ErrDetail) (s : State) : (raiseError c d s).wign = s.wign := rfl
@[simp] theorem raiseError_cign (c : ErrCode) (d : ErrDetail) (s : State) : (raiseError c d s).cign = s.cign := rfl
@[simp] theorem raiseError_errCode (c : ErrCode) (d : ErrDetail) (s : State) : (raiseError c d s).errCode = c := rfl
@[simp] theorem raiseError_errDetail (c : ErrCode) (d : ErrDetail) (s : State) :
    (raiseError c d s).errDetail = d := rfl
@[simp] theorem raiseError_cmd (c : ErrCode) (d : ErrDetail) (s : State) : (raiseError c d s).cmd = s.cmd := rfl
@[simp] theorem raiseError_padBs (c : ErrCode) (d : ErrDetail) (s : State) : (raiseError c d s).padBs = s.padBs := rfl
@[simp] theorem raiseError_inLen (c : ErrCode) (d : ErrDetail) (s : State) : (raiseError c d s).inLen = s.inLen := rfl
@[simp] theorem raiseError_outLen (c : ErrCode) (d : ErrDetail) (s : State) : (raiseError c d s).outLen = 0 := rfl
@[simp] theorem raiseError_blkIdx (c : ErrCode) (d : ErrDetail) (s : State) :
    (raiseError c d s).blkIdx = s.blkIdx := rfl
@[simp] theorem raiseError_keyLd (c : ErrCode) (d : ErrDetail) (s : State) :
    (raiseError c d s).keyLd = if consumesKey (decode s.cmd) then 0 else s.keyLd := rfl
@[simp] theorem raiseError_ivLd (c : ErrCode) (d : ErrDetail) (s : State) :
    (raiseError c d s).ivLd = if consumesIv (decode s.cmd) then 0 else s.ivLd := rfl
@[simp] theorem raiseError_fsm (c : ErrCode) (d : ErrDetail) (s : State) : (raiseError c d s).fsm = .idle := rfl
@[simp] theorem raiseError_opc (c : ErrCode) (d : ErrDetail) (s : State) : (raiseError c d s).opc = s.opc := rfl
@[simp] theorem raiseError_nb (c : ErrCode) (d : ErrDetail) (s : State) : (raiseError c d s).nb = s.nb := rfl
@[simp] theorem raiseError_len (c : ErrCode) (d : ErrDetail) (s : State) : (raiseError c d s).len = s.len := rfl
@[simp] theorem raiseError_key (c : ErrCode) (d : ErrDetail) (s : State) :
    (raiseError c d s).key = if consumesKey (decode s.cmd) then 0 else s.key := rfl
@[simp] theorem raiseError_iv (c : ErrCode) (d : ErrDetail) (s : State) :
    (raiseError c d s).iv = if consumesIv (decode s.cmd) then 0 else s.iv := rfl
@[simp] theorem raiseError_riv (c : ErrCode) (d : ErrDetail) (s : State) : (raiseError c d s).riv = 0 := rfl
@[simp] theorem raiseError_blk (c : ErrCode) (d : ErrDetail) (s : State) : (raiseError c d s).blk = 0 := rfl
@[simp] theorem raiseError_mem (c : ErrCode) (d : ErrDetail) (s : State) :
    (raiseError c d s).mem = eraseOutFrom s.params 0 s.mem := rfl
@[simp] theorem raiseError_port (c : ErrCode) (d : ErrDetail) (s : State) :
    (raiseError c d s).port = { s.port with rspValid := false } := rfl
@[simp] theorem raiseError_params (c : ErrCode) (d : ErrDetail) (s : State) :
    (raiseError c d s).params = s.params := rfl
@[simp] theorem raiseError_agenda (c : ErrCode) (d : ErrDetail) (s : State) :
    (raiseError c d s).agenda = s.agenda := rfl
@[simp] theorem raiseError_readData (c : ErrCode) (d : ErrDetail) (s : State) :
    (raiseError c d s).readData = s.readData := rfl
@[simp] theorem raiseError_draws (c : ErrCode) (d : ErrDetail) (s : State) : (raiseError c d s).draws = s.draws := rfl

/-! ## Acceptance (30_encoding.md R70) -/

@[simp] theorem acceptCommand_ie (w : Word) (s : State) : (acceptCommand w s).ie = s.ie := rfl
@[simp] theorem acceptCommand_busy (w : Word) (s : State) : (acceptCommand w s).busy = true := rfl
@[simp] theorem acceptCommand_done (w : Word) (s : State) : (acceptCommand w s).done = false := rfl
@[simp] theorem acceptCommand_wign (w : Word) (s : State) : (acceptCommand w s).wign = s.wign := rfl
@[simp] theorem acceptCommand_cign (w : Word) (s : State) : (acceptCommand w s).cign = s.cign := rfl
@[simp] theorem acceptCommand_errCode (w : Word) (s : State) : (acceptCommand w s).errCode = .none := rfl
@[simp] theorem acceptCommand_errDetail (w : Word) (s : State) : (acceptCommand w s).errDetail = .none := rfl
@[simp] theorem acceptCommand_cmd (w : Word) (s : State) : (acceptCommand w s).cmd = w := rfl
@[simp] theorem acceptCommand_padBs (w : Word) (s : State) : (acceptCommand w s).padBs = s.padBs := rfl
@[simp] theorem acceptCommand_inLen (w : Word) (s : State) : (acceptCommand w s).inLen = s.inLen := rfl
@[simp] theorem acceptCommand_outLen (w : Word) (s : State) : (acceptCommand w s).outLen = 0 := rfl
@[simp] theorem acceptCommand_blkIdx (w : Word) (s : State) : (acceptCommand w s).blkIdx = 0 := rfl
@[simp] theorem acceptCommand_keyLd (w : Word) (s : State) : (acceptCommand w s).keyLd = s.keyLd := rfl
@[simp] theorem acceptCommand_ivLd (w : Word) (s : State) : (acceptCommand w s).ivLd = s.ivLd := rfl
@[simp] theorem acceptCommand_fsm (w : Word) (s : State) : (acceptCommand w s).fsm = .validate := rfl
@[simp] theorem acceptCommand_opc (w : Word) (s : State) : (acceptCommand w s).opc = opcodeField w := rfl
@[simp] theorem acceptCommand_nb (w : Word) (s : State) : (acceptCommand w s).nb = s.nb := rfl
@[simp] theorem acceptCommand_len (w : Word) (s : State) : (acceptCommand w s).len = s.len := rfl
@[simp] theorem acceptCommand_key (w : Word) (s : State) : (acceptCommand w s).key = s.key := rfl
@[simp] theorem acceptCommand_iv (w : Word) (s : State) : (acceptCommand w s).iv = s.iv := rfl
@[simp] theorem acceptCommand_riv (w : Word) (s : State) : (acceptCommand w s).riv = s.riv := rfl
@[simp] theorem acceptCommand_blk (w : Word) (s : State) : (acceptCommand w s).blk = s.blk := rfl
@[simp] theorem acceptCommand_mem (w : Word) (s : State) : (acceptCommand w s).mem = s.mem := rfl
@[simp] theorem acceptCommand_port (w : Word) (s : State) : (acceptCommand w s).port = s.port := rfl
@[simp] theorem acceptCommand_params (w : Word) (s : State) : (acceptCommand w s).params = s.params := rfl
@[simp] theorem acceptCommand_agenda (w : Word) (s : State) : (acceptCommand w s).agenda = s.agenda := rfl
@[simp] theorem acceptCommand_readData (w : Word) (s : State) : (acceptCommand w s).readData = s.readData := rfl
@[simp] theorem acceptCommand_draws (w : Word) (s : State) : (acceptCommand w s).draws = s.draws := rfl

/-! ## Reset (70_reset_and_hazards.md R129) -/

@[simp] theorem resetDevice_ie (s : State) : (resetDevice s).ie = State.reset.ie := rfl
@[simp] theorem resetDevice_busy (s : State) : (resetDevice s).busy = State.reset.busy := rfl
@[simp] theorem resetDevice_done (s : State) : (resetDevice s).done = State.reset.done := rfl
@[simp] theorem resetDevice_wign (s : State) : (resetDevice s).wign = State.reset.wign := rfl
@[simp] theorem resetDevice_cign (s : State) : (resetDevice s).cign = State.reset.cign := rfl
@[simp] theorem resetDevice_errCode (s : State) : (resetDevice s).errCode = State.reset.errCode := rfl
@[simp] theorem resetDevice_errDetail (s : State) : (resetDevice s).errDetail = State.reset.errDetail := rfl
@[simp] theorem resetDevice_cmd (s : State) : (resetDevice s).cmd = State.reset.cmd := rfl
@[simp] theorem resetDevice_padBs (s : State) : (resetDevice s).padBs = State.reset.padBs := rfl
@[simp] theorem resetDevice_inLen (s : State) : (resetDevice s).inLen = State.reset.inLen := rfl
@[simp] theorem resetDevice_outLen (s : State) : (resetDevice s).outLen = State.reset.outLen := rfl
@[simp] theorem resetDevice_blkIdx (s : State) : (resetDevice s).blkIdx = State.reset.blkIdx := rfl
@[simp] theorem resetDevice_keyLd (s : State) : (resetDevice s).keyLd = State.reset.keyLd := rfl
@[simp] theorem resetDevice_ivLd (s : State) : (resetDevice s).ivLd = State.reset.ivLd := rfl
@[simp] theorem resetDevice_fsm (s : State) : (resetDevice s).fsm = State.reset.fsm := rfl
@[simp] theorem resetDevice_opc (s : State) : (resetDevice s).opc = State.reset.opc := rfl
@[simp] theorem resetDevice_nb (s : State) : (resetDevice s).nb = State.reset.nb := rfl
@[simp] theorem resetDevice_len (s : State) : (resetDevice s).len = State.reset.len := rfl
@[simp] theorem resetDevice_key (s : State) : (resetDevice s).key = State.reset.key := rfl
@[simp] theorem resetDevice_iv (s : State) : (resetDevice s).iv = State.reset.iv := rfl
@[simp] theorem resetDevice_riv (s : State) : (resetDevice s).riv = State.reset.riv := rfl
@[simp] theorem resetDevice_blk (s : State) : (resetDevice s).blk = State.reset.blk := rfl
@[simp] theorem resetDevice_mem (s : State) : (resetDevice s).mem = State.reset.mem := rfl
@[simp] theorem resetDevice_port (s : State) : (resetDevice s).port = State.reset.port := rfl
@[simp] theorem resetDevice_params (s : State) : (resetDevice s).params = s.params := rfl
@[simp] theorem resetDevice_agenda (s : State) : (resetDevice s).agenda = s.agenda := rfl
@[simp] theorem resetDevice_readData (s : State) : (resetDevice s).readData = s.readData := rfl
@[simp] theorem resetDevice_draws (s : State) : (resetDevice s).draws = s.draws := rfl

/-! ## The request of a LOAD step (41_cipher_port.md R90) -/

@[simp] theorem issueRequest_ie (dir : Direction) (b : Block) (s : State) : (issueRequest dir b s).ie = s.ie := rfl
@[simp] theorem issueRequest_busy (dir : Direction) (b : Block) (s : State) :
    (issueRequest dir b s).busy = s.busy := rfl
@[simp] theorem issueRequest_done (dir : Direction) (b : Block) (s : State) :
    (issueRequest dir b s).done = s.done := rfl
@[simp] theorem issueRequest_wign (dir : Direction) (b : Block) (s : State) :
    (issueRequest dir b s).wign = s.wign := rfl
@[simp] theorem issueRequest_cign (dir : Direction) (b : Block) (s : State) :
    (issueRequest dir b s).cign = s.cign := rfl
@[simp] theorem issueRequest_errCode (dir : Direction) (b : Block) (s : State) :
    (issueRequest dir b s).errCode = s.errCode := rfl
@[simp] theorem issueRequest_errDetail (dir : Direction) (b : Block) (s : State) :
    (issueRequest dir b s).errDetail = s.errDetail := rfl
@[simp] theorem issueRequest_cmd (dir : Direction) (b : Block) (s : State) : (issueRequest dir b s).cmd = s.cmd := rfl
@[simp] theorem issueRequest_padBs (dir : Direction) (b : Block) (s : State) :
    (issueRequest dir b s).padBs = s.padBs := rfl
@[simp] theorem issueRequest_inLen (dir : Direction) (b : Block) (s : State) :
    (issueRequest dir b s).inLen = s.inLen := rfl
@[simp] theorem issueRequest_outLen (dir : Direction) (b : Block) (s : State) :
    (issueRequest dir b s).outLen = s.outLen := rfl
@[simp] theorem issueRequest_blkIdx (dir : Direction) (b : Block) (s : State) :
    (issueRequest dir b s).blkIdx = s.blkIdx := rfl
@[simp] theorem issueRequest_keyLd (dir : Direction) (b : Block) (s : State) :
    (issueRequest dir b s).keyLd = s.keyLd := rfl
@[simp] theorem issueRequest_ivLd (dir : Direction) (b : Block) (s : State) :
    (issueRequest dir b s).ivLd = s.ivLd := rfl
@[simp] theorem issueRequest_fsm (dir : Direction) (b : Block) (s : State) : (issueRequest dir b s).fsm = .wait := rfl
@[simp] theorem issueRequest_opc (dir : Direction) (b : Block) (s : State) : (issueRequest dir b s).opc = s.opc := rfl
@[simp] theorem issueRequest_nb (dir : Direction) (b : Block) (s : State) : (issueRequest dir b s).nb = s.nb := rfl
@[simp] theorem issueRequest_len (dir : Direction) (b : Block) (s : State) : (issueRequest dir b s).len = s.len := rfl
@[simp] theorem issueRequest_key (dir : Direction) (b : Block) (s : State) : (issueRequest dir b s).key = s.key := rfl
@[simp] theorem issueRequest_iv (dir : Direction) (b : Block) (s : State) : (issueRequest dir b s).iv = s.iv := rfl
@[simp] theorem issueRequest_riv (dir : Direction) (b : Block) (s : State) : (issueRequest dir b s).riv = s.riv := rfl
@[simp] theorem issueRequest_blk (dir : Direction) (b : Block) (s : State) : (issueRequest dir b s).blk = b := rfl
@[simp] theorem issueRequest_mem (dir : Direction) (b : Block) (s : State) : (issueRequest dir b s).mem = s.mem := rfl
@[simp] theorem issueRequest_port (dir : Direction) (b : Block) (s : State) :
    (issueRequest dir b s).port = { s.port with reqDir := dir, reqKey := s.key, reqData := b, reqValid := true } := rfl
@[simp] theorem issueRequest_params (dir : Direction) (b : Block) (s : State) :
    (issueRequest dir b s).params = s.params := rfl
@[simp] theorem issueRequest_agenda (dir : Direction) (b : Block) (s : State) :
    (issueRequest dir b s).agenda = s.agenda := rfl
@[simp] theorem issueRequest_readData (dir : Direction) (b : Block) (s : State) :
    (issueRequest dir b s).readData = s.readData := rfl
@[simp] theorem issueRequest_draws (dir : Direction) (b : Block) (s : State) :
    (issueRequest dir b s).draws = s.draws := rfl

end Sys2Proof.Machine
end

