-- ==== Sys2Proof/Laws/Ops.lean ====
section
/-! SUPPORT. What each shared operation of the commands can do, said once: the operands by byte, the VALIDATE checks, and
OUT after the success and the failure procedure. -/

namespace Sys2Proof.Machine

@[simp] theorem blockSize_eq : Config.blockSize = 16 := rfl

@[simp] theorem unlistedByte_eq : Config.unlistedByte = 0 := rfl

/-! ## Operands -/

@[simp] theorem length_inSeq (s : State) (n : Nat) : (inSeq s n).length = n := by simp [inSeq]

@[simp] theorem length_outSeq (s : State) (n : Nat) : (outSeq s n).length = n := by simp [outSeq]

theorem getD_inSeq (s : State) (n i : Nat) : (inSeq s n).getD i 0 = if i < n then inByte s i else 0 := by
  by_cases h : i < n
  · simp [inSeq, h, List.getD_eq_getElem?_getD]
  · simp [inSeq, h, List.getD_eq_getElem?_getD]

theorem getD_outSeq (s : State) (n i : Nat) : (outSeq s n).getD i 0 = if i < n then outByte s i else 0 := by
  by_cases h : i < n
  · simp [outSeq, h, List.getD_eq_getElem?_getD]
  · simp [outSeq, h, List.getD_eq_getElem?_getD]

theorem inByte_congr {s t : State} (hp : t.params = s.params)
    (h : ∀ i < s.params.bufBytes, readByte t.mem (Config.inBase + i) = readByte s.mem (Config.inBase + i)) (i : Nat) :
    inByte t i = inByte s i := by
  unfold inByte
  rw [hp]
  split
  · exact h i ‹_›
  · rfl

/-- Byte `j` of `IN[16k .. 16k+16)` (R99). -/
theorem blockByte_inBlock (s : State) (k : Nat) {j : Nat} (hj : j < 16) :
    blockByte (inBlock s k) j = inByte s (16 * k + j) := blockByte_blockOfFn _ hj

/-- Byte `j` of `padblock(k)` (R108). -/
theorem blockByte_padBlock (s : State) (k : Nat) {j : Nat} (hj : j < 16) :
    blockByte (padBlock s k) j =
      if 16 * k + j < inCount s then inByte s (16 * k + j) else BitVec.ofNat 8 (padCount 16 (inCount s)) :=
  blockByte_blockOfFn _ hj

theorem padCount_pos {bs : Nat} (n : Nat) (h : bs ≠ 0) : 1 ≤ padCount bs n := by
  have := Nat.mod_lt n (Nat.pos_of_ne_zero h); unfold padCount; omega

theorem padCount_le (bs n : Nat) : padCount bs n ≤ bs := Nat.sub_le _ _

theorem padBoundary_le (s : State) : padBoundary s ≤ 255 := by
  have := s.padBs.isLt; unfold padBoundary; omega

/-- What `padcheck` answers (40_pkcs7.md R84, law 3). -/
theorem padcheck_ok {bs : Nat} {d : List Byte} {n : Nat} (h : padcheck bs d = .ok n) :
    1 ≤ n ∧ n ≤ bs ∧ n ≤ d.length ∧ n = (d.getD (d.length - 1) 0).toNat := by
  unfold padcheck at h
  split at h
  · cases h
  · simp only at h
    split at h
    · cases h
    · split at h
      · cases h
      · split at h
        · cases h
        · cases h; omega

theorem padcheck_bad {bs : Nat} {d : List Byte} {x : ErrDetail} (h : padcheck bs d = .bad x) :
    x = .empty ∨ x = .padZero ∨ x = .padGtBs ∨ x = .padGtLen := by
  unfold padcheck at h
  split at h
  · cases h; simp
  · simp only at h
    split at h
    · cases h; simp
    · split at h
      · cases h; simp
      · split at h <;> cases h; simp

/-! ## VALIDATE -/

/-- VALIDATE performs the setup when no check holds, else reports the first that does (R72). -/
theorem validateThen_cases (cs : List Check) (f : State → State) (s : State) :
    (validateThen cs f s = f s ∧ ∀ c ∈ cs, c.holds = false) ∨
      ∃ before c after, cs = before ++ c :: after ∧ (∀ b ∈ before, b.holds = false) ∧ c.holds = true ∧
        validateThen cs f s = raiseError c.code c.detail s := by
  induction cs with
  | nil => exact .inl ⟨rfl, by simp⟩
  | cons c cs ih =>
    unfold validateThen
    by_cases hc : c.holds = true
    · exact .inr ⟨[], c, cs, rfl, by simp, hc, by rw [if_pos hc]⟩
    · rw [if_neg hc]
      have hc' : c.holds = false := by simpa using hc
      rcases ih with ⟨h, hall⟩ | ⟨bs, d, as, hcs, hbs, hd, h⟩
      · exact .inl ⟨h, by simpa [hc'] using hall⟩
      · exact .inr ⟨c :: bs, d, as, by simp [hcs], by simpa [hc'] using hbs, hd, h⟩

theorem validateThen_of_none {cs : List Check} {f : State → State} {s : State} (h : ∀ c ∈ cs, c.holds = false) :
    validateThen cs f s = f s := by
  induction cs with
  | nil => rfl
  | cons c cs ih =>
    unfold validateThen
    rw [if_neg (by simp [h c (by simp)])]
    exact ih fun d hd => h d (by simp [hd])

/-! ## OUT after a completion -/

theorem outByte_of_mem {s t : State} (hp : t.params = s.params) {i : Nat}
    (h : readByte t.mem (Config.outBase + i) = readByte s.mem (Config.outBase + i)) : outByte t i = outByte s i := by
  unfold outByte; rw [hp, h]

/-- OUT after the success procedure: the bytes below `l` stay, the others are 0 (R116). -/
theorem outByte_finish (l : Nat) (s : State) (i : Nat) :
    outByte (finish l s) i = if l ≤ i then 0 else outByte s i := by
  simp only [outByte, finish_params, finish_mem, readByte_eraseOutFrom]
  split_ifs <;> first | rfl | omega

/-- OUT after the failure procedure: every byte is 0 (R117). -/
theorem outByte_raiseError (c : ErrCode) (d : ErrDetail) (s : State) (i : Nat) : outByte (raiseError c d s) i = 0 := by
  simp only [outByte, raiseError_params, raiseError_mem, readByte_eraseOutFrom]
  split_ifs <;> first | rfl | omega

/-- OUT after a store: the bytes below OUT_BYTES are stored (R56). -/
theorem outByte_storeOut {s : State} (hm : Memory.wf s.mem) (off : Nat) (d : List Byte) (i : Nat) :
    outByte { s with mem := storeOut s.params off d s.mem } i =
      if off ≤ i ∧ i < off + d.length ∧ i < s.params.outBytes then d.getD (i - off) 0 else outByte s i := by
  simp only [outByte, readByte_storeOut hm, Nat.add_sub_add_left]
  split_ifs <;> first | rfl | omega

end Sys2Proof.Machine
end

