-- ==== Sys2Proof/Laws/Step.lean ====
section
/-! SUPPORT. What one step can do: the inversion lemmas of `exec`, of the turns and of `step`, and runs step by step. -/

namespace Sys2Proof.Machine

/-- A command's controller step always answers a next state (60_exceptions.md R117). -/
theorem exec_next (i : Instr) (s : State) : ∃ t, exec i s = .next t := by
  cases i <;> simp only [exec, execPad, execUnpad, execEcbEnc, execEcbDec, execCbcEnc, execCbcDec] <;> split <;>
    exact ⟨_, rfl⟩

theorem controllerTurn_next (s : State) : ∃ t, controllerTurn s = .next t := by
  unfold controllerTurn
  split
  · exact ⟨_, rfl⟩
  · split
    · exact exec_next _ _
    · exact ⟨_, rfl⟩
  all_goals
    split
    · exact exec_next _ _
    · exact ⟨_, rfl⟩

theorem deviceTurn_next (s : State) : ∃ t, deviceTurn s = .next t := by
  unfold deviceTurn
  split
  · exact controllerTurn_next s
  · split <;> exact ⟨_, rfl⟩

/-- Only a host access outside the contract is refused (20_memory.md R50). -/
theorem takeTurn_next {e : Event} {s : State} (h : ∀ a, e = .host a → a.wf s.params = true) :
    ∃ t, takeTurn e s = .next t := by
  cases e with
  | host a =>
    have ha := h a rfl
    simp only [Access.wf, Bool.and_eq_true] at ha
    simp [takeTurn, hostAccess, ha]
  | poll => exact ⟨_, rfl⟩
  | awaitIrq => exact ⟨_, rfl⟩
  | device => exact deviceTurn_next s
  | controller => exact controllerTurn_next s
  | cipher d => exact ⟨_, rfl⟩
  | hardReset => exact ⟨_, rfl⟩

theorem step_nil {s : State} (h : s.agenda = []) : step s = deviceTurn s := by
  simp only [step, nextTurn, h]

theorem step_cons {s : State} {e : Event} {rest : List Event} (h : s.agenda = e :: rest) :
    step s = takeTurn e { s with agenda := rest } := by
  simp only [step, nextTurn, h]

/-- A step takes the first turn of the agenda, or the device's own turn when none is scheduled. -/
theorem step_cases (s : State) :
    (s.agenda = [] ∧ step s = deviceTurn s) ∨
      ∃ e rest, s.agenda = e :: rest ∧ step s = takeTurn e { s with agenda := rest } := by
  cases h : s.agenda with
  | nil => exact .inl ⟨rfl, step_nil h⟩
  | cons e rest => exact .inr ⟨e, rest, rfl, step_cons h⟩

@[simp] theorem run_zero (s : State) : run 0 s = .next s := rfl

theorem run_succ (k : Nat) (s : State) :
    run (k + 1) s = match step s with
      | .next t => run k t
      | .fault r => .fault r
      | .refused r => .refused r := by
  simp only [run, Host.Core.run]
  have h : core.step s = step s := rfl
  rw [h]
  cases step s <;> rfl

theorem run_succ_next {k : Nat} {s t : State} (h : step s = .next t) : run (k + 1) s = run k t := by
  rw [run_succ, h]

theorem run_add {j : Nat} (k : Nat) {s t : State} (h : run j s = .next t) : run (j + k) s = run k t := by
  induction j generalizing s with
  | zero =>
    cases h
    rw [Nat.zero_add]
  | succ j ih =>
    rw [Nat.succ_add]
    rw [run_succ] at h ⊢
    split at h
    · exact ih h
    · cases h
    · cases h

end Sys2Proof.Machine
end

