-- ==== Sys2Proof/Laws/Exec.lean ====
section
/-! SUPPORT. What a controller step can do to each part of the state, said once for all commands: the fields it never
writes, the completion, and the bytes of memory it may write. -/

namespace Sys2Proof.Machine

/-- The fields no controller step writes: the host's registers and flags, and the model's own fields. -/
structure ControllerKeeps (s t : State) : Prop where
  ie : t.ie = s.ie
  wign : t.wign = s.wign
  cign : t.cign = s.cign
  cmd : t.cmd = s.cmd
  padBs : t.padBs = s.padBs
  inLen : t.inLen = s.inLen
  opc : t.opc = s.opc
  params : t.params = s.params
  agenda : t.agenda = s.agenda
  readData : t.readData = s.readData
  draws : t.draws = s.draws

/-- A step after which the command still stands where its flags and operands are concerned. -/
structure Continues (s t : State) : Prop where
  busy : t.busy = s.busy
  done : t.done = s.done
  errCode : t.errCode = s.errCode
  errDetail : t.errDetail = s.errDetail
  outLen : t.outLen = s.outLen
  key : t.key = s.key
  keyLd : t.keyLd = s.keyLd
  iv : t.iv = s.iv
  ivLd : t.ivLd = s.ivLd

/-- A step that ends the command, by `finish` or `raise Error` (60_exceptions.md R116 to R118). -/
structure Completes (s t : State) : Prop where
  from_busy : s.fsm ≠ .idle
  fsm : t.fsm = .idle
  busy : t.busy = false
  done : t.done = true
  key : t.key = if consumesKey (decode s.cmd) then 0 else s.key
  keyLd : t.keyLd = if consumesKey (decode s.cmd) then 0 else s.keyLd
  iv : t.iv = if consumesIv (decode s.cmd) then 0 else s.iv
  ivLd : t.ivLd = if consumesIv (decode s.cmd) then 0 else s.ivLd
  riv : t.riv = 0
  blk : t.blk = 0

theorem ControllerKeeps.refl (s : State) : ControllerKeeps s s := by constructor <;> rfl

theorem Continues.refl (s : State) : Continues s s := by constructor <;> rfl

/-- Everything a controller step is: it keeps the host's side, and it goes on or completes. -/
def ControllerStep (s t : State) : Prop := ControllerKeeps s t ∧ (Continues s t ∨ Completes s t)

theorem controllerStep_refl (s : State) : ControllerStep s s := ⟨.refl s, .inl (.refl s)⟩

theorem controllerStep_raise {s u : State} (c : ErrCode) (d : ErrDetail) (hk : ControllerKeeps s u) (hc : Continues s u)
    (hf : s.fsm ≠ .idle) : ControllerStep s (raiseError c d u) := by
  obtain ⟨h1, h2, h3, h4, h5, h6, h7, h8, h9, h10, h11⟩ := hk
  obtain ⟨-, -, -, -, -, k1, k2, k3, k4⟩ := hc
  refine ⟨?_, .inr ?_⟩ <;> constructor <;> first | exact hf | simp [*]

theorem controllerStep_finish {s u : State} (l : Nat) (hk : ControllerKeeps s u) (hc : Continues s u)
    (hf : s.fsm ≠ .idle) : ControllerStep s (finish l u) := by
  obtain ⟨h1, h2, h3, h4, h5, h6, h7, h8, h9, h10, h11⟩ := hk
  obtain ⟨-, -, -, -, -, k1, k2, k3, k4⟩ := hc
  refine ⟨?_, .inr ?_⟩ <;> constructor <;> first | exact hf | simp [*]

theorem controllerStep_validateThen {cs : List Check} {f : State → State} {s : State} (hf : s.fsm ≠ .idle)
    (h : ControllerStep s (f s)) : ControllerStep s (validateThen cs f s) := by
  rcases validateThen_cases cs f s with ⟨e, -⟩ | ⟨_, c, _, -, -, -, e⟩
  · rw [e]; exact h
  · rw [e]; exact controllerStep_raise _ _ (.refl s) (.refl s) hf

theorem controllerStep_ecbWait {s : State} (hf : s.fsm ≠ .idle) : ControllerStep s (ecbWait s) := by
  unfold ecbWait
  split
  · simp only []
    split
    · exact controllerStep_raise _ _ (by constructor <;> rfl) (by constructor <;> rfl) hf
    · split
      · exact ⟨by constructor <;> rfl, .inl (by constructor <;> rfl)⟩
      · exact controllerStep_finish _ (by constructor <;> rfl) (by constructor <;> rfl) hf
  · exact controllerStep_refl s

theorem controllerStep_cbcWait {x r : Block} {last : State → State} {s : State} (hf : s.fsm ≠ .idle)
    (hl : ∀ u, ControllerKeeps s u → Continues s u → ControllerStep s (last u)) :
    ControllerStep s (cbcWait x r last s) := by
  unfold cbcWait
  split
  · simp only []
    split
    · exact controllerStep_raise _ _ (by constructor <;> rfl) (by constructor <;> rfl) hf
    · split
      · exact ⟨by constructor <;> rfl, .inl (by constructor <;> rfl)⟩
      · exact hl _ (by constructor <;> rfl) (by constructor <;> rfl)
  · exact controllerStep_refl s

theorem controllerStep_pure {s t : State} (hk : ControllerKeeps s t) (hc : Continues s t) : ControllerStep s t :=
  ⟨hk, .inl hc⟩

theorem controllerStep_padSetup {s : State} : ControllerStep s (padSetup s) := by
  exact controllerStep_pure (by constructor <;> rfl) (by constructor <;> rfl)

theorem controllerStep_unpadSetup {s : State} : ControllerStep s (unpadSetup s) := by
  exact controllerStep_pure (by constructor <;> rfl) (by constructor <;> rfl)

theorem controllerStep_cbcSetup {n : Nat} {s : State} : ControllerStep s (cbcSetup n s) := by
  exact controllerStep_pure (by constructor <;> rfl) (by constructor <;> rfl)

theorem controllerStep_ecbSetup {s : State} (hf : s.fsm ≠ .idle) : ControllerStep s (ecbSetup s) := by
  unfold ecbSetup
  simp only []
  split
  · exact controllerStep_finish _ (by constructor <;> rfl) (by constructor <;> rfl) hf
  · exact controllerStep_pure (by constructor <;> rfl) (by constructor <;> rfl)

theorem controllerStep_padCopy {s : State} (hf : s.fsm ≠ .idle) : ControllerStep s (padCopy s) :=
  controllerStep_finish _ (by constructor <;> rfl) (by constructor <;> rfl) hf

theorem controllerStep_unpadCopy {s : State} (hf : s.fsm ≠ .idle) : ControllerStep s (unpadCopy s) :=
  controllerStep_finish _ (by constructor <;> rfl) (by constructor <;> rfl) hf

theorem controllerStep_unpadCheck {s : State} (hf : s.fsm ≠ .idle) : ControllerStep s (unpadCheck s) := by
  unfold unpadCheck
  split
  · exact controllerStep_raise _ _ (.refl s) (.refl s) hf
  · exact controllerStep_pure (by constructor <;> rfl) (by constructor <;> rfl)

theorem controllerStep_cbcDecCheck {s : State} (hf : s.fsm ≠ .idle) : ControllerStep s (cbcDecCheck s) := by
  unfold cbcDecCheck
  split
  · exact controllerStep_raise _ _ (.refl s) (.refl s) hf
  · exact controllerStep_finish _ (.refl s) (.refl s) hf

theorem controllerStep_cbcEncWait {s : State} (hf : s.fsm ≠ .idle) : ControllerStep s (cbcEncWait s) :=
  controllerStep_cbcWait hf fun _ hk hc => controllerStep_finish _ hk hc hf

theorem controllerStep_cbcDecWait {s : State} (hf : s.fsm ≠ .idle) : ControllerStep s (cbcDecWait s) := by
  refine controllerStep_cbcWait hf fun u hk hc => ⟨?_, .inl ?_⟩
  · obtain ⟨h1, h2, h3, h4, h5, h6, h7, h8, h9, h10, h11⟩ := hk
    constructor <;> assumption
  · obtain ⟨h1, h2, h3, h4, h5, h6, h7, h8, h9⟩ := hc
    constructor <;> assumption

theorem controllerStep_ecbLoad {d : Direction} {s : State} : ControllerStep s (ecbLoad d s) := by
  unfold ecbLoad
  split
  · exact controllerStep_pure (by constructor <;> rfl) (by constructor <;> rfl)
  · exact controllerStep_refl s

theorem controllerStep_cbcEncLoad {s : State} : ControllerStep s (cbcEncLoad s) := by
  unfold cbcEncLoad
  split
  · exact controllerStep_pure (by constructor <;> rfl) (by constructor <;> rfl)
  · exact controllerStep_refl s

theorem controllerStep_cbcDecLoad {s : State} : ControllerStep s (cbcDecLoad s) := by
  unfold cbcDecLoad
  split
  · exact controllerStep_pure (by constructor <;> rfl) (by constructor <;> rfl)
  · exact controllerStep_refl s

/-- What `exec` can do, for every command in every controller state. -/
theorem exec_controllerStep {i : Instr} {s t : State} (h : exec i s = .next t) : ControllerStep s t := by
  cases i <;> simp only [exec, execPad, execUnpad, execEcbEnc, execEcbDec, execCbcEnc, execCbcDec] at h <;>
    split at h <;> cases h
  all_goals
    rename_i hf
    first
    | exact controllerStep_refl s
    | exact controllerStep_validateThen (by simp [hf]) controllerStep_padSetup
    | exact controllerStep_validateThen (by simp [hf]) controllerStep_unpadSetup
    | exact controllerStep_validateThen (by simp [hf]) controllerStep_cbcSetup
    | exact controllerStep_validateThen (by simp [hf]) (controllerStep_ecbSetup (by simp [hf]))
    | exact controllerStep_padCopy (by simp [hf])
    | exact controllerStep_unpadCopy (by simp [hf])
    | exact controllerStep_unpadCheck (by simp [hf])
    | exact controllerStep_ecbLoad
    | exact controllerStep_ecbWait (by simp [hf])
    | exact controllerStep_cbcEncLoad
    | exact controllerStep_cbcDecLoad
    | exact controllerStep_cbcEncWait (by simp [hf])
    | exact controllerStep_cbcDecWait (by simp [hf])
    | exact controllerStep_cbcDecCheck (by simp [hf])

/-- What the controller's turn can do. -/
theorem controllerTurn_controllerStep {s t : State} (h : controllerTurn s = .next t) : ControllerStep s t := by
  unfold controllerTurn at h
  split at h
  · cases h; exact controllerStep_refl _
  · rename_i hf
    split at h
    · exact exec_controllerStep h
    · cases h; exact controllerStep_raise _ _ (.refl s) (.refl s) (by simp [hf])
  all_goals
    split at h
    · exact exec_controllerStep h
    · cases h; exact controllerStep_refl _

end Sys2Proof.Machine
end

