-- ==== Sys2Proof/Laws/Host.lean ====
section
/-! SUPPORT. The host agent: an access within the contract is one step, and what stands at the offsets of the two
windows. -/

namespace Sys2Proof.Machine

/-- A full-word access at an aligned offset of the window is one atomic step (20_memory.md R51, R53). -/
theorem hostAccess_word (s : State) {off : Nat} (k : AccessKind) (h4 : off % 4 = 0) (hl : off < 0x40000) :
    hostAccess (wordAccess s.params off k) s = .next (busAccess off k s) := by
  have h1 : (wordAccess s.params off k).fullWidth = true := rfl
  have h2 : (wordAccess s.params off k).offset s.params = off := by simp [wordAccess, Access.offset]
  have h3 : (wordAccess s.params off k).inWindow s.params = true := by
    simp [wordAccess, Access.inWindow, Config.windowSize]; omega
  have h5 : (wordAccess s.params off k).aligned s.params = true := by simp [Access.aligned, h2, h4]
  have h6 : (wordAccess s.params off k).allLanes = true := rfl
  simp only [hostAccess, h1, h2, h3, h5, h6]; rfl

/-- An access within the contract is one atomic step (20_memory.md R50). -/
theorem hostAccess_wf {s : State} {a : Access} (h : a.wf s.params = true) :
    hostAccess a s = .next (busAccess (a.offset s.params) a.kind s) ∧ a.offset s.params % 4 = 0 ∧
      a.offset s.params < 0x40000 := by
  simp only [Access.wf, Bool.and_eq_true] at h
  obtain ⟨⟨⟨h1, h2⟩, h3⟩, h4⟩ := h
  refine ⟨by simp only [hostAccess, h1, h2, h3, h4]; rfl, by simpa [Access.aligned] using h3, ?_⟩
  simp only [Access.inWindow, Bool.and_eq_true, decide_eq_true_eq] at h2
  unfold Config.windowSize at h2; unfold Access.offset; omega

/-- The window offsets of the IN window (20_memory.md R46). -/
theorem targetAt_in {off : Nat} (h1 : 0x10000 ≤ off) (h2 : off < 0x20000) :
    targetAt off = .inWindow (off - 0x10000) := by
  unfold targetAt
  have a1 : ¬(off < Config.regsEnd) := by unfold Config.regsEnd; omega
  have a2 : ¬(off < Config.inBase) := by unfold Config.inBase; omega
  have a3 : off < Config.outBase := by unfold Config.outBase; omega
  rw [if_neg a1, if_neg a2, if_pos a3]; rfl

/-- The window offsets of the OUT window (20_memory.md R46). -/
theorem targetAt_out {off : Nat} (h1 : 0x20000 ≤ off) (h2 : off < 0x30000) :
    targetAt off = .outWindow (off - 0x20000) := by
  unfold targetAt
  have a1 : ¬(off < Config.regsEnd) := by unfold Config.regsEnd; omega
  have a2 : ¬(off < Config.inBase) := by unfold Config.inBase; omega
  have a3 : ¬(off < Config.outBase) := by unfold Config.outBase; omega
  have a4 : off < Config.outEnd := by unfold Config.outEnd; omega
  rw [if_neg a1, if_neg a2, if_neg a3, if_pos a4]; rfl

/-- The reserved offsets outside the register region (20_memory.md R46). -/
theorem targetAt_reserved {off : Nat} (h : (0x100 ≤ off ∧ off < 0x10000) ∨ 0x30000 ≤ off) :
    targetAt off = .reserved := by
  unfold targetAt
  have a1 : ¬(off < Config.regsEnd) := by unfold Config.regsEnd; omega
  rw [if_neg a1]
  rcases h with h | h
  · have a2 : off < Config.inBase := by unfold Config.inBase; omega
    rw [if_pos a2]
  · have a2 : ¬(off < Config.inBase) := by unfold Config.inBase; omega
    have a3 : ¬(off < Config.outBase) := by unfold Config.outBase; omega
    have a4 : ¬(off < Config.outEnd) := by unfold Config.outEnd; omega
    rw [if_neg a2, if_neg a3, if_neg a4]

/-- The offsets of the register file (10_state.md R17). -/
theorem targetAt_regOffset (r : Reg) : targetAt (regOffset r) = .reg r := by
  cases r with
  | key i => revert i; decide
  | iv i => revert i; decide
  | _ => rfl

/-- A register stands at its own offset only (10_state.md R17). -/
theorem eq_regOffset_of_targetAt {off : Nat} {r : Reg} (h : targetAt off = .reg r) : off = regOffset r := by
  unfold targetAt at h
  split at h
  · split at h
    · rename_i r' hr
      cases h
      have he := List.find?_some hr
      simp only [beq_iff_eq] at he
      exact he.symm
    · cases h
  · repeat' split at h
    all_goals cases h

/-- The IN window stands at its offsets only (20_memory.md R46). -/
theorem eq_of_targetAt_inWindow {off i : Nat} (h : targetAt off = .inWindow i) : off = Config.inBase + i := by
  unfold targetAt at h
  split at h
  · split at h <;> cases h
  · split at h
    · cases h
    · rename_i h2
      split at h
      · have hi := Target.inWindow.inj h
        omega
      · split at h <;> cases h

/-- What a host write can do (20_memory.md R53): nothing; the write of CTRL, of STATUS or of CMD; or the write of an input,
through the input write gate, to the fields of the inputs alone. -/
theorem busWrite_cases (off : Nat) (v : Word) (s : State) :
    busWrite off v s = s ∨
      (off = 0x004 ∧ busWrite off v s = writeCtrl v s) ∨
      (off = 0x008 ∧ busWrite off v s = writeStatus v s) ∨
      (off = 0x00C ∧ busWrite off v s = writeCmd v s) ∨
      (isInputOffset s.params off = true ∧ ∃ f : State → State, busWrite off v s = inputWrite f s ∧
        f s = { s with
          padBs := (f s).padBs, inLen := (f s).inLen, key := (f s).key, keyLd := (f s).keyLd, iv := (f s).iv,
          ivLd := (f s).ivLd, mem := (f s).mem }) := by
  have hkey : ∀ (p : Params) (i : Fin 4), isInputOffset p (0x030 + 4 * i.val) = true ∧
      isInputOffset p (0x040 + 4 * i.val) = true := by
    intro p i
    match i with
    | 0 => exact ⟨rfl, rfl⟩
    | 1 => exact ⟨rfl, rfl⟩
    | 2 => exact ⟨rfl, rfl⟩
    | 3 => exact ⟨rfl, rfl⟩
  cases ht : targetAt off with
  | reg r =>
    have ho := eq_regOffset_of_targetAt ht
    have hw : busWrite off v s = writeReg r v s := by simp only [busWrite, ht]
    cases r with
    | ctrl => exact .inr (.inl ⟨ho, hw⟩)
    | status => exact .inr (.inr (.inl ⟨ho, hw⟩))
    | cmd => exact .inr (.inr (.inr (.inl ⟨ho, hw⟩)))
    | padBs =>
      exact .inr (.inr (.inr (.inr
        ⟨by rw [ho]; rfl, fun t => { t with padBs := v.extractLsb' 0 8 }, hw, rfl⟩)))
    | inLen => exact .inr (.inr (.inr (.inr ⟨by rw [ho]; rfl, fun t => { t with inLen := v }, hw, rfl⟩)))
    | key i => exact .inr (.inr (.inr (.inr ⟨by rw [ho]; exact (hkey _ i).1, writeKeyWord i v, hw, rfl⟩)))
    | iv i => exact .inr (.inr (.inr (.inr ⟨by rw [ho]; exact (hkey _ i).2, writeIvWord i v, hw, rfl⟩)))
    | id => exact .inl hw
    | outLen => exact .inl hw
    | blkIdx => exact .inl hw
    | loaded => exact .inl hw
    | cap => exact .inl hw
  | inWindow i =>
    have ho := eq_of_targetAt_inWindow ht
    have hw : busWrite off v s = writeIn i v s := by simp only [busWrite, ht]
    by_cases hi : i < s.params.bufBytes
    · refine .inr (.inr (.inr (.inr ⟨?_,
        fun t => { t with mem := writeBytes t.mem (Config.inBase + i) (wordBytes v) },
        by rw [hw, writeIn, if_pos hi], rfl⟩)))
      rw [isInputOffset, Bool.or_eq_true, Bool.and_eq_true, decide_eq_true_eq, decide_eq_true_eq]
      unfold Config.inBase at ho
      exact .inr (by omega)
    · exact .inl (by rw [hw, writeIn, if_neg hi])
  | outWindow i => exact .inl (by simp only [busWrite, ht])
  | reserved => exact .inl (by simp only [busWrite, ht])

/-- What BUF_BYTES can be (00_scope.md R6). -/
theorem params_bounds {p : Params} (h : p.wf = true) :
    p.bufBytes % 16 = 0 ∧ 16 ≤ p.bufBytes ∧ p.bufBytes ≤ 65280 := by
  simp only [Params.wf, Bool.and_eq_true, decide_eq_true_eq, beq_iff_eq] at h
  unfold Config.blockSize at h; omega

end Sys2Proof.Machine
end

