-- ==== Sys2Proof/Laws/PerInstr.lean ====
section
/-! SUPPORT. Statements made once per command, about its encoding (30_encoding.md R65, R67, R68). -/

namespace Sys2Proof.Laws

/-- Of the words with the command's OPCODE, the one with RSV = 0 is the command and every other is RSVD_BITS; and the
command's own word is the opcode table's row. -/
def OpcodeFamily.Statement (i : Instr) : Prop :=
  (∀ w : Word, opcodeField w = encodeOpcode i →
    decode w = if rsvClear w then .command i else .illegal .rsvdBits) ∧
  decodeTableWord 32 (encode i).toNat = some i

theorem OpcodeFamily.pad : OpcodeFamily.Statement .pad :=
  ⟨fun w h => by unfold decode; rw [h]; rfl, by decide⟩

theorem OpcodeFamily.unpad : OpcodeFamily.Statement .unpad :=
  ⟨fun w h => by unfold decode; rw [h]; rfl, by decide⟩

theorem OpcodeFamily.ecbEnc : OpcodeFamily.Statement .ecbEnc :=
  ⟨fun w h => by unfold decode; rw [h]; rfl, by decide⟩

theorem OpcodeFamily.ecbDec : OpcodeFamily.Statement .ecbDec :=
  ⟨fun w h => by unfold decode; rw [h]; rfl, by decide⟩

theorem OpcodeFamily.cbcEnc : OpcodeFamily.Statement .cbcEnc :=
  ⟨fun w h => by unfold decode; rw [h]; rfl, by decide⟩

theorem OpcodeFamily.cbcDec : OpcodeFamily.Statement .cbcDec :=
  ⟨fun w h => by unfold decode; rw [h]; rfl, by decide⟩

end Sys2Proof.Laws
end

