-- ==== Sys2Proof/Tests/Slice0.lean ====
section
/-! SUPPORT. Small tests of the model against the spec's encodings and test vectors (95_test_vectors.md), and for every
statement with hypotheses a concrete state that meets them. -/

namespace Sys2Proof.Tests

open Sys2Proof.Machine

/-! ## The spec's toy cipher (95_test_vectors.md section 1) -/

def toyEnc (k b : Block) : Block := blockOfFn fun i => blockByte b ((i + 1) % 16) ^^^ blockByte k i

def toyDec (k c : Block) : Block :=
  blockOfFn fun i => blockByte c ((i + 15) % 16) ^^^ blockByte k ((i + 15) % 16)

theorem toyDec_toyEnc (k b : Block) : toyDec k (toyEnc k b) = b := block_ext fun i hi => by
  rw [toyDec, blockByte_blockOfFn _ hi, toyEnc, blockByte_blockOfFn _ (by omega), BitVec.xor_assoc, BitVec.xor_self,
    BitVec.xor_zero]
  congr 1; omega

theorem toyEnc_toyDec (k c : Block) : toyEnc k (toyDec k c) = c := block_ext fun i hi => by
  rw [toyEnc, blockByte_blockOfFn _ hi, toyDec, blockByte_blockOfFn _ (by omega), BitVec.xor_assoc]
  rw [show ((i + 1) % 16 + 15) % 16 = i by omega, BitVec.xor_self, BitVec.xor_zero]

def toyPerm (k : Block) : Equiv.Perm Block := ⟨toyEnc k, toyDec k, toyDec_toyEnc k, toyEnc_toyDec k⟩

/-- "YELLOW SUBMARINE" (V1, V10, V20). -/
def yellow : List Byte :=
  [0x59, 0x45, 0x4c, 0x4c, 0x4f, 0x57, 0x20, 0x53, 0x55, 0x42, 0x4d, 0x41, 0x52, 0x49, 0x4e, 0x45]

/-- "1234123412341234" (V10, V20). -/
def digits : List Byte :=
  [0x31, 0x32, 0x33, 0x34, 0x31, 0x32, 0x33, 0x34, 0x31, 0x32, 0x33, 0x34, 0x31, 0x32, 0x33, 0x34]

def key : Block := blockOfBytes yellow

/-- The first ciphertext block of V10 and V20. -/
def cipher1 : List Byte :=
  [0x6b, 0x76, 0x78, 0x7d, 0x7d, 0x64, 0x14, 0x62, 0x67, 0x71, 0x79, 0x70, 0x60, 0x7a, 0x7a, 0x74]

/-- The second ciphertext block of V20. -/
def cipher2 : List Byte :=
  [0x1d, 0x33, 0x3f, 0x3f, 0x25, 0x4d, 0x4c, 0x3a, 0x2a, 0x35, 0x33, 0x2f, 0x26, 0x3d, 0x34, 0x1f]

/-! ## Well-formedness: an ill-formed term for each check (00_scope.md R6; 20_memory.md R50; 30_encoding.md R68) -/

theorem test_wf_opcode_zero : opcodeLegal 0x00000000 = false := by decide
theorem test_wf_opcode_seven : opcodeLegal 0x00000007 = false := by decide
theorem test_wf_reserved_bit : rsvClear 0x00000010 = false := by decide
theorem test_wf_word_reserved : commandWordWf 0x80000001 = false := by decide
theorem test_wf_word_legal : commandWordWf 0x00000006 = true := by decide

def goodAccess : Access := { addr := 0x4000C, width := 4, lanes := 0xF, kind := .read }
def goodParams : Params := { regBase := 0x40000, bufBytes := 16 }

theorem test_wf_access : goodAccess.wf goodParams = true := by decide
theorem test_wf_access_width : { goodAccess with width := 2 }.wf goodParams = false := by decide
theorem test_wf_access_lanes : { goodAccess with lanes := 0x7 }.wf goodParams = false := by decide
theorem test_wf_access_misaligned : { goodAccess with addr := 0x4000E }.wf goodParams = false := by decide
theorem test_wf_access_below : { goodAccess with addr := 0x3FFFC }.wf goodParams = false := by decide
theorem test_wf_access_above : { goodAccess with addr := 0x80000 }.wf goodParams = false := by decide
theorem test_wf_params : goodParams.wf = true ∧ Config.resetParams.wf = true := by decide
theorem test_wf_params_multiple : { goodParams with bufBytes := 24 }.wf = false := by decide
theorem test_wf_params_small : { goodParams with bufBytes := 0 }.wf = false := by decide
theorem test_wf_params_large : { goodParams with bufBytes := 65296 }.wf = false := by decide
theorem test_wf_params_base : { goodParams with regBase := 0x1000 }.wf = false := by decide

/-! ## Decoding: the words of R67, RSV in bits 31 to 4 and OPCODE in bits 3 to 0 -/

theorem test_decode_pad : decode 0b00000000000000000000000000000001 = .command .pad := by decide
theorem test_decode_unpad : decode 0b00000000000000000000000000000010 = .command .unpad := by decide
theorem test_decode_ecbEnc : decode 0b00000000000000000000000000000011 = .command .ecbEnc := by decide
theorem test_decode_ecbDec : decode 0b00000000000000000000000000000100 = .command .ecbDec := by decide
theorem test_decode_cbcEnc : decode 0b00000000000000000000000000000101 = .command .cbcEnc := by decide
theorem test_decode_cbcDec : decode 0b00000000000000000000000000000110 = .command .cbcDec := by decide
theorem test_decode_bad_opcode : decode 0b11110000000000000000000000001111 = .illegal .badOpcode := by decide
theorem test_decode_rsvd_bits : decode 0b00000000000000000000000000010101 = .illegal .rsvdBits := by decide
theorem test_decode_table_word : decodeTableWord 32 5 = some .cbcEnc ∧ decodeTableWord 32 0x25 = none := by decide

/-! ## The byte functions (V1, V2, V10, V11, V20, V21) -/

theorem test_pad_V1 : pad 20 yellow = yellow ++ [4, 4, 4, 4] := by decide
theorem test_unpad_V2 : unpad 20 (yellow ++ [4, 4, 4, 4]) = .bytes yellow := by decide
theorem test_ecbEnc_V10 : ecbEnc toyPerm key digits = cipher1 := by decide
theorem test_ecbDec_V11 : ecbDec toyPerm key cipher1 = digits := by decide
theorem test_cbcEnc_V20 : cbcEnc toyPerm key 0 (digits ++ [0x31, 0x32]) = cipher1 ++ cipher2 := by decide
theorem test_cbcDec_V21 : cbcDec toyPerm key 0 (cipher1 ++ cipher2) = .bytes (digits ++ [0x31, 0x32]) := by
  decide

/-! ## Small states -/

/-- The device right after a command word was accepted, with the inputs left as reset has them. -/
def start (w : Word) (agenda : List Event) : State :=
  { State.reset with cmd := w, opc := opcodeField w, busy := true, fsm := .validate, agenda := agenda }

/-- The device at VALIDATE of `i` with key and IV loaded and `n` input bytes. -/
def ready (i : Instr) (n : Word) (agenda : List Event) : State :=
  { start (encode i) agenda with keyLd := 0xF, ivLd := 0xF, inLen := n }

/-- The device in a later controller state of `i`, with `n` input bytes `d` from `IN[0]` up. -/
def during (i : Instr) (f : Fsm) (d : List Byte) : State :=
  { ready i (BitVec.ofNat 32 d.length) [] with fsm := f, mem := writeBytes [] 0x10000 d, key := key }

/-- The response `b` waits at the port. -/
def answered (b : Block) (fail : Bool) (s : State) : State :=
  { s with port := { s.port with rspValid := true, rspData := b, rspFail := fail } }

/-- The answer is a next state that `p` accepts. -/
def nextIs (o : Host.Outcome State Fault Refusal) (p : State → Bool) : Bool :=
  match o with
  | .next t => p t
  | .fault _ => false
  | .refused _ => false

/-! ## One controller step of each command -/

/-- R78: n = 16, p = 20 gives L = 20. -/
theorem test_pad_validate :
    nextIs (exec .pad { ready .pad 16 [] with padBs := 20 }) (fun t => t.fsm == .copy && t.len == 20) = true := by decide

/-- V1: the four padding bytes, then zeros. -/
theorem test_pad_copy :
    nextIs (exec .pad { during .pad .copy yellow with len := 20 }) (fun t =>
      outSeq t 21 == yellow ++ [4, 4, 4, 4, 0] && statusWord t == 0x00000002 && t.outLen == 20 && t.keyLd == 0xF) =
      true := by decide

/-- V40: the last byte 4 of 8 bytes leaves L = 4. -/
theorem test_unpad_check :
    nextIs (exec .unpad { during .unpad .check [0x61, 0x62, 0x63, 0x64, 4, 4, 4, 4] with padBs := 4 })
      (fun t => t.fsm == .copy && t.len == 4) = true := by decide

/-- R76: the last byte 4 above p = 3. -/
theorem test_unpad_check_gt_bs :
    nextIs (exec .unpad { during .unpad .check [1, 2, 4] with padBs := 3 }) (fun t => statusWord t == 0x000a0206) =
      true := by decide

/-- R99: the block in lane order, REQ_DIR = 0. -/
theorem test_ecbEnc_load :
    nextIs (exec .ecbEnc (during .ecbEnc .load digits)) (fun t =>
      t.port.reqData == blockOfBytes digits && t.port.reqDir == .encrypt && t.port.reqKey == key && t.fsm == .wait) =
      true := by decide

/-- R96: n = 0 succeeds and consumes the key, not the IV. -/
theorem test_ecbEnc_empty :
    nextIs (exec .ecbEnc (ready .ecbEnc 0 [])) (fun t =>
      statusWord t == 0x00000002 && t.outLen == 0 && loadedWord t == 0xF0) = true := by decide

/-- R99: REQ_DIR = 1. -/
theorem test_ecbDec_load :
    nextIs (exec .ecbDec (during .ecbDec .load cipher1)) (fun t =>
      t.port.reqData == blockOfBytes cipher1 && t.port.reqDir == .decrypt) = true := by decide

/-- R100, R115: a rejected request; BLK_IDX stays. -/
theorem test_ecbDec_fail :
    nextIs (exec .ecbDec (answered 0x5555 true (during .ecbDec .wait cipher1))) (fun t =>
      statusWord t == 0x000c0306 && t.blkIdx == 0 && outSeq t 2 == [0, 0] && t.key == 0 && !t.port.rspValid) = true := by
  decide

/-- R104: the empty plaintext gives a block of sixteen 0x10 XOR RIV. -/
theorem test_cbcEnc_load_empty :
    nextIs (exec .cbcEnc { during .cbcEnc .load [] with riv := 0x1 }) (fun t =>
      t.blk == 0x10101010101010101010101010101011 && t.port.reqDir == .encrypt) = true := by decide

/-- R109: the ciphertext block is the output and the next running IV. -/
theorem test_cbcEnc_wait :
    nextIs (exec .cbcEnc { answered (blockOfBytes cipher1) false (during .cbcEnc .wait digits) with nb := 2 })
      (fun t => outSeq t 17 == cipher1 ++ [0] && t.riv == blockOfBytes cipher1 && t.blkIdx == 1 && t.fsm == .load) =
      true := by decide

/-- R109: the output uses the running IV before it is updated. -/
theorem test_cbcDec_wait :
    nextIs (exec .cbcDec
        { answered (blockOfBytes digits) false (during .cbcDec .wait cipher1) with nb := 1, riv := 0x0F })
      (fun t => outSeq t 2 == [0x3e, 0x32] && t.riv == blockOfBytes cipher1 && t.fsm == .check) = true := by
  decide

/-- V5: a final byte of 17 fails with PAD_GT_BS and consumes key and IV. -/
theorem test_cbcDec_check :
    nextIs (exec .cbcDec { during .cbcDec .check [] with len := 16, mem := writeBytes [] 0x2000F [0x11] }) (fun t =>
      statusWord t == 0x000a0206 && t.outLen == 0 && outSeq t 16 == List.replicate 16 0 && loadedWord t == 0) = true := by
  decide

/-! ## Status words and reads -/

/-- The STATUS words of the outcomes (95_test_vectors.md, quick reference). -/
theorem test_status_words :
    let s := { State.reset with done := true }
    statusWord s = 0x00000002 ∧
    statusWord { s with errCode := .invalidParameter, errDetail := .keyLen } = 0x00030106 ∧
    statusWord { s with errCode := .invalidParameter, errDetail := .ivLen } = 0x00040106 ∧
    statusWord { s with errCode := .invalidParameter, errDetail := .zeroBs } = 0x00050106 ∧
    statusWord { s with errCode := .invalidParameter, errDetail := .lenRange } = 0x00060106 ∧
    statusWord { s with errCode := .invalidParameter, errDetail := .unaligned } = 0x00070106 ∧
    statusWord { s with errCode := .invalidParameter, errDetail := .empty } = 0x00080106 ∧
    statusWord { s with errCode := .corruptPadding, errDetail := .padZero } = 0x00090206 ∧
    statusWord { s with errCode := .corruptPadding, errDetail := .padGtLen } = 0x000b0206 ∧
    statusWord { s with errCode := .illegalCommand, errDetail := .badOpcode } = 0x00010406 ∧
    statusWord { s with errCode := .illegalCommand, errDetail := .rsvdBits } = 0x00020406 ∧
    statusWord { s with done := false, busy := true, fsm := .validate } = 0x01000001 ∧
    statusWord { s with done := false, busy := true, fsm := .load } = 0x02000001 ∧
    statusWord { s with done := false, busy := true, fsm := .wait } = 0x03000001 ∧
    statusWord { s with done := false, busy := true, fsm := .copy } = 0x04000001 ∧
    statusWord { s with done := false, busy := true, fsm := .check } = 0x05000001 := by decide

/-- V90: what a host reads right after reset. -/
theorem test_reads_after_reset :
    busValue 0x000 State.reset = 0x43424301 ∧ busValue 0x008 State.reset = 0 ∧ busValue 0x010 State.reset = 0x10 ∧
      busValue 0x024 State.reset = 0x1000 ∧ busValue 0x030 State.reset = 0 ∧ busValue 0x028 State.reset = 0 ∧
      busValue 0x11000 State.reset = 0 ∧ busValue 0x20000 State.reset = 0 := by decide

/-- R33: KEY2 holds key bytes 8 to 11, byte 8 in its low bits. -/
theorem test_key_write :
    nextIs (hostAccess (wordAccess Config.resetParams 0x038 (.write 0x44332211)) State.reset) (fun t =>
      t.keyLd == 0x4 && blockByte t.key 8 == 0x11 && blockByte t.key 11 == 0x44 && blockByte t.key 7 == 0) = true := by
  decide

/-- R47: little-endian packing of IN. -/
theorem test_in_write :
    nextIs (hostAccess (wordAccess Config.resetParams 0x10004 (.write 0x64636261)) State.reset)
      (fun t => inSeq t 9 == [0, 0, 0, 0, 0x61, 0x62, 0x63, 0x64, 0] && t.mem.length == 4) = true := by decide

/-- The fetch word is accepted and its first step is VALIDATE of its command. -/
theorem test_withFetchWord :
    nextIs (step (State.reset.withFetchWord 32 3)) (fun t => statusWord t == 0x00030106 && t.cmd == 3) = true := by
  decide

/-! ## States that meet the invariant -/

theorem inv_start (w : Word) (agenda : List Event) : Inv (start w agenda) := by
  refine ⟨⟨Memory.wf_nil, by simp [start, State.reset, Memory.inBounds]⟩, ?_, fun h => ?_⟩
  · constructor <;> simp [start, State.reset, Config.resetParams, legalError, CipherPort.reset]
    decide
  · simp [start] at h

theorem inv_ready (i : Instr) (n : Word) (agenda : List Event) : Inv (ready i n agenda) := by
  refine ⟨⟨Memory.wf_nil, by simp [ready, start, State.reset, Memory.inBounds]⟩, ?_, fun h => ?_⟩
  · constructor <;> simp [ready, start, State.reset, Config.resetParams, legalError, CipherPort.reset]
    decide
  · simp [ready, start] at h

/-- An idle device: `e` and `d` the outcome of its last command, which left no result. -/
def idle (ie done : Bool) (e : ErrCode) (d : ErrDetail) (agenda : List Event) : State :=
  { State.reset with ie := ie, done := done, errCode := e, errDetail := d, agenda := agenda }

theorem inv_idle (ie done : Bool) (e : ErrCode) (d : ErrDetail) (agenda : List Event) (h : legalError e d = true) :
    Inv (idle ie done e d agenda) := by
  refine ⟨⟨Memory.wf_nil, by simp [idle, State.reset, Memory.inBounds]⟩, ?_, fun _ => ⟨?_, ?_, ?_⟩⟩
  · constructor <;> simp [idle, State.reset, Config.resetParams, CipherPort.reset, h]
    decide
  · simp [idle, State.reset]
  · intro i _
    unfold outByte
    split <;> rfl
  · intro _
    simp [idle, State.reset]

theorem readyToRun (i : Instr) (n : Word) (agenda : List Event) (h : operandsValid i (ready i n agenda)) :
    ReadyToRun i (ready i n agenda) := by
  refine ⟨⟨rfl, ?_, h⟩, rfl, rfl, ⟨rfl, rfl⟩, by simp [ready, start, State.reset]; decide, Memory.wf_nil, rfl⟩
  show decode (encode i) = .command i
  cases i <;> decide

/-! ## Witnesses: states that meet the hypotheses of the statements -/

theorem witness_DecodeEncodeAgree : Instr.wf .cbcDec = true ∧ decode 6 = .command .cbcDec := by decide

theorem witness_StepRunsTheDecodedCommand_validate :
    (start 6 []).fsm = .validate ∧ decode (start 6 []).cmd = .command .cbcDec ∧ (start 6 []).agenda = [] ∧
      (start 1 [.controller]).fsm = .validate ∧ decode (start 1 [.controller]).cmd = .command .pad ∧
      (start 1 [.controller]).agenda = .controller :: [] := by decide

theorem witness_StepRunsTheDecodedCommand_later :
    let s := during .ecbEnc .load digits
    s.fsm ≠ .idle ∧ s.fsm ≠ .validate ∧ opcodeInstr s.opc = some .ecbEnc ∧ s.agenda = [] ∧
      hasStepRule .ecbEnc s.fsm = true ∧ portReady s = true := by decide

theorem witness_IllegalCommandFailsAtValidate :
    let s := start 0x00000010 [.controller]
    let r := start 0x00000016 [.controller]
    s.fsm = .validate ∧ decode s.cmd = .illegal .badOpcode ∧ s.agenda = .controller :: [] ∧
      decode r.cmd = .illegal .rsvdBits ∧ r.agenda = .controller :: [] := by decide

/-- One state for each check of R73, at the boundary of its range. -/
theorem witness_ValidateReportsTheFirstFailingCheck :
    padBoundary { ready .pad 0 [] with padBs := 0 } = 0 ∧
    (padBoundary { ready .unpad 4097 [] with padBs := 1 } ≠ 0 ∧
      (ready .unpad 4097 []).params.bufBytes < inCount (ready .unpad 4097 [])) ∧
    ({ ready .ecbEnc 0 [] with keyLd := 0x7 } : State).keyLd ≠ 0xF ∧
    ((ready .ecbDec 4097 []).keyLd = 0xF ∧ (ready .ecbDec 4097 []).params.bufBytes < inCount (ready .ecbDec 4097 [])) ∧
    (inCount (ready .ecbEnc 4095 []) ≤ (ready .ecbEnc 4095 []).params.bufBytes ∧
      inCount (ready .ecbEnc 4095 []) % 16 ≠ 0) ∧
    ({ ready .cbcEnc 0 [] with ivLd := 0xE } : State).ivLd ≠ 0xF ∧
    ((ready .cbcDec 15 []).ivLd = 0xF ∧ inCount (ready .cbcDec 15 []) % 16 ≠ 0) ∧
    inCount (ready .cbcDec 0 []) = 0 := by decide

theorem witness_PaddingSetups :
    let s := { ready .pad 4096 [] with padBs := 255 }
    s.fsm = .validate ∧ s.params.wf = true ∧ padBoundary s ≠ 0 ∧ inCount s ≤ s.params.bufBytes := by decide

theorem witness_PadCopyStep :
    let s := { during .pad .copy [1, 2] with len := 4352 }
    s.fsm = .copy ∧ decode s.cmd = .command .pad ∧ Memory.wf s.mem ∧ inCount s ≤ s.len.toNat ∧
      s.len.toNat ≤ s.params.outBytes := by decide

/-- One state for each clause: n = 0; the last byte 0; above p; above n; and m = p = n. -/
theorem witness_UnpadCheckStep :
    (during .unpad .check []).fsm = .check ∧ inCount (during .unpad .check []) = 0 ∧
    (inCount (during .unpad .check [0]) ≠ 0 ∧
      (inByte (during .unpad .check [0]) (inCount (during .unpad .check [0]) - 1)).toNat = 0) ∧
    padBoundary (during .unpad .check [17]) < (inByte (during .unpad .check [17]) 0).toNat ∧
    inCount (during .unpad .check [2]) < (inByte (during .unpad .check [2]) 0).toNat ∧
    ((inByte (during .unpad .check [1]) (inCount (during .unpad .check [1]) - 1)).toNat = 1 ∧
      1 ≤ padBoundary (during .unpad .check [1]) ∧ 1 ≤ inCount (during .unpad .check [1])) := by decide

theorem witness_UnpadCopyStep :
    let s := { during .unpad .copy [1] with len := 4352 }
    s.fsm = .copy ∧ decode s.cmd = .command .unpad ∧ Memory.wf s.mem ∧ s.len.toNat ≤ s.params.outBytes := by decide

theorem witness_PadCommandResult :
    ReadyToRun .pad (ready .pad 4096 [.controller, .controller]) ∧
      (ready .pad 4096 [.controller, .controller]).agenda = [.controller, .controller] ++ [] :=
  ⟨readyToRun .pad 4096 _ (by unfold operandsValid; decide), rfl⟩

/-- The input `[1]` is a padded empty sequence; the empty input is corrupt. -/
theorem witness_UnpadCommandResult :
    ReadyToRun .unpad { during .unpad .validate [1] with agenda := [.controller, .controller, .controller] } ∧
      unpad (padBoundary (during .unpad .validate [1]))
        (inSeq (during .unpad .validate [1]) (inCount (during .unpad .validate [1]))) = .bytes [] ∧
      ReadyToRun .unpad (ready .unpad 0 [.controller, .controller]) ∧
      unpad (padBoundary (ready .unpad 0 [.controller, .controller]))
        (inSeq (ready .unpad 0 [.controller, .controller]) (inCount (ready .unpad 0 [.controller, .controller]))) =
        .corruptPadding .empty :=
  ⟨⟨⟨rfl, by decide, by unfold operandsValid; decide⟩, rfl, rfl, ⟨rfl, rfl⟩, by decide, by decide, rfl⟩, by decide,
    readyToRun .unpad 0 _ (by unfold operandsValid; decide), by decide⟩

theorem witness_PaddingLaws : 1 ≤ 255 ∧ 255 ≤ 255 ∧ padcheck 255 [1] = .ok 1 := by decide

theorem witness_EcbSetups :
    let s := ready .ecbEnc 4096 []
    s.fsm = .validate ∧ s.params.wf = true ∧ s.keyLd = 0xF ∧ inCount s ≤ s.params.bufBytes ∧ inCount s % 16 = 0 ∧
      inCount s ≠ 0 ∧ inCount (ready .ecbDec 0 []) = 0 ∧ decode (ready .ecbDec 0 []).cmd = .command .ecbDec := by decide

theorem witness_EcbLoadStep :
    (during .ecbDec .load cipher1).fsm = .load ∧ (during .ecbDec .load cipher1).port.reqValid = false ∧
      (during .ecbDec .load cipher1).port.rspValid = false ∧
      (answered 0 false (during .ecbDec .load cipher1)).port.rspValid = true := by decide

/-- One state for each clause: no response; a failed one; a block before the last; the last block. -/
theorem witness_EcbWaitStep :
    let s := during .ecbEnc .wait digits
    s.fsm = .wait ∧ Memory.wf s.mem ∧ s.port.rspValid = false ∧
      (answered 0 true s).port.rspFail = true ∧
      ((answered 0 false s).port.rspFail = false ∧ ({ s with nb := 2 } : State).blkIdx.toNat + 1 < 2) ∧
      (({ s with nb := 1 } : State).nb.toNat ≤ s.blkIdx.toNat + 1 ∧ decode s.cmd = .command .ecbEnc) := by decide

theorem witness_EcbCommandResult :
    ReadyToRun .ecbEnc (ready .ecbEnc 4096 (commandTurns .ecbEnc 4096)) ∧
      ReadyToRun .ecbDec (ready .ecbDec 0 (commandTurns .ecbDec 0)) ∧
      (ready .ecbDec 0 (commandTurns .ecbDec 0)).agenda =
        commandTurns .ecbDec (inCount (ready .ecbDec 0 (commandTurns .ecbDec 0))) ++ [] :=
  ⟨readyToRun .ecbEnc 4096 _ (by unfold operandsValid; simp [inCount, ready, start, State.reset, Config.resetParams]),
    readyToRun .ecbDec 0 _ (by unfold operandsValid; decide), rfl⟩

theorem witness_EcbLaws : digits.length % 16 = 0 ∧ 0 < digits.length / 16 := by decide

theorem witness_CbcSetups :
    let s := ready .cbcDec 4096 []
    s.fsm = .validate ∧ s.params.wf = true ∧ s.keyLd = 0xF ∧ s.ivLd = 0xF ∧ inCount s ≤ s.params.bufBytes ∧
      inCount s % 16 = 0 ∧ inCount s ≠ 0 := by decide

theorem witness_CbcLoadStep :
    (during .cbcEnc .load []).fsm = .load ∧ (during .cbcEnc .load []).port.reqValid = false ∧
      (during .cbcEnc .load []).port.rspValid = false ∧
      (answered 0 false (during .cbcDec .load cipher1)).port.rspValid = true := by decide

theorem witness_CbcEncWaitStep :
    let s := during .cbcEnc .wait []
    s.fsm = .wait ∧ Memory.wf s.mem ∧ s.port.rspValid = false ∧ (answered 0 true s).port.rspFail = true ∧
      ((answered 0 false s).port.rspFail = false ∧ ({ s with nb := 2 } : State).blkIdx.toNat + 1 < 2) ∧
      (({ s with nb := 1 } : State).nb.toNat ≤ s.blkIdx.toNat + 1 ∧ decode s.cmd = .command .cbcEnc) := by decide

theorem witness_CbcDecWaitStep :
    let s := during .cbcDec .wait cipher1
    s.fsm = .wait ∧ Memory.wf s.mem ∧ s.port.rspValid = false ∧
      (answered 0 true s).port.rspValid = true ∧ (answered 0 true s).port.rspFail = true ∧
      (answered 0 false s).port.rspFail = false := by decide

/-- The CHECK state of CBC_DEC with `l` decrypted bytes, the last of them `b`. -/
def checking (l : Nat) (b : Byte) : State :=
  { during .cbcDec .check [] with len := BitVec.ofNat 32 l, mem := writeBytes [] (0x20000 + (l - 1)) [b] }

/-- One state for each clause: L = 0; last byte 0; 17; above L; and m = 16 = L. -/
theorem witness_CbcDecCheckStep :
    (checking 0 0).fsm = .check ∧ (checking 0 0).len.toNat = 0 ∧
    ((checking 16 0).len.toNat ≠ 0 ∧ (outByte (checking 16 0) 15).toNat = 0) ∧
    16 < (outByte (checking 16 17) 15).toNat ∧
    ((outByte (checking 1 2) 0).toNat ≤ 16 ∧ (checking 1 2).len.toNat < (outByte (checking 1 2) 0).toNat) ∧
    ((outByte (checking 16 16) 15).toNat = 16 ∧ (checking 16 16).len.toNat = 16 ∧
      decode (checking 16 16).cmd = .command .cbcDec) := by decide

theorem witness_PadBlockIsBlockOfPaddedInput :
    1 < inCount (during .cbcEnc .load digits) / 16 + 1 := by decide

/-- The first iteration count and the last. -/
theorem witness_CbcRunFollowsTheLoop :
    ReadyToRun .cbcEnc (ready .cbcEnc 32 (.controller :: (blocksTurns 2 ++ []))) ∧ 2 < blockCount .cbcEnc 32 ∧
      ReadyToRun .cbcDec (ready .cbcDec 16 (.controller :: (blocksTurns 0 ++ []))) ∧ 0 < blockCount .cbcDec 16 :=
  ⟨readyToRun _ _ _ (by unfold operandsValid; decide), by decide,
    readyToRun _ _ _ (by unfold operandsValid; decide), by decide⟩

theorem witness_CbcEncCommandResult :
    ReadyToRun .cbcEnc (ready .cbcEnc 0 (commandTurns .cbcEnc 0)) ∧
      (ready .cbcEnc 0 (commandTurns .cbcEnc 0)).agenda =
        commandTurns .cbcEnc (inCount (ready .cbcEnc 0 (commandTurns .cbcEnc 0))) ++ [] :=
  ⟨readyToRun _ _ _ (by unfold operandsValid; decide), rfl⟩

theorem witness_CbcDecCommandResult :
    ReadyToRun .cbcDec (ready .cbcDec 16 (commandTurns .cbcDec 16)) ∧
      (ready .cbcDec 16 (commandTurns .cbcDec 16)).agenda =
        commandTurns .cbcDec (inCount (ready .cbcDec 16 (commandTurns .cbcDec 16))) ++ [] :=
  ⟨readyToRun _ _ _ (by unfold operandsValid; decide), rfl⟩

/-- Both outcomes of R103 occur: a sequence, and CorruptPadding. -/
theorem witness_CbcDecCommandResult_outcomes :
    cbcDec toyPerm key 0 (cipher1 ++ cipher2) = .bytes (digits ++ [0x31, 0x32]) ∧
      cbcDec toyPerm key 0 cipher1 = .corruptPadding .padGtBs := by decide

theorem witness_CipherFailureAbortsTheCommand :
    ReadyToRun .ecbDec (ready .ecbDec 32 (failingTurns 1 0x5555 ++ [])) ∧ 1 < blockCount .ecbDec 32 ∧
      ReadyToRun .cbcEnc (ready .cbcEnc 0 (failingTurns 0 0 ++ [])) ∧ 0 < blockCount .cbcEnc 0 :=
  ⟨readyToRun _ _ _ (by unfold operandsValid; decide), by decide,
    readyToRun _ _ _ (by unfold operandsValid; decide), by decide⟩

theorem witness_CbcLaws :
    blockAt [] 0 = blockAt [] 1 ∧ (cbcEncLoop toyPerm key 0 [] 0).2 ≠ (cbcEncLoop toyPerm key 0 [] 1).2 := by decide

/-- A request and no response, in each direction; and a port without a request. -/
def requesting (dir : Direction) : State :=
  { during .ecbEnc .wait digits with
    port := { CipherPort.reset with reqValid := true, reqDir := dir, reqKey := key } }

theorem witness_CipherStepAnswersTheRequest :
    (requesting .encrypt).port.reqValid = true ∧ (requesting .encrypt).port.rspValid = false ∧
      (requesting .encrypt).port.reqDir = .encrypt ∧ (requesting .decrypt).port.reqDir = .decrypt ∧
      State.reset.port.reqValid = false ∧ (answered 0 false (requesting .encrypt)).port.rspValid = true := by decide

theorem witness_TurnsWithoutAStepChangeNothing :
    State.reset.fsm = .idle ∧ (requesting .decrypt).fsm = .wait ∧ (requesting .decrypt).port.rspValid = false ∧
      (answered 0 false (during .cbcDec .load cipher1)).fsm = .load ∧
      (answered 0 false (during .cbcDec .load cipher1)).port.rspValid = true ∧
      State.reset.port.reqValid = false := by decide

theorem witness_OnlyTheCipherOrAResetLeavesWait :
    let turns : List Event := [.controller, rdTurn Config.resetParams 0x008, wrTurn Config.resetParams 0x00C 3]
    let s := { requesting .encrypt with agenda := turns }
    s.fsm = .wait ∧ s.busy = true ∧ s.port.rspValid = false ∧ s.agenda = turns ∧
      ∀ e ∈ turns, e = .controller ∨ isPlainAccess s.params e = true := by decide

theorem witness_SuccessProcedure : 4352 ≤ State.reset.params.outBytes ∧ State.reset.params.wf = true := by decide

/-- A command completes in this step. -/
def completesNow (s : State) : Bool := nextIs (step s) (fun t => s.busy && !t.busy && t.done)

/-- A completion of each kind of command, and of an illegal word. -/
theorem witness_CompletionConsumesKeyAndIv :
    (Inv (ready .ecbEnc 0 [.controller]) ∧ completesNow (ready .ecbEnc 0 [.controller]) = true) ∧
      (Inv (ready .cbcDec 0 [.controller]) ∧ completesNow (ready .cbcDec 0 [.controller]) = true) ∧
      (Inv (ready .pad 5000 [.controller]) ∧ completesNow (ready .pad 5000 [.controller]) = true) ∧
      (Inv (start 0x10 [.controller]) ∧ completesNow (start 0x10 [.controller]) = true) :=
  ⟨⟨inv_ready _ _ _, by decide⟩, ⟨inv_ready _ _ _, by decide⟩, ⟨inv_ready _ _ _, by decide⟩, inv_start _ _, by decide⟩

theorem witness_CommandWrite : State.reset.busy = false ∧ (start 1 []).busy = true := by decide

theorem witness_InputWriteGate :
    State.reset.params.wf = true ∧ Memory.wf State.reset.mem ∧ (start 1 []).params.wf = true ∧
      Memory.wf (start 1 []).mem ∧ (start 1 []).busy = true ∧ State.reset.busy = false ∧
      (0x030 + 4 * (3 : Fin 4).val = 0x03C ∧ 0x040 + 4 * (0 : Fin 4).val = 0x040) ∧
      (0x10000 ≤ 0x10FFC ∧ 0x10FFC < 0x10000 + State.reset.params.bufBytes ∧ 0x10FFC % 4 = 0) := by decide

theorem witness_IdleWrites : State.reset.busy = false := by decide

theorem witness_InWindowWriteReadsBack :
    State.reset.busy = false ∧ State.reset.params.wf = true ∧ Memory.wf State.reset.mem ∧
      4 * 1023 < State.reset.params.bufBytes := by decide

theorem witness_WordsPastTheCapacity :
    State.reset.params.wf = true ∧ 1024 < 0x4000 ∧ State.reset.params.bufBytes ≤ 4 * 1024 ∧ 1088 < 0x4000 ∧
      State.reset.params.bufBytes + 256 ≤ 4 * 1088 := by decide

theorem witness_ReadOnlyAndReservedOffsetsIgnoreWrites :
    0x024 % 4 = 0 ∧ (0x2FFFC % 4 = 0 ∧ 0x20000 ≤ 0x2FFFC ∧ 0x2FFFC < 0x30000) ∧
      (0x0FFFC % 4 = 0 ∧ 0x050 ≤ 0x0FFFC ∧ 0x0FFFC < 0x10000) ∧
      (0x3FFFC % 4 = 0 ∧ 0x30000 ≤ 0x3FFFC ∧ 0x3FFFC < 0x40000) := by decide

theorem witness_CtrlWriteStoresTheInterruptEnable : (0xFFFFFFFD : Word).getLsbD 1 = false := by decide

theorem witness_HostRead :
    State.reset.params.wf = true ∧ 0x3FFFC % 4 = 0 ∧ 0x3FFFC < 0x40000 ∧ 4 * 1023 < State.reset.params.bufBytes ∧
      4 * 1087 < State.reset.params.bufBytes + 256 ∧ (start 1 []).busy = true ∧ State.reset.busy = false := by decide

theorem witness_LoadLines :
    let s := { State.reset with agenda := expandLine Config.resetParams (.loadIn yellow) }
    let r := { State.reset with agenda := expandLine Config.resetParams (.loadKey key) }
    let u := { State.reset with agenda := expandLine Config.resetParams (.loadIv key) }
    s.busy = false ∧ s.params.wf = true ∧ Memory.wf s.mem ∧ yellow.length ≤ s.params.bufBytes ∧
      s.agenda = expandLine s.params (.loadIn yellow) ++ [] ∧ r.agenda = expandLine r.params (.loadKey key) ++ [] ∧
      u.agenda = expandLine u.params (.loadIv key) ++ [] := by decide

/-- A sequence whose last word is filled up: three of its bytes lie past the sequence. -/
theorem witness_LoadLines_filled :
    let d : List Byte := [1, 2, 3, 4, 5]
    let s := { State.reset with mem := writeBytes [] 0x10004 [9, 9, 9, 9], agenda := expandLine Config.resetParams (.loadIn d) }
    s.busy = false ∧ s.params.wf = true ∧ Memory.wf s.mem ∧ d.length ≤ s.params.bufBytes ∧
      s.agenda = expandLine s.params (.loadIn d) ++ [] ∧
      0x10000 + d.length ≤ 0x10007 ∧ 0x10007 < 0x10000 + 4 * ((d.length + 3) / 4) := by decide

theorem witness_ResetPutsEverythingAtItsResetValue : (0x00000003 : Word).getLsbD 1 = true := by decide

theorem witness_StepKeepsTheInvariant :
    Inv (ready .cbcEnc 16 []) ∧ nextIs (step (ready .cbcEnc 16 [])) (fun t => t.fsm == .load) = true :=
  ⟨inv_ready _ _ _, by decide⟩

/-- A host write as the only turn to come. -/
def writing (off : Nat) (v : Word) : List Event := [wrTurn Config.resetParams off v]

/-- An idle device with DONE, WIGN and CIGN set after a failure. -/
def flagged (agenda : List Event) : State :=
  { idle false true .corruptPadding .padZero agenda with wign := true, cign := true }

theorem inv_flagged (agenda : List Event) : Inv (flagged agenda) := by
  obtain ⟨hm, hc, ho⟩ := inv_idle false true .corruptPadding .padZero agenda rfl
  refine ⟨hm, ?_, ho⟩
  obtain ⟨h1, h2, h3, h4, h5, h6, h7, h8, h9, h10, h11⟩ := hc
  exact ⟨h1, h2, h3, h4, h5, h6, h7, h8, h9, h10, fun h => absurd rfl h⟩

/-- A state for each flag that rises. BUSY, and ERR_CODE and DONE to 0: an acceptance. DONE and ERR_CODE: a completion.
WIGN: a write to the last word of IN. CIGN: a write to CMD. -/
theorem witness_FlagSettersAreComplete_set :
    (Inv (flagged (writing 0x00C 3)) ∧
      nextIs (step (flagged (writing 0x00C 3))) (fun t => t.busy && !t.done && t.errCode == .none) = true) ∧
    (Inv (start 7 [.controller]) ∧
      nextIs (step (start 7 [.controller])) (fun t => !t.busy && t.done && t.errCode == .illegalCommand) = true) ∧
    (Inv (start 3 (writing 0x10FFC 8)) ∧ nextIs (step (start 3 (writing 0x10FFC 8))) (fun t => t.wign) = true) ∧
    (Inv (start 3 (writing 0x00C 8)) ∧ nextIs (step (start 3 (writing 0x00C 8))) (fun t => t.cign) = true) :=
  ⟨⟨inv_flagged _, by decide⟩, ⟨inv_start _ _, by decide⟩, ⟨inv_start _ _, by decide⟩, inv_start _ _, by decide⟩

/-- A state for each flag that falls: a write of STATUS clears one flag and no other, the two resets clear them all, and a
reset ends a running command. -/
theorem witness_FlagSettersAreComplete_clear :
    (∀ agenda, Inv (flagged agenda)) ∧
    nextIs (step (flagged (writing 0x008 0x02))) (fun t => !t.done && t.wign && t.cign) = true ∧
    nextIs (step (flagged (writing 0x008 0x08))) (fun t => t.done && !t.wign && t.cign) = true ∧
    nextIs (step (flagged (writing 0x008 0x10))) (fun t => t.done && t.wign && !t.cign) = true ∧
    nextIs (step (flagged (writing 0x004 0x02))) (fun t => !t.done && !t.wign && !t.cign && t.errCode == .none) = true ∧
    nextIs (step (flagged [.hardReset])) (fun t => !t.done && !t.wign && !t.cign && t.errDetail == .none) = true ∧
    (Inv (start 3 [.hardReset]) ∧ nextIs (step (start 3 [.hardReset])) (fun t => !t.busy && !t.done) = true) :=
  ⟨inv_flagged, by decide, by decide, by decide, by decide, by decide, inv_start _ _, by decide⟩

/-- The line rises when IE is set while DONE = 1, and at a completion with IE = 1. -/
theorem witness_InterruptRisesOnlyAtCompletion :
    (Inv (idle false true .none .none [wrTurn Config.resetParams 0x004 1]) ∧
      irq (idle false true .none .none [wrTurn Config.resetParams 0x004 1]) = false ∧
      nextIs (step (idle false true .none .none [wrTurn Config.resetParams 0x004 1])) irq = true) ∧
    (irq { start 7 [.controller] with ie := true } = false ∧
      nextIs (step { start 7 [.controller] with ie := true }) irq = true) :=
  ⟨⟨inv_idle _ _ _ _ _ rfl, by decide, by decide⟩, by decide, by decide⟩

theorem witness_InputsAreFixedWhileBusy :
    let s := ready .cbcDec 16 [.controller]
    s.params.wf = true ∧ Memory.wf s.mem ∧ s.busy = true ∧ nextIs (step s) (fun t => t.busy) = true := by decide

theorem witness_InterleavedHostAccessesDoNotMatter :
    let s := ready .cbcEnc 16 []
    let turns : List Event :=
      [wrTurn Config.resetParams 0x014 0, .controller, rdTurn Config.resetParams 0x20000, .controller]
    s.busy = true ∧ s.done = false ∧ (∀ e ∈ turns, isDeviceTurn e = true ∨ isPlainAccess s.params e = true) ∧
      nextIs (run (turns.filter isDeviceTurn).length { s with agenda := turns.filter isDeviceTurn })
        (fun u => u.busy && u.fsm == .wait) = true := by decide

/-- The same, where one more device turn completes the command: PAD, after its VALIDATE step, with its COPY step last. -/
theorem witness_InterleavedHostAccessesDoNotMatter_last :
    let s := ready .pad 3 []
    let turns : List Event := [wrTurn Config.resetParams 0x010 1, .controller, rdTurn Config.resetParams 0x20000]
    s.busy = true ∧ s.done = false ∧ (∀ e ∈ turns, isDeviceTurn e = true ∨ isPlainAccess s.params e = true) ∧
      nextIs (run (turns.filter isDeviceTurn).length { s with agenda := turns.filter isDeviceTurn })
        (fun u => u.busy && u.fsm == .copy) = true ∧
      isDeviceTurn .controller = true ∧
      nextIs (run (turns.length + 1) { s with agenda := turns ++ [.controller] })
        (fun t => !t.busy && t.done && t.outLen == 16) = true := by decide

theorem witness_EveryCommandCompletes :
    Inv (ready .cbcDec 16 []) ∧ (ready .cbcDec 16 []).agenda = [] ∧ (ready .cbcDec 16 []).busy = true :=
  ⟨inv_ready _ _ _, rfl, rfl⟩

theorem witness_PollEndsWhenTheCommandIsDone :
    Inv (ready .ecbEnc 16 [.poll]) ∧ (ready .ecbEnc 16 [.poll]).agenda = .poll :: [] ∧
      (ready .ecbEnc 16 [.poll]).busy = true := ⟨inv_ready _ _ _, rfl, rfl⟩

theorem witness_ParametersNeverChange : nextIs (step State.reset) (fun t => t == State.reset) = true := by decide

end Sys2Proof.Tests
end

section
/-! PROOFS. The scope of the machine (00_scope.md R6, R12): what the controller's turn runs, and the parameters,
which no step changes. -/

namespace Sys2Proof.Machine

/-! ## The controller's turn is `exec` (30_encoding.md R72) -/

theorem controllerTurn_of_validate {s : State} {i : Instr} (hf : s.fsm = .validate) (hd : decode s.cmd = .command i) :
    controllerTurn s = exec i s := by
  simp only [controllerTurn, hf, hd]

theorem controllerTurn_after_validate {s : State} {i : Instr} (h1 : s.fsm ≠ .idle) (h2 : s.fsm ≠ .validate)
    (ho : opcodeInstr s.opc = some i) : controllerTurn s = exec i s := by
  cases hf : s.fsm with
  | idle => exact absurd hf h1
  | validate => exact absurd hf h2
  | load | wait | copy | check => simp only [controllerTurn, hf, ho]

theorem controllerEnabled_of_validate {s : State} (hf : s.fsm = .validate) : controllerEnabled s = true := by
  simp only [controllerEnabled, hf]

theorem controllerEnabled_after_validate {s : State} {i : Instr} (h1 : s.fsm ≠ .idle) (h2 : s.fsm ≠ .validate)
    (ho : opcodeInstr s.opc = some i) : controllerEnabled s = (hasStepRule i s.fsm && portReady s) := by
  cases hf : s.fsm with
  | idle => exact absurd hf h1
  | validate => exact absurd hf h2
  | load | wait | copy | check => simp only [controllerEnabled, hf, ho]

theorem deviceTurn_of_enabled {s : State} (h : controllerEnabled s = true) : deviceTurn s = controllerTurn s := by
  simp only [deviceTurn, h, if_true]

/-- Settles O4: the controller's turn, and the device's own where the controller is enabled, are `controllerTurn`, which
is `exec` of the decoded command. -/
theorem stepRunsTheDecodedCommand : Obligations.StepRunsTheDecodedCommand := by
  intro s i _
  refine ⟨fun hf hd => ⟨fun ha => ?_, fun rest ha => ?_⟩, fun h1 h2 ho => ⟨fun ha hr hp => ?_, fun rest ha => ?_⟩⟩
  · rw [step_nil ha, deviceTurn_of_enabled (controllerEnabled_of_validate hf), controllerTurn_of_validate hf hd]
  · rw [step_cons ha]
    exact controllerTurn_of_validate (s := { s with agenda := rest }) hf hd
  · have hen : controllerEnabled s = true := by rw [controllerEnabled_after_validate h1 h2 ho, hr, hp]; rfl
    rw [step_nil ha, deviceTurn_of_enabled hen, controllerTurn_after_validate h1 h2 ho]
  · rw [step_cons ha]
    exact controllerTurn_after_validate (s := { s with agenda := rest }) h1 h2 ho

/-! ## The parameters (00_scope.md R6) -/

/-- The cipher writes the response and REQ_VALID, nothing outside the port (41_cipher_port.md R88). -/
theorem cipherStep_frame (cipher : Block → Equiv.Perm Block) (d : CipherDraw) (s : State) :
    cipherStep cipher d s = { s with port := (cipherStep cipher d s).port } := by
  unfold cipherStep
  split
  · cases d <;> rfl
  · rfl

@[simp] theorem cipherStep_params (cipher : Block → Equiv.Perm Block) (d : CipherDraw) (s : State) :
    (cipherStep cipher d s).params = s.params := by rw [cipherStep_frame]

theorem controllerTurn_params {s t : State} (h : controllerTurn s = .next t) : t.params = s.params :=
  (controllerTurn_controllerStep h).1.params

theorem deviceTurn_params {s t : State} (h : deviceTurn s = .next t) : t.params = s.params := by
  unfold deviceTurn at h
  split at h
  · exact controllerTurn_params h
  · split at h <;> cases h
    · rw [cipherStep_params]
    · rfl

theorem writeCtrl_params (v : Word) (s : State) : (writeCtrl v s).params = s.params := by
  unfold writeCtrl; split <;> rfl

theorem writeCmd_params (v : Word) (s : State) : (writeCmd v s).params = s.params := by
  unfold writeCmd; split <;> rfl

theorem busWrite_params (off : Nat) (v : Word) (s : State) : (busWrite off v s).params = s.params := by
  rcases busWrite_cases off v s with h | ⟨-, h⟩ | ⟨-, h⟩ | ⟨-, h⟩ | ⟨-, f, h, hf⟩
  · rw [h]
  · rw [h, writeCtrl_params]
  · rw [h]; rfl
  · rw [h, writeCmd_params]
  · rw [h, inputWrite]
    split
    · rfl
    · rw [hf]

theorem hostAccess_params {a : Access} {s t : State} (h : hostAccess a s = .next t) : t.params = s.params := by
  unfold hostAccess at h
  repeat' split at h
  all_goals cases h
  cases a.kind with
  | read => rfl
  | write v => exact busWrite_params _ v s

theorem takeTurn_params {e : Event} {s t : State} (h : takeTurn e s = .next t) : t.params = s.params := by
  cases e with
  | host a => exact hostAccess_params h
  | poll => simp only [takeTurn] at h; split at h <;> cases h <;> rfl
  | awaitIrq => simp only [takeTurn] at h; split at h <;> cases h <;> rfl
  | device => exact deviceTurn_params h
  | controller => exact controllerTurn_params h
  | cipher d => cases h; exact cipherStep_params _ d s
  | hardReset => cases h; rfl

theorem step_params {s t : State} (h : step s = .next t) : t.params = s.params := by
  rcases step_cases s with ⟨-, e⟩ | ⟨e, rest, -, hs⟩
  · exact deviceTurn_params (e ▸ h)
  · exact takeTurn_params (s := { s with agenda := rest }) (hs ▸ h)

/-- A read of ID (10_state.md R18). -/
theorem busValue_id (s : State) : busValue 0x000 s = Config.idValue := rfl

/-- A read of CAP (10_state.md R32). -/
theorem busValue_cap (s : State) : busValue 0x024 s = BitVec.ofNat 32 s.params.bufBytes := rfl

/-- Settles O60: ID reads as a literal and CAP as a function of the parameters, which every turn keeps. -/
theorem parametersNeverChange : Obligations.ParametersNeverChange := by
  intro s t h
  have hp := step_params h
  exact ⟨hp, by rw [busValue_id, busValue_id], by rw [busValue_cap, busValue_cap, hp]⟩

end Sys2Proof.Machine
end

section
/-! PROOFS. Host accesses interleaved with a running command (20_memory.md R59). The device's turns are functions of
`commandView`, a plain host access does not touch it, so a run with accesses in between keeps pace with the run of the
device turns alone. -/

namespace Sys2Proof.Machine

/-! ## What a command reads is in its view -/

@[simp] theorem commandView_fsm (s : State) : (commandView s).fsm = s.fsm := rfl
@[simp] theorem commandView_busy (s : State) : (commandView s).busy = s.busy := rfl
@[simp] theorem commandView_done (s : State) : (commandView s).done = s.done := rfl
@[simp] theorem commandView_params (s : State) : (commandView s).params = s.params := rfl
@[simp] theorem commandView_cmd (s : State) : (commandView s).cmd = s.cmd := rfl
@[simp] theorem commandView_opc (s : State) : (commandView s).opc = s.opc := rfl
@[simp] theorem commandView_len (s : State) : (commandView s).len = s.len := rfl
@[simp] theorem inCount_commandView (s : State) : inCount (commandView s) = inCount s := rfl
@[simp] theorem padBoundary_commandView (s : State) : padBoundary (commandView s) = padBoundary s := rfl
@[simp] theorem inSeq_commandView (s : State) (n : Nat) : inSeq (commandView s) n = inSeq s n := rfl
@[simp] theorem outSeq_commandView (s : State) (n : Nat) : outSeq (commandView s) n = outSeq s n := rfl
@[simp] theorem padChecks_commandView (s : State) : padChecks (commandView s) = padChecks s := rfl
@[simp] theorem ecbChecks_commandView (s : State) : ecbChecks (commandView s) = ecbChecks s := rfl
@[simp] theorem cbcEncChecks_commandView (s : State) : cbcEncChecks (commandView s) = cbcEncChecks s := rfl
@[simp] theorem cbcDecChecks_commandView (s : State) : cbcDecChecks (commandView s) = cbcDecChecks s := rfl

theorem commandView_with_agenda (s : State) (l : List Event) : commandView { s with agenda := l } = commandView s := rfl

theorem busy_eq_of_commandView {r s : State} (h : commandView r = commandView s) : r.busy = s.busy :=
  by
  simpa only [commandView_busy] using congrArg State.busy h

theorem done_eq_of_commandView {r s : State} (h : commandView r = commandView s) : r.done = s.done :=
  by
  simpa only [commandView_done] using congrArg State.done h

theorem params_eq_of_commandView {r s : State} (h : commandView r = commandView s) : r.params = s.params :=
  by
  simpa only [commandView_params] using congrArg State.params h

/-! ## Every action of a command commutes with the view -/

@[simp] theorem raiseError_commandView (c : ErrCode) (d : ErrDetail) (s : State) :
    raiseError c d (commandView s) = commandView (raiseError c d s) := rfl

@[simp] theorem finish_commandView (l : Nat) (s : State) : finish l (commandView s) = commandView (finish l s) := rfl

@[simp] theorem padSetup_commandView (s : State) : padSetup (commandView s) = commandView (padSetup s) := rfl

@[simp] theorem padCopy_commandView (s : State) : padCopy (commandView s) = commandView (padCopy s) := rfl

@[simp] theorem unpadSetup_commandView (s : State) : unpadSetup (commandView s) = commandView (unpadSetup s) := rfl

@[simp] theorem unpadCopy_commandView (s : State) : unpadCopy (commandView s) = commandView (unpadCopy s) := rfl

@[simp] theorem cbcEncSetup_commandView (s : State) : cbcEncSetup (commandView s) = commandView (cbcEncSetup s) := rfl

@[simp] theorem cbcDecSetup_commandView (s : State) : cbcDecSetup (commandView s) = commandView (cbcDecSetup s) := rfl

@[simp] theorem unpadCheck_commandView (s : State) : unpadCheck (commandView s) = commandView (unpadCheck s) := by
  simp only [unpadCheck, padBoundary_commandView, inSeq_commandView, inCount_commandView]
  split <;> rfl

@[simp] theorem cbcDecCheck_commandView (s : State) : cbcDecCheck (commandView s) = commandView (cbcDecCheck s) := by
  simp only [cbcDecCheck, outSeq_commandView, commandView_len]
  split <;> rfl

@[simp] theorem ecbSetup_commandView (s : State) : ecbSetup (commandView s) = commandView (ecbSetup s) := by
  simp only [ecbSetup, apply_ite commandView]
  rfl

@[simp] theorem ecbLoad_commandView (d : Direction) (s : State) :
    ecbLoad d (commandView s) = commandView (ecbLoad d s) := by
  simp only [ecbLoad, apply_ite commandView]
  rfl

@[simp] theorem cbcEncLoad_commandView (s : State) : cbcEncLoad (commandView s) = commandView (cbcEncLoad s) := by
  simp only [cbcEncLoad, apply_ite commandView]
  rfl

@[simp] theorem cbcDecLoad_commandView (s : State) : cbcDecLoad (commandView s) = commandView (cbcDecLoad s) := by
  simp only [cbcDecLoad, apply_ite commandView]
  rfl

@[simp] theorem ecbWait_commandView (s : State) : ecbWait (commandView s) = commandView (ecbWait s) := by
  simp only [ecbWait, apply_ite commandView]
  rfl

/-- The shared WAIT step commutes with the view when what follows the last block does. -/
theorem cbcWait_commandView {x r : Block} {last last' : State → State}
    (hl : ∀ t, last' (commandView t) = commandView (last t)) (s : State) :
    cbcWait x r last' (commandView s) = commandView (cbcWait x r last s) := by
  simp only [cbcWait, apply_ite commandView, ← hl]
  rfl

@[simp] theorem cbcEncWait_commandView (s : State) : cbcEncWait (commandView s) = commandView (cbcEncWait s) :=
  cbcWait_commandView (last := finish s.len.toNat) (finish_commandView _) s

@[simp] theorem cbcDecWait_commandView (s : State) : cbcDecWait (commandView s) = commandView (cbcDecWait s) :=
  cbcWait_commandView (last := fun t => { t with fsm := .check }) (fun _ => rfl) s

theorem validateThen_commandView (cs : List Check) {f : State → State} {s : State}
    (hf : f (commandView s) = commandView (f s)) :
    validateThen cs f (commandView s) = commandView (validateThen cs f s) := by
  induction cs with
  | nil => exact hf
  | cons c cs ih => simp only [validateThen, ih, raiseError_commandView, apply_ite commandView]

theorem cipherStep_commandView (cipher : Block → Equiv.Perm Block) (d : CipherDraw) (s : State) :
    cipherStep cipher d (commandView s) = commandView (cipherStep cipher d s) := by
  cases d <;> simp only [cipherStep, apply_ite commandView] <;> rfl

/-! ## So does every device turn -/

/-- From the view of a state the step leads to the view of its next state. -/
def RespectsView (f : State → Host.Outcome State Fault Refusal) : Prop :=
  ∀ s t : State, f s = .next t → f (commandView s) = .next (commandView t)

theorem execPad_respectsView : RespectsView execPad := by
  intro s t h
  cases hf : s.fsm <;> simp only [execPad, commandView_fsm, hf] at h ⊢ <;> cases h
  case validate => rw [padChecks_commandView, validateThen_commandView _ (padSetup_commandView s)]
  case copy => rw [padCopy_commandView]
  all_goals rfl

theorem execUnpad_respectsView : RespectsView execUnpad := by
  intro s t h
  cases hf : s.fsm <;> simp only [execUnpad, commandView_fsm, hf] at h ⊢ <;> cases h
  case validate => rw [padChecks_commandView, validateThen_commandView _ (unpadSetup_commandView s)]
  case check => rw [unpadCheck_commandView]
  case copy => rw [unpadCopy_commandView]
  all_goals rfl

theorem execEcbEnc_respectsView : RespectsView execEcbEnc := by
  intro s t h
  cases hf : s.fsm <;> simp only [execEcbEnc, commandView_fsm, hf] at h ⊢ <;> cases h
  case validate => rw [ecbChecks_commandView, validateThen_commandView _ (ecbSetup_commandView s)]
  case load => rw [ecbLoad_commandView]
  case wait => rw [ecbWait_commandView]
  all_goals rfl

theorem execEcbDec_respectsView : RespectsView execEcbDec := by
  intro s t h
  cases hf : s.fsm <;> simp only [execEcbDec, commandView_fsm, hf] at h ⊢ <;> cases h
  case validate => rw [ecbChecks_commandView, validateThen_commandView _ (ecbSetup_commandView s)]
  case load => rw [ecbLoad_commandView]
  case wait => rw [ecbWait_commandView]
  all_goals rfl

theorem execCbcEnc_respectsView : RespectsView execCbcEnc := by
  intro s t h
  cases hf : s.fsm <;> simp only [execCbcEnc, commandView_fsm, hf] at h ⊢ <;> cases h
  case validate => rw [cbcEncChecks_commandView, validateThen_commandView _ (cbcEncSetup_commandView s)]
  case load => rw [cbcEncLoad_commandView]
  case wait => rw [cbcEncWait_commandView]
  all_goals rfl

theorem execCbcDec_respectsView : RespectsView execCbcDec := by
  intro s t h
  cases hf : s.fsm <;> simp only [execCbcDec, commandView_fsm, hf] at h ⊢ <;> cases h
  case validate => rw [cbcDecChecks_commandView, validateThen_commandView _ (cbcDecSetup_commandView s)]
  case load => rw [cbcDecLoad_commandView]
  case wait => rw [cbcDecWait_commandView]
  case check => rw [cbcDecCheck_commandView]
  all_goals rfl

theorem exec_respectsView (i : Instr) : RespectsView (exec i) := by
  cases i with
  | pad => exact execPad_respectsView
  | unpad => exact execUnpad_respectsView
  | ecbEnc => exact execEcbEnc_respectsView
  | ecbDec => exact execEcbDec_respectsView
  | cbcEnc => exact execCbcEnc_respectsView
  | cbcDec => exact execCbcDec_respectsView

theorem controllerTurn_respectsView : RespectsView controllerTurn := by
  intro s t h
  cases hf : s.fsm <;> simp only [controllerTurn, commandView_fsm, hf] at h ⊢
  case idle => cases h; rfl
  case validate =>
    rw [commandView_cmd]
    cases hd : decode s.cmd with
    | command i => simp only [hd] at h ⊢; exact exec_respectsView i s t h
    | illegal r => simp only [hd] at h ⊢; cases h; rfl
  all_goals
    rw [commandView_opc]
    cases ho : opcodeInstr s.opc with
    | some i => simp only [ho] at h ⊢; exact exec_respectsView i s t h
    | none => simp only [ho] at h ⊢; cases h; rfl

theorem deviceEvent_respectsView {e : Event} (he : isDeviceTurn e = true) : RespectsView (takeTurn e) := by
  cases e with
  | controller => exact controllerTurn_respectsView
  | cipher d => intro s t h; cases h; exact congrArg _ (cipherStep_commandView _ d s)
  | host _ | poll | awaitIrq | device | hardReset => cases he

/-! ## Noninterference -/

/-- What a device turn leaves: the turns to come, the parameters, and BUSY and DONE unless it completes the command. -/
structure DeviceTurnKeeps (s t : State) : Prop where
  agenda : t.agenda = s.agenda
  params : t.params = s.params
  still_busy : t.busy = true → s.busy = true ∧ t.done = s.done

theorem deviceTurnKeeps_of_takeTurn {e : Event} (he : isDeviceTurn e = true) {s t : State}
    (h : takeTurn e s = .next t) : DeviceTurnKeeps s t := by
  cases e with
  | controller =>
    obtain ⟨hk, hc | hc⟩ := controllerTurn_controllerStep h
    · exact ⟨hk.agenda, hk.params, fun hb => ⟨hc.busy ▸ hb, hc.done⟩⟩
    · exact ⟨hk.agenda, hk.params, fun hb => by simp [hc.busy] at hb⟩
  | cipher d =>
    cases h
    rw [cipherStep_frame]
    exact ⟨rfl, rfl, fun hb => ⟨hb, rfl⟩⟩
  | host _ | poll | awaitIrq | device | hardReset => cases he

theorem takeTurn_device {e : Event} (he : isDeviceTurn e = true) (s : State) :
    ∃ t, takeTurn e s = .next t ∧ DeviceTurnKeeps s t := by
  obtain ⟨t, ht⟩ := takeTurn_next (e := e) (s := s) (by rintro a rfl; cases he)
  exact ⟨t, ht, deviceTurnKeeps_of_takeTurn he ht⟩

/-- The same device turn on two states of one view leads to states of one view. -/
theorem step_device_congr {e : Event} (he : isDeviceTurn e = true) {r s : State} {restR restS : List Event}
    (hv : commandView r = commandView s) (hr : r.agenda = e :: restR) (hs : s.agenda = e :: restS) :
    ∃ r' s', step r = .next r' ∧ step s = .next s' ∧ commandView r' = commandView s' ∧ r'.agenda = restR ∧
      DeviceTurnKeeps { s with agenda := restS } s' := by
  obtain ⟨r', hr', kr⟩ := takeTurn_device he { r with agenda := restR }
  obtain ⟨s', hs', ks⟩ := takeTurn_device he { s with agenda := restS }
  have hview : commandView r' = commandView s' := by
    have h1 := deviceEvent_respectsView he _ _ hr'
    have h2 := deviceEvent_respectsView he _ _ hs'
    rw [commandView_with_agenda, hv] at h1
    rw [commandView_with_agenda, h1] at h2
    exact Host.Outcome.next.inj h2
  exact ⟨r', s', (step_cons hr).trans hr', (step_cons hs).trans hs', hview, kr.agenda, ks⟩

/-- While a command runs, a host write that is no soft reset reaches CTRL.IE and the two ignored-write flags alone
(10_state.md R36, R37; 20_memory.md R59). -/
theorem busWrite_while_busy {off : Nat} {v : Word} {s : State} (hb : s.busy = true) (hd : s.done = false)
    (hsrst : off = 0x004 → v.getLsbD 1 = false) :
    ∃ ie wign cign, busWrite off v s = { s with ie := ie, wign := wign, cign := cign } := by
  rcases busWrite_cases off v s with h | ⟨ho, h⟩ | ⟨-, h⟩ | ⟨-, h⟩ | ⟨-, f, h, -⟩
  · exact ⟨s.ie, s.wign, s.cign, h⟩
  · exact ⟨v.getLsbD 0, s.wign, s.cign, by rw [h, writeCtrl, hsrst ho]; rfl⟩
  · exact ⟨s.ie, _, _, by rw [h, writeStatus, hd, Bool.false_and, ← hd]⟩
  · exact ⟨s.ie, s.wign, true, by rw [h, writeCmd, if_pos hb]⟩
  · exact ⟨s.ie, true, s.cign, by rw [h, inputWrite, if_pos hb]⟩

/-- A plain host access while a command runs leaves the command's view as it is. -/
theorem step_plainAccess {e : Event} {r : State} {rest : List Event} (he : isPlainAccess r.params e = true)
    (hb : r.busy = true) (hd : r.done = false) (hr : r.agenda = e :: rest) :
    ∃ r', step r = .next r' ∧ commandView r' = commandView r ∧ r'.agenda = rest := by
  cases e with
  | host a =>
    simp only [isPlainAccess, Bool.and_eq_true] at he
    obtain ⟨hwf, hkind⟩ := he
    have hstep : step r = .next (busAccess (a.offset r.params) a.kind { r with agenda := rest }) :=
      (step_cons hr).trans (hostAccess_wf (s := { r with agenda := rest }) hwf).1
    refine ⟨_, hstep, ?_⟩
    cases hk : a.kind with
    | read => exact ⟨rfl, rfl⟩
    | write v =>
      have hsrst : a.offset r.params = 0x004 → v.getLsbD 1 = false := by
        intro ho
        simpa [hk, ho, regOffset] using hkind
      obtain ⟨ie, wign, cign, hw⟩ := busWrite_while_busy (s := { r with agenda := rest }) hb hd hsrst
      rw [busAccess, hw]
      exact ⟨rfl, rfl⟩
  | controller | cipher _ | poll | awaitIrq | device | hardReset => cases he

/-- No device turn raises BUSY: a run of device turns that ends busy began so. -/
theorem busy_of_deviceRun {turns : List Event} {s u : State} (hall : ∀ e ∈ turns, isDeviceTurn e = true)
    (hs : s.agenda = turns) (hrun : run turns.length s = .next u) (hu : u.busy = true) : s.busy = true := by
  induction turns generalizing s with
  | nil => cases hrun; exact hu
  | cons e es ih =>
    obtain ⟨t, ht, keeps⟩ := takeTurn_device (hall e (by simp)) { s with agenda := es }
    rw [List.length_cons, run_succ_next ((step_cons hs).trans ht)] at hrun
    exact (keeps.still_busy (ih (fun d hd => hall d (by simp [hd])) keeps.agenda hrun)).1

/-- A run of device turns that leaves the command running, and a run of the same turns with host accesses in between, lead
to states of one view. Turns scheduled after them are left. -/
theorem interleavedRun_view {turns tail : List Event} {s r u : State} (hv : commandView r = commandView s)
    (hb : s.busy = true) (hd : s.done = false)
    (hturns : ∀ e ∈ turns, isDeviceTurn e = true ∨ isPlainAccess s.params e = true)
    (hs : s.agenda = turns.filter isDeviceTurn) (hr : r.agenda = turns ++ tail)
    (hrun : run (turns.filter isDeviceTurn).length s = .next u) (hu : u.busy = true) :
    ∃ t, run turns.length r = .next t ∧ commandView t = commandView u ∧ t.agenda = tail := by
  induction turns generalizing s r with
  | nil => cases hrun; exact ⟨r, rfl, hv, hr⟩
  | cons e es ih =>
    have hes : ∀ d ∈ es, isDeviceTurn d = true ∨ isPlainAccess s.params d = true :=
      fun d hd => hturns d (by simp [hd])
    by_cases he : isDeviceTurn e = true
    · rw [List.filter_cons_of_pos he] at hs hrun
      obtain ⟨r', s', hr', hs', hv', har, keeps⟩ := step_device_congr he hv hr hs
      rw [List.length_cons, run_succ_next hs'] at hrun
      have hb' : s'.busy = true := busy_of_deviceRun (fun _ h => (List.mem_filter.1 h).2) keeps.agenda hrun hu
      rw [List.length_cons, run_succ_next hr']
      exact ih hv' hb' ((keeps.still_busy hb').2.trans hd) (by rwa [keeps.params]) keeps.agenda har hrun
    · rw [List.filter_cons_of_neg he] at hs hrun
      have hplain : isPlainAccess r.params e = true := by
        rw [params_eq_of_commandView hv]
        exact (hturns e (by simp)).resolve_left he
      obtain ⟨r', hr', hv', har⟩ := step_plainAccess hplain ((busy_eq_of_commandView hv).trans hb)
        ((done_eq_of_commandView hv).trans hd) hr
      rw [List.length_cons, run_succ_next hr']
      exact ih (hv'.trans hv) hb hd hes hs har hrun

/-- Settles O57: the interleaved run keeps pace with the device turns alone, and so does the run of the device turns with
one more to come; that last turn then answers alike on both. -/
theorem interleavedHostAccessesDoNotMatter : Obligations.InterleavedHostAccessesDoNotMatter := by
  intro s u turns hb hd hturns hrun hu
  have follow : ∀ tail, ∃ t, run turns.length { s with agenda := turns ++ tail } = .next t ∧
      commandView t = commandView u ∧ t.agenda = tail :=
    fun tail => interleavedRun_view (s := { s with agenda := turns.filter isDeviceTurn })
      rfl hb hd hturns rfl rfl hrun hu
  constructor
  · obtain ⟨t, ht, hv, -⟩ := follow []
    rw [List.append_nil] at ht
    exact ⟨t, ht, hv⟩
  · intro last hlast
    have hfilter : (turns.filter isDeviceTurn).filter isDeviceTurn = turns.filter isDeviceTurn := by
      simp only [List.filter_filter, Bool.and_self]
    obtain ⟨v, hv, hviewV, hav⟩ := interleavedRun_view (turns := turns.filter isDeviceTurn) (tail := [last])
      (s := { s with agenda := turns.filter isDeviceTurn })
      (r := { s with agenda := turns.filter isDeviceTurn ++ [last] })
      rfl hb hd (fun e he => .inl (List.mem_filter.1 he).2) hfilter.symm rfl (by rwa [hfilter]) hu
    obtain ⟨t, ht, hviewT, hat⟩ := follow [last]
    obtain ⟨t', v', ht', hv', hview, -⟩ := step_device_congr hlast (hviewT.trans hviewV.symm) hat hav
    exact ⟨t', v', by rw [run_add 1 hv, run_succ_next hv', run_zero], by rw [run_add 1 ht, run_succ_next ht', run_zero],
      hview⟩

end Sys2Proof.Machine
end

section
/-! PROOFS. The invariant of the machine (10_state.md R25, R40; 20_memory.md R56; 30_encoding.md R73;
41_cipher_port.md R90; 60_exceptions.md R119). Memory first: the controller reaches OUT alone and the host's writes IN
alone. Then each way a command's step can end, once: a failure, a success, going on, a cipher request. Every step of every
command is one of them. -/

namespace Sys2Proof.Machine

/-! ## ECB and CBC, where they are one -/

/-- ECB_ENC and ECB_DEC are one command but for the direction of their requests (42_ecb.md R97). -/
def execEcb (dir : Direction) (s : State) : Host.Outcome State Fault Refusal :=
  match s.fsm with
  | .validate => .next (validateThen (ecbChecks s) ecbSetup s)
  | .load => .next (ecbLoad dir s)
  | .wait => .next (ecbWait s)
  | .idle => .next s
  | .copy => .next s
  | .check => .next s

theorem exec_ecbEnc (s : State) : exec .ecbEnc s = execEcb .encrypt s := rfl

theorem exec_ecbDec (s : State) : exec .ecbDec s = execEcb .decrypt s := rfl

/-- The WAIT step of ECB is that of CBC with the running IV kept (R100, R109). -/
theorem ecbWait_eq_cbcWait (s : State) : ecbWait s = cbcWait s.port.rspData s.riv (finish s.len.toNat) s := rfl

/-! ## What the controller can do to memory (20_memory.md R56) -/

/-- The memories made of `m` by stores to OUT and erasures of OUT. -/
inductive OutReached (p : Params) (m : Memory) : Memory → Prop
  | start : OutReached p m m
  | store {n : Memory} (off : Nat) (d : List Byte) : OutReached p m n → OutReached p m (storeOut p off d n)
  | erase {n : Memory} (l : Nat) : OutReached p m n → OutReached p m (eraseOutFrom p l n)

theorem OutReached.wf {p : Params} {m n : Memory} (h : OutReached p m n) (hm : Memory.wf m) : Memory.wf n := by
  induction h with
  | start => exact hm
  | store off d _ ih => exact storeOut_wf ih
  | erase l _ ih => exact eraseOutFrom_wf ih

theorem OutReached.inBounds {p : Params} {m n : Memory} (h : OutReached p m n) (hm : Memory.inBounds p m) :
    Memory.inBounds p n := by
  induction h with
  | start => exact hm
  | store off d _ ih => exact storeOut_inBounds ih
  | erase l _ ih => exact eraseOutFrom_inBounds ih

theorem OutReached.readByte_eq {p : Params} {m n : Memory} (h : OutReached p m n) (hm : Memory.wf m) {a : Nat}
    (ha : ¬(Config.outBase ≤ a ∧ a < Config.outBase + p.outBytes)) : readByte n a = readByte m a := by
  induction h with
  | start => rfl
  | store off d hn ih => rw [readByte_storeOut (hn.wf hm), if_neg (by omega), ih]
  | erase l _ ih => rw [readByte_eraseOutFrom, if_neg (by omega), ih]

theorem outReached_validateThen {cs : List Check} {f : State → State} {s : State}
    (h : OutReached s.params s.mem (f s).mem) : OutReached s.params s.mem (validateThen cs f s).mem := by
  rcases validateThen_cases cs f s with ⟨e, -⟩ | ⟨_, c, _, -, -, -, e⟩
  · rw [e]; exact h
  · rw [e]; exact .erase 0 .start

theorem outReached_ecbSetup (s : State) : OutReached s.params s.mem (ecbSetup s).mem := by
  unfold ecbSetup
  simp only []
  split
  · exact .erase 0 .start
  · exact .start

theorem outReached_ecbLoad (d : Direction) (s : State) : OutReached s.params s.mem (ecbLoad d s).mem := by
  unfold ecbLoad; split <;> exact .start

theorem outReached_cbcEncLoad (s : State) : OutReached s.params s.mem (cbcEncLoad s).mem := by
  unfold cbcEncLoad; split <;> exact .start

theorem outReached_cbcDecLoad (s : State) : OutReached s.params s.mem (cbcDecLoad s).mem := by
  unfold cbcDecLoad; split <;> exact .start

theorem outReached_cbcWait {x r : Block} {last : State → State} {s : State}
    (hl : ∀ u : State, u.params = s.params → OutReached s.params s.mem u.mem → OutReached s.params s.mem (last u).mem) :
    OutReached s.params s.mem (cbcWait x r last s).mem := by
  unfold cbcWait
  split
  · simp only []
    split
    · exact .erase 0 .start
    · split
      · exact .store _ _ .start
      · exact hl _ rfl (.store _ _ .start)
  · exact .start

/-- ECB and CBC_ENC end with the success procedure after the last block. -/
theorem outReached_cbcWait_finish (x r : Block) (l : Nat) (s : State) :
    OutReached s.params s.mem (cbcWait x r (finish l) s).mem :=
  outReached_cbcWait fun u hp hu => by rw [finish_mem, hp]; exact .erase _ hu

theorem outReached_cbcDecWait (s : State) : OutReached s.params s.mem (cbcDecWait s).mem :=
  outReached_cbcWait fun _ _ hu => hu

theorem outReached_unpadCheck (s : State) : OutReached s.params s.mem (unpadCheck s).mem := by
  unfold unpadCheck
  split
  · exact .erase 0 .start
  · exact .start

theorem outReached_cbcDecCheck (s : State) : OutReached s.params s.mem (cbcDecCheck s).mem := by
  unfold cbcDecCheck
  split
  · exact .erase 0 .start
  · exact .erase _ .start

theorem execPad_outReached {s t : State} (h : execPad s = .next t) : OutReached s.params s.mem t.mem := by
  cases hf : s.fsm <;> simp only [execPad, hf] at h <;> cases h
  case validate => exact outReached_validateThen .start
  case copy => exact .erase _ (.store _ _ .start)
  all_goals exact .start

theorem execUnpad_outReached {s t : State} (h : execUnpad s = .next t) : OutReached s.params s.mem t.mem := by
  cases hf : s.fsm <;> simp only [execUnpad, hf] at h <;> cases h
  case validate => exact outReached_validateThen .start
  case check => exact outReached_unpadCheck s
  case copy => exact .erase _ (.store _ _ .start)
  all_goals exact .start

theorem execEcb_outReached {dir : Direction} {s t : State} (h : execEcb dir s = .next t) :
    OutReached s.params s.mem t.mem := by
  cases hf : s.fsm <;> simp only [execEcb, hf] at h <;> cases h
  case validate => exact outReached_validateThen (outReached_ecbSetup s)
  case load => exact outReached_ecbLoad _ s
  case wait => exact outReached_cbcWait_finish _ s.riv _ s
  all_goals exact .start

theorem execCbcEnc_outReached {s t : State} (h : execCbcEnc s = .next t) : OutReached s.params s.mem t.mem := by
  cases hf : s.fsm <;> simp only [execCbcEnc, hf] at h <;> cases h
  case validate => exact outReached_validateThen .start
  case load => exact outReached_cbcEncLoad s
  case wait => exact outReached_cbcWait_finish _ _ _ s
  all_goals exact .start

theorem execCbcDec_outReached {s t : State} (h : execCbcDec s = .next t) : OutReached s.params s.mem t.mem := by
  cases hf : s.fsm <;> simp only [execCbcDec, hf] at h <;> cases h
  case validate => exact outReached_validateThen .start
  case load => exact outReached_cbcDecLoad s
  case wait => exact outReached_cbcDecWait s
  case check => exact outReached_cbcDecCheck s
  all_goals exact .start

theorem exec_outReached {i : Instr} {s t : State} (h : exec i s = .next t) : OutReached s.params s.mem t.mem := by
  cases i with
  | pad => exact execPad_outReached h
  | unpad => exact execUnpad_outReached h
  | ecbEnc => exact execEcb_outReached (exec_ecbEnc s ▸ h)
  | ecbDec => exact execEcb_outReached (exec_ecbDec s ▸ h)
  | cbcEnc => exact execCbcEnc_outReached h
  | cbcDec => exact execCbcDec_outReached h

theorem controllerTurn_outReached {s t : State} (h : controllerTurn s = .next t) :
    OutReached s.params s.mem t.mem := by
  cases hf : s.fsm <;> simp only [controllerTurn, hf] at h
  case idle => cases h; exact .start
  case validate =>
    cases hd : decode s.cmd with
    | command i => rw [hd] at h; exact exec_outReached h
    | illegal r => rw [hd] at h; cases h; exact .erase 0 .start
  all_goals
    cases ho : opcodeInstr s.opc with
    | some i => rw [ho] at h; exact exec_outReached h
    | none => rw [ho] at h; cases h; exact .start

/-! ## The ends of a command's step -/

/-- The part of the invariant that is about the registers, the port and OUT. -/
def RegisterInv (s : State) : Prop := ControlInv s ∧ OutputInv s

theorem Inv.control {s : State} (hs : Inv s) : ControlInv s := hs.2.1

theorem ControlInv.idle_of_not_busy {s : State} (hs : ControlInv s) (hb : s.busy = false) : s.fsm = .idle := by
  by_contra hf
  rw [hs.busy_iff.2 hf] at hb
  cases hb

theorem runningAt_fsm {i : Instr} {s : State} (h : runningAt i s) : s.fsm ≠ .idle ∧ s.fsm ≠ .validate := by
  have loop : ∀ {j}, inBlockLoop j s → s.fsm ≠ .idle ∧ s.fsm ≠ .validate := by
    rintro j ⟨hf | hf, -⟩ <;> simp [hf]
  cases i with
  | pad => simp [h.1]
  | unpad => obtain ⟨-, hf | ⟨hf, -⟩⟩ := h <;> simp [hf]
  | ecbEnc | ecbDec | cbcEnc => exact loop h
  | cbcDec =>
    obtain h | ⟨hf, -⟩ := h
    · exact loop h
    · simp [hf]

theorem operandsValid_inCount_le {i : Instr} {s : State} (h : operandsValid i s) : inCount s ≤ s.params.bufBytes := h.1

theorem operandsValid_goesOn {i : Instr} {s t : State} (hk : ControllerKeeps s t) (hc : Continues s t)
    (h : operandsValid i s) : operandsValid i t := by
  cases i <;> simpa only [operandsValid, inCount, padBoundary, hk.inLen, hk.padBs, hk.params, hc.keyLd, hc.ivLd] using h

/-- The command VALIDATE accepted is the one a later state runs (R72). -/
theorem ControlInv.runs {s : State} (hs : ControlInv s) (h1 : s.fsm ≠ .idle) (h2 : s.fsm ≠ .validate) {i : Instr}
    (hd : decode s.cmd = .command i) : operandsValid i s ∧ runningAt i s := by
  obtain ⟨j, hj, hop, hat, -⟩ := hs.running h1 h2
  obtain rfl : j = i := by rw [hd] at hj; cases hj; rfl
  exact ⟨hop, hat⟩

/-- A failure meets the invariant from any state without an outstanding request (60_exceptions.md R117). -/
theorem registerInv_raiseError {u : State} {c : ErrCode} {d : ErrDetail} (hp : u.params.wf = true)
    (hreq : u.port.reqValid = false) (hl : legalError c d = true) : RegisterInv (raiseError c d u) := by
  refine ⟨?_, fun _ => ⟨by simp, fun i _ => outByte_raiseError c d u i, fun _ => rfl⟩⟩
  constructor <;> simp [hp, hreq, hl]

/-- A success meets the invariant from any state with the port free and no error (60_exceptions.md R116). -/
theorem registerInv_finish {u : State} {l : Nat} (hp : u.params.wf = true)
    (hport : u.port.reqValid = false ∧ u.port.rspValid = false) (herr : u.errCode = .none ∧ u.errDetail = .none)
    (hl : l ≤ u.params.outBytes) : RegisterInv (finish l u) := by
  have hlen : (finish l u).outLen.toNat = l := by
    have := params_bounds hp
    unfold Params.outBytes at hl
    rw [finish_outLen, BitVec.toNat_ofNat, Nat.mod_eq_of_lt (by omega)]
  refine ⟨?_, fun _ => ⟨?_, fun i hi => ?_, ?_⟩⟩
  · constructor <;> simp [hp, hport, herr, legalError]
  · rw [hlen]; exact hl
  · rw [outByte_finish, if_pos (hlen ▸ hi)]
  · simp [herr]

/-- The command goes on: in another state than WAIT it stands where `runningAt` says, with the port free. -/
theorem registerInv_goesOn {s t : State} {i : Instr} (hs : ControlInv s) (hb : s.fsm ≠ .idle)
    (hk : ControllerKeeps s t) (hc : Continues s t) (hd : decode s.cmd = .command i) (hop : operandsValid i s)
    (hat : runningAt i t) (hw : t.fsm ≠ .wait) (hport : t.port.reqValid = false ∧ t.port.rspValid = false) :
    RegisterInv t := by
  have hbusy : s.busy = true := hs.busy_iff.2 hb
  obtain ⟨hidle, hval⟩ := runningAt_fsm hat
  refine ⟨?_, fun h => absurd h hidle⟩
  exact
    { params_legal := hk.params ▸ hs.params_legal
      busy_iff := by simp [hc.busy, hbusy, hidle]
      busy_flags := fun _ => by rw [hc.done, hc.errCode, hc.errDetail, hc.outLen]; exact hs.busy_flags hbusy
      error_pair := by rw [hc.errCode, hc.errDetail]; exact hs.error_pair
      opc_of_cmd := fun _ => by rw [hk.opc, hk.cmd]; exact hs.opc_of_cmd hbusy
      idle_clear := fun h => absurd h hidle
      port_free := fun _ => hport
      port_wait := fun h => absurd h hw
      request_stable := fun h => absurd h hw
      validate_start := fun h => absurd h hval
      running := fun _ _ => ⟨i, hk.cmd ▸ hd, operandsValid_goesOn hk hc hop, hat, fun h => absurd h hw⟩ }

/-- A LOAD step issues a request (41_cipher_port.md R90). -/
theorem registerInv_issueRequest {s : State} {i : Instr} {b : Block} (hs : ControlInv s) (hf : s.fsm = .load)
    (hd : decode s.cmd = .command i) (hop : operandsValid i s)
    (hat : runningAt i (issueRequest (requestDir i) b s)) : RegisterInv (issueRequest (requestDir i) b s) := by
  have hbusy : s.busy = true := hs.busy_iff.2 (by simp [hf])
  have hport := hs.port_free (by simp [hf])
  refine ⟨?_, fun h => by simp at h⟩
  exact
    { params_legal := hs.params_legal
      busy_iff := by simp [hbusy]
      busy_flags := hs.busy_flags
      error_pair := hs.error_pair
      opc_of_cmd := hs.opc_of_cmd
      idle_clear := fun h => by simp at h
      port_free := fun h => by simp at h
      port_wait := fun _ => by simp [hport]
      request_stable := fun _ => ⟨rfl, rfl⟩
      validate_start := fun h => by simp at h
      running := fun _ _ => ⟨i, hd, operandsValid_goesOn (by constructor <;> rfl) (by constructor <;> rfl) hop, hat,
        fun _ => rfl⟩ }

/-! ## VALIDATE (30_encoding.md R72, R73) -/

/-- VALIDATE meets the invariant when its checks report legal errors and the setup after them meets it. -/
theorem registerInv_validateThen {cs : List Check} {f : State → State} {s : State} (hs : ControlInv s)
    (hf : s.fsm = .validate) (hcs : ∀ c ∈ cs, legalError c.code c.detail = true)
    (hset : (∀ c ∈ cs, c.holds = false) → RegisterInv (f s)) : RegisterInv (validateThen cs f s) := by
  rcases validateThen_cases cs f s with ⟨e, hall⟩ | ⟨before, c, after, hsplit, -, -, e⟩
  · rw [e]; exact hset hall
  · rw [e]
    exact registerInv_raiseError hs.params_legal (hs.port_free (by simp [hf])).1 (hcs c (by simp [hsplit]))

theorem legalError_padChecks (s : State) : ∀ c ∈ padChecks s, legalError c.code c.detail = true := by
  simp [padChecks, checkZeroBs, checkLenRange, legalError]

theorem legalError_ecbChecks (s : State) : ∀ c ∈ ecbChecks s, legalError c.code c.detail = true := by
  simp [ecbChecks, checkKeyLen, checkLenRange, checkUnaligned, legalError]

theorem legalError_cbcEncChecks (s : State) : ∀ c ∈ cbcEncChecks s, legalError c.code c.detail = true := by
  simp [cbcEncChecks, checkKeyLen, checkIvLen, checkLenRange, legalError]

theorem legalError_cbcDecChecks (s : State) : ∀ c ∈ cbcDecChecks s, legalError c.code c.detail = true := by
  simp [cbcDecChecks, checkKeyLen, checkIvLen, checkLenRange, checkUnaligned, checkEmpty, legalError]

/-- The checks of PAD and UNPAD are the conditions on their operands (R73). -/
theorem padChecks_pass_iff (s : State) :
    (∀ c ∈ padChecks s, c.holds = false) ↔ padBoundary s ≠ 0 ∧ inCount s ≤ s.params.bufBytes := by
  simp [padChecks, checkZeroBs, checkLenRange]

theorem ecbChecks_pass_iff (s : State) :
    (∀ c ∈ ecbChecks s, c.holds = false) ↔ s.keyLd = 0xF ∧ inCount s ≤ s.params.bufBytes ∧ inCount s % 16 = 0 := by
  simp [ecbChecks, checkKeyLen, checkLenRange, checkUnaligned]

theorem cbcEncChecks_pass_iff (s : State) :
    (∀ c ∈ cbcEncChecks s, c.holds = false) ↔ s.keyLd = 0xF ∧ s.ivLd = 0xF ∧ inCount s ≤ s.params.bufBytes := by
  simp [cbcEncChecks, checkKeyLen, checkIvLen, checkLenRange]

theorem cbcDecChecks_pass_iff (s : State) :
    (∀ c ∈ cbcDecChecks s, c.holds = false) ↔
      s.keyLd = 0xF ∧ s.ivLd = 0xF ∧ inCount s ≤ s.params.bufBytes ∧ inCount s % 16 = 0 ∧ inCount s ≠ 0 := by
  simp [cbcDecChecks, checkKeyLen, checkIvLen, checkLenRange, checkUnaligned, checkEmpty]

/-! ## Setups (R78, R81, R98, R106) -/

theorem port_free_at_validate {s : State} (hs : ControlInv s) (hf : s.fsm = .validate) :
    s.port.reqValid = false ∧ s.port.rspValid = false := hs.port_free (by simp [hf])

theorem toNat_blkIdx_at_validate {s : State} (hs : ControlInv s) (hf : s.fsm = .validate) : s.blkIdx.toNat = 0 := by
  rw [hs.validate_start hf]; rfl

theorem blockCount_le (i : Instr) (n : Nat) : blockCount i n ≤ n / 16 + 1 := by
  cases i <;> simp only [blockCount] <;> omega

/-- The operands VALIDATE accepts leave NB and L within their registers (R98, R106). -/
theorem toNat_blockCount {i : Instr} {s : State} (hp : s.params.wf = true) (hop : operandsValid i s) :
    (BitVec.ofNat 16 (blockCount i (inCount s))).toNat = blockCount i (inCount s) ∧
      (BitVec.ofNat 32 (16 * blockCount i (inCount s))).toNat = 16 * blockCount i (inCount s) := by
  have h1 := params_bounds hp
  have h2 := operandsValid_inCount_le hop
  have h3 := blockCount_le i (inCount s)
  constructor
  · rw [BitVec.toNat_ofNat, Nat.mod_eq_of_lt (by omega)]
  · rw [BitVec.toNat_ofNat, Nat.mod_eq_of_lt (by omega)]

theorem registerInv_padSetup {s : State} (hs : ControlInv s) (hf : s.fsm = .validate)
    (hd : decode s.cmd = .command .pad) (hop : operandsValid .pad s) : RegisterInv (padSetup s) := by
  have hlen : (padSetup s).len.toNat = inCount s + padCount (padBoundary s) (inCount s) := by
    have h1 := params_bounds hs.params_legal
    have h2 := operandsValid_inCount_le hop
    have h3 := padCount_le (padBoundary s) (inCount s)
    have h4 := padBoundary_le s
    simp only [padSetup, BitVec.toNat_ofNat]
    omega
  have hport := port_free_at_validate hs hf
  exact registerInv_goesOn hs (by simp [hf]) controllerStep_padSetup.1 (by constructor <;> rfl) hd hop
    ⟨rfl, hs.validate_start hf, hlen⟩ (by simp [padSetup]) hport

theorem registerInv_unpadSetup {s : State} (hs : ControlInv s) (hf : s.fsm = .validate)
    (hd : decode s.cmd = .command .unpad) (hop : operandsValid .unpad s) : RegisterInv (unpadSetup s) := by
  have hport := port_free_at_validate hs hf
  exact registerInv_goesOn hs (by simp [hf]) controllerStep_unpadSetup.1 (by constructor <;> rfl) hd hop
    ⟨hs.validate_start hf, .inl rfl⟩ (by simp [unpadSetup]) hport

/-- The setup of a command with at least one block enters the block loop. -/
theorem registerInv_enterLoop {i : Instr} {s t : State} (hs : ControlInv s) (hf : s.fsm = .validate)
    (hk : ControllerKeeps s t) (hc : Continues s t) (hd : decode s.cmd = .command i) (hop : operandsValid i s)
    (hpos : blockCount i (inCount s) ≠ 0) (hi : inBlockLoop i t → runningAt i t)
    (ht : t.fsm = .load ∧ t.blkIdx = s.blkIdx ∧ t.port = s.port)
    (hnb : t.nb = BitVec.ofNat 16 (blockCount i (inCount s)))
    (hlen : t.len = BitVec.ofNat 32 (16 * blockCount i (inCount s))) : RegisterInv t := by
  obtain ⟨hload, hblk, hport⟩ := ht
  obtain ⟨hnb', hlen'⟩ := toNat_blockCount hs.params_legal hop
  have hn : inCount t = inCount s := congrArg BitVec.toNat hk.inLen
  have hat : inBlockLoop i t := by
    refine ⟨.inl hload, ?_, ?_, ?_⟩
    · rw [hnb, hnb', hn]
    · rw [hlen, hlen', hn]
    · rw [hblk, toNat_blkIdx_at_validate hs hf, hnb, hnb']; omega
  exact registerInv_goesOn hs (by simp [hf]) hk hc hd hop (hi hat) (by simp [hload])
    (hport ▸ port_free_at_validate hs hf)

theorem blockCount_ecb {i : Instr} (hi : i = .ecbEnc ∨ i = .ecbDec) (n : Nat) : blockCount i n = n / 16 := by
  obtain rfl | rfl := hi <;> rfl

theorem runningAt_ecb {i : Instr} (hi : i = .ecbEnc ∨ i = .ecbDec) (s : State) : runningAt i s ↔ inBlockLoop i s := by
  obtain rfl | rfl := hi <;> rfl

theorem operandsValid_ecb {i : Instr} (hi : i = .ecbEnc ∨ i = .ecbDec) (s : State) :
    operandsValid i s ↔ inCount s ≤ s.params.bufBytes ∧ s.keyLd = 0xF ∧ inCount s % 16 = 0 := by
  obtain rfl | rfl := hi <;> rfl

/-- With no block an ECB command succeeds at once (R98). -/
theorem registerInv_ecbSetup {i : Instr} {s : State} (hi : i = .ecbEnc ∨ i = .ecbDec) (hs : ControlInv s)
    (hf : s.fsm = .validate) (hd : decode s.cmd = .command i) (hop : operandsValid i s) :
    RegisterInv (ecbSetup s) := by
  have hcount := blockCount_ecb hi (inCount s)
  obtain ⟨-, -, haligned⟩ := (operandsValid_ecb hi s).1 hop
  obtain ⟨-, hcode, hdetail, -⟩ := hs.busy_flags (hs.busy_iff.2 (by simp [hf]))
  have hport := port_free_at_validate hs hf
  unfold ecbSetup
  simp only []
  split
  · exact registerInv_finish hs.params_legal hport ⟨hcode, hdetail⟩ (Nat.zero_le _)
  · exact registerInv_enterLoop hs hf (by constructor <;> rfl) (by constructor <;> rfl) hd hop (hcount ▸ ‹_›)
      (runningAt_ecb hi _).2 ⟨rfl, rfl, rfl⟩ (by rw [hcount]; rfl)
      (by rw [show 16 * blockCount i (inCount s) = inCount s by omega])

theorem registerInv_cbcSetup {i : Instr} {s : State} (hs : ControlInv s) (hf : s.fsm = .validate)
    (hd : decode s.cmd = .command i) (hop : operandsValid i s) (hpos : blockCount i (inCount s) ≠ 0)
    (hi : ∀ {t}, inBlockLoop i t → runningAt i t) : RegisterInv (cbcSetup (blockCount i (inCount s)) s) :=
  registerInv_enterLoop hs hf (by constructor <;> rfl) (by constructor <;> rfl) hd hop hpos hi ⟨rfl, rfl, rfl⟩ rfl rfl

/-! ## The block loop (R90, R99, R100, R107, R109) -/

theorem portFree_at_load {s : State} (hs : ControlInv s) (hf : s.fsm = .load) : portFree s = true := by
  have h := hs.port_free (by simp [hf])
  simp [portFree, h]

theorem inBlockLoop_issueRequest {i : Instr} {s : State} (h : inBlockLoop i s) (dir : Direction) (b : Block) :
    inBlockLoop i (issueRequest dir b s) := ⟨.inr rfl, h.2⟩

theorem len_le_outBytes {i : Instr} {s : State} (hop : operandsValid i s)
    (hloop : inBlockLoop i s) : s.len.toNat ≤ s.params.outBytes := by
  obtain ⟨-, -, hlen, -⟩ := hloop
  have h1 := operandsValid_inCount_le hop
  have h2 := blockCount_le i (inCount s)
  unfold Params.outBytes
  omega

/-- A WAIT step meets the invariant when what follows the last block does. -/
theorem registerInv_cbcWait {i : Instr} {s : State} {x r : Block} {last : State → State} (hs : RegisterInv s)
    (hf : s.fsm = .wait) (hd : decode s.cmd = .command i) (hop : operandsValid i s) (hloop : inBlockLoop i s)
    (hi : ∀ {t}, inBlockLoop i t → runningAt i t)
    (hlast : ∀ u : State, ControllerKeeps s u → Continues s u → u.port.reqValid = false ∧ u.port.rspValid = false →
      u.len = s.len → u.blkIdx.toNat = s.nb.toNat → RegisterInv (last u)) :
    RegisterInv (cbcWait x r last s) := by
  obtain ⟨hc, ho⟩ := hs
  obtain ⟨-, hnb, hlen, hblk⟩ := hloop
  have hnext : (s.blkIdx + 1).toNat = s.blkIdx.toNat + 1 := by
    have := s.nb.isLt
    bv_omega
  unfold cbcWait
  split
  · rename_i hrsp
    have hreq : s.port.reqValid = false := by simpa [hrsp] using hc.port_wait hf
    simp only []
    split
    · exact registerInv_raiseError hc.params_legal hreq rfl
    · split
      · rename_i hmore
        exact registerInv_goesOn hc (by simp [hf]) (by constructor <;> rfl) (by constructor <;> rfl) hd hop
          (hi ⟨.inl rfl, hnb, hlen, hnext ▸ hmore⟩) (by simp) ⟨hreq, rfl⟩
      · rename_i hmore
        exact hlast _ (by constructor <;> rfl) (by constructor <;> rfl) ⟨hreq, rfl⟩ rfl
          (hnext.trans (by omega))
  · exact ⟨hc, ho⟩

/-- The success procedure after the last block (R100, R109). -/
theorem registerInv_finish_lastBlock {i : Instr} {s u : State} (hs : ControlInv s) (hf : s.fsm = .wait)
    (hop : operandsValid i s) (hloop : inBlockLoop i s) (hk : ControllerKeeps s u) (hc : Continues s u)
    (hport : u.port.reqValid = false ∧ u.port.rspValid = false) :
    RegisterInv (finish s.len.toNat u) := by
  obtain ⟨-, hcode, hdetail, -⟩ := hs.busy_flags (hs.busy_iff.2 (by simp [hf]))
  refine registerInv_finish (hk.params ▸ hs.params_legal) hport ?_ (hk.params ▸ len_le_outBytes hop hloop)
  rw [hc.errCode, hc.errDetail]
  exact ⟨hcode, hdetail⟩

/-! ## The commands -/

theorem execPad_registerInv {s t : State} (hs : RegisterInv s) (hd : decode s.cmd = .command .pad)
    (h : execPad s = .next t) : RegisterInv t := by
  obtain ⟨hc, ho⟩ := hs
  cases hf : s.fsm <;> simp only [execPad, hf] at h <;> cases h
  case validate =>
    refine registerInv_validateThen hc hf (legalError_padChecks s) fun hall => ?_
    obtain ⟨hp, hn⟩ := (padChecks_pass_iff s).1 hall
    exact registerInv_padSetup hc hf hd ⟨hn, hp⟩
  case copy =>
    obtain ⟨hop, -, -, hlen⟩ := hc.runs (by simp [hf]) (by simp [hf]) hd
    obtain ⟨-, hcode, hdetail, -⟩ := hc.busy_flags (hc.busy_iff.2 (by simp [hf]))
    refine registerInv_finish hc.params_legal (hc.port_free (by simp [hf])) ⟨hcode, hdetail⟩ ?_
    have h1 := operandsValid_inCount_le hop
    have h2 := padCount_le (padBoundary s) (inCount s)
    have h3 := padBoundary_le s
    show s.len.toNat ≤ s.params.bufBytes + 256
    omega
  all_goals exact ⟨hc, ho⟩

/-- The CHECK step of UNPAD keeps a length below that of its input (R82). -/
theorem registerInv_unpadCheck {s : State} (hs : ControlInv s) (hf : s.fsm = .check)
    (hd : decode s.cmd = .command .unpad) : RegisterInv (unpadCheck s) := by
  obtain ⟨hop, hblk, -⟩ := hs.runs (by simp [hf]) (by simp [hf]) hd
  have hport := hs.port_free (by simp [hf])
  unfold unpadCheck
  split
  · rename_i hbad
    refine registerInv_raiseError hs.params_legal hport.1 ?_
    rcases padcheck_bad hbad with rfl | rfl | rfl | rfl <;> rfl
  · rename_i m hok
    obtain ⟨hpos, -, hle, -⟩ := padcheck_ok hok
    rw [length_inSeq] at hle
    refine registerInv_goesOn hs (by simp [hf]) (by constructor <;> rfl) (by constructor <;> rfl) hd hop
      ⟨hblk, .inr ⟨rfl, ?_⟩⟩ (by simp) hport
    have h1 : inCount s < 2 ^ 32 := s.inLen.isLt
    show (BitVec.ofNat 32 (inCount s - m)).toNat < inCount s
    rw [BitVec.toNat_ofNat, Nat.mod_eq_of_lt (by omega)]
    omega

theorem execUnpad_registerInv {s t : State} (hs : RegisterInv s) (hd : decode s.cmd = .command .unpad)
    (h : execUnpad s = .next t) : RegisterInv t := by
  obtain ⟨hc, ho⟩ := hs
  cases hf : s.fsm <;> simp only [execUnpad, hf] at h <;> cases h
  case validate =>
    refine registerInv_validateThen hc hf (legalError_padChecks s) fun hall => ?_
    obtain ⟨hp, hn⟩ := (padChecks_pass_iff s).1 hall
    exact registerInv_unpadSetup hc hf hd ⟨hn, hp⟩
  case check => exact registerInv_unpadCheck hc hf hd
  case copy =>
    obtain ⟨hop, -, hat⟩ := hc.runs (by simp [hf]) (by simp [hf]) hd
    have hlen : s.len.toNat < inCount s := by simpa [hf] using hat
    obtain ⟨-, hcode, hdetail, -⟩ := hc.busy_flags (hc.busy_iff.2 (by simp [hf]))
    refine registerInv_finish hc.params_legal (hc.port_free (by simp [hf])) ⟨hcode, hdetail⟩ ?_
    have h1 := operandsValid_inCount_le hop
    show s.len.toNat ≤ s.params.bufBytes + 256
    omega
  all_goals exact ⟨hc, ho⟩

theorem execEcb_registerInv {i : Instr} {s t : State} (hi : i = .ecbEnc ∨ i = .ecbDec) (hs : RegisterInv s)
    (hd : decode s.cmd = .command i) (h : execEcb (requestDir i) s = .next t) : RegisterInv t := by
  obtain ⟨hc, ho⟩ := hs
  cases hf : s.fsm <;> simp only [execEcb, hf] at h <;> cases h
  case validate =>
    refine registerInv_validateThen hc hf (legalError_ecbChecks s) fun hall => ?_
    obtain ⟨hkey, hn, hal⟩ := (ecbChecks_pass_iff s).1 hall
    exact registerInv_ecbSetup hi hc hf hd ((operandsValid_ecb hi s).2 ⟨hn, hkey, hal⟩)
  case load =>
    obtain ⟨hop, hat⟩ := hc.runs (by simp [hf]) (by simp [hf]) hd
    rw [ecbLoad, if_pos (portFree_at_load hc hf)]
    exact registerInv_issueRequest hc hf hd hop
      ((runningAt_ecb hi _).2 (inBlockLoop_issueRequest ((runningAt_ecb hi s).1 hat) _ _))
  case wait =>
    obtain ⟨hop, hat⟩ := hc.runs (by simp [hf]) (by simp [hf]) hd
    have hloop := (runningAt_ecb hi s).1 hat
    rw [ecbWait_eq_cbcWait]
    exact registerInv_cbcWait ⟨hc, ho⟩ hf hd hop hloop (runningAt_ecb hi _).2 fun _ hk hu hport _ _ =>
      registerInv_finish_lastBlock hc hf hop hloop hk hu hport
  all_goals exact ⟨hc, ho⟩

theorem execCbcEnc_registerInv {s t : State} (hs : RegisterInv s) (hd : decode s.cmd = .command .cbcEnc)
    (h : execCbcEnc s = .next t) : RegisterInv t := by
  obtain ⟨hc, ho⟩ := hs
  cases hf : s.fsm <;> simp only [execCbcEnc, hf] at h <;> cases h
  case validate =>
    refine registerInv_validateThen hc hf (legalError_cbcEncChecks s) fun hall => ?_
    obtain ⟨hkey, hiv, hn⟩ := (cbcEncChecks_pass_iff s).1 hall
    exact registerInv_cbcSetup (i := .cbcEnc) hc hf hd ⟨hn, hkey, hiv⟩ (Nat.succ_ne_zero _) id
  case load =>
    obtain ⟨hop, hloop⟩ := hc.runs (by simp [hf]) (by simp [hf]) hd
    rw [cbcEncLoad, if_pos (portFree_at_load hc hf)]
    exact registerInv_issueRequest (i := .cbcEnc) hc hf hd hop (inBlockLoop_issueRequest hloop _ _)
  case wait =>
    obtain ⟨hop, hloop⟩ := hc.runs (by simp [hf]) (by simp [hf]) hd
    exact registerInv_cbcWait ⟨hc, ho⟩ hf hd hop hloop id fun _ hk hu hport _ _ =>
      registerInv_finish_lastBlock hc hf hop hloop hk hu hport
  all_goals exact ⟨hc, ho⟩

/-- In LOAD and WAIT CBC_DEC is in its block loop. -/
theorem cbcDec_inBlockLoop {s : State} (hat : runningAt .cbcDec s) (hf : s.fsm ≠ .check) : inBlockLoop .cbcDec s :=
  hat.resolve_right fun h => hf h.1

/-- After its last block CBC_DEC goes on to the CHECK step (R109). -/
theorem registerInv_cbcDecWait {s : State} (hs : RegisterInv s) (hf : s.fsm = .wait)
    (hd : decode s.cmd = .command .cbcDec) (hop : operandsValid .cbcDec s) (hloop : inBlockLoop .cbcDec s) :
    RegisterInv (cbcDecWait s) := by
  have ⟨_, hnb, hlen, _⟩ := hloop
  have ⟨_, _, _, hal, _⟩ := hop
  refine registerInv_cbcWait hs hf hd hop hloop .inl fun u hk hc hport hul hub => ?_
  have hn : inCount u = inCount s := congrArg BitVec.toNat hk.inLen
  have hkeep : ControllerKeeps s { u with fsm := .check } := by
    obtain ⟨h1, h2, h3, h4, h5, h6, h7, h8, h9, h10, h11⟩ := hk
    constructor <;> assumption
  have hcont : Continues s { u with fsm := .check } := by
    obtain ⟨h1, h2, h3, h4, h5, h6, h7, h8, h9⟩ := hc
    constructor <;> assumption
  refine registerInv_goesOn hs.1 (by simp [hf]) hkeep hcont hd hop (.inr ⟨rfl, ?_, ?_⟩) (by simp) hport
  · show u.len.toNat = inCount u
    rw [hul, hlen, hn]
    simp only [blockCount]
    omega
  · show u.blkIdx.toNat = blockCount .cbcDec (inCount u)
    rw [hub, hnb, hn]

/-- The CHECK step of CBC_DEC ends the command either way (R110). -/
theorem registerInv_cbcDecCheck {s : State} (hs : ControlInv s) (hf : s.fsm = .check)
    (hop : operandsValid .cbcDec s) (hlen : s.len.toNat = inCount s) : RegisterInv (cbcDecCheck s) := by
  have hport := hs.port_free (by simp [hf])
  obtain ⟨-, hcode, hdetail, -⟩ := hs.busy_flags (hs.busy_iff.2 (by simp [hf]))
  unfold cbcDecCheck
  split
  · rename_i hbad
    refine registerInv_raiseError hs.params_legal hport.1 ?_
    rcases padcheck_bad hbad with rfl | rfl | rfl | rfl <;> rfl
  · refine registerInv_finish hs.params_legal hport ⟨hcode, hdetail⟩ ?_
    have h1 := operandsValid_inCount_le hop
    unfold Params.outBytes
    omega

theorem execCbcDec_registerInv {s t : State} (hs : RegisterInv s) (hd : decode s.cmd = .command .cbcDec)
    (h : execCbcDec s = .next t) : RegisterInv t := by
  obtain ⟨hc, ho⟩ := hs
  cases hf : s.fsm <;> simp only [execCbcDec, hf] at h <;> cases h
  case validate =>
    refine registerInv_validateThen hc hf (legalError_cbcDecChecks s) fun hall => ?_
    obtain ⟨hkey, hiv, hn, hal, hne⟩ := (cbcDecChecks_pass_iff s).1 hall
    refine registerInv_cbcSetup (i := .cbcDec) hc hf hd ⟨hn, hkey, hiv, hal, hne⟩ ?_ .inl
    show inCount s / 16 ≠ 0
    omega
  case load =>
    obtain ⟨hop, hat⟩ := hc.runs (by simp [hf]) (by simp [hf]) hd
    have hloop := cbcDec_inBlockLoop hat (by simp [hf])
    rw [cbcDecLoad, if_pos (portFree_at_load hc hf)]
    exact registerInv_issueRequest (i := .cbcDec) hc hf hd hop (.inl (inBlockLoop_issueRequest hloop _ _))
  case wait =>
    obtain ⟨hop, hat⟩ := hc.runs (by simp [hf]) (by simp [hf]) hd
    exact registerInv_cbcDecWait ⟨hc, ho⟩ hf hd hop (cbcDec_inBlockLoop hat (by simp [hf]))
  case check =>
    obtain ⟨hop, hat⟩ := hc.runs (by simp [hf]) (by simp [hf]) hd
    have hlen : s.len.toNat = inCount s := by
      obtain ⟨hloop, -⟩ | ⟨-, hlen, -⟩ := hat
      · simp [hf] at hloop
      · exact hlen
    exact registerInv_cbcDecCheck hc hf hop hlen
  all_goals exact ⟨hc, ho⟩

theorem exec_registerInv {i : Instr} {s t : State} (hs : RegisterInv s) (hd : decode s.cmd = .command i)
    (h : exec i s = .next t) : RegisterInv t := by
  cases i with
  | pad => exact execPad_registerInv hs hd h
  | unpad => exact execUnpad_registerInv hs hd h
  | ecbEnc => exact execEcb_registerInv (.inl rfl) hs hd (exec_ecbEnc s ▸ h)
  | ecbDec => exact execEcb_registerInv (.inr rfl) hs hd (exec_ecbDec s ▸ h)
  | cbcEnc => exact execCbcEnc_registerInv hs hd h
  | cbcDec => exact execCbcDec_registerInv hs hd h

theorem opcodeInstr_of_decode {w : Word} {i : Instr} (h : decode w = .command i) :
    opcodeInstr (opcodeField w) = some i := by
  unfold decode at h
  split at h
  · cases h
  · split at h
    · cases h; assumption
    · cases h

/-! ## The turns -/

theorem controllerTurn_registerInv {s t : State} (hs : RegisterInv s) (h : controllerTurn s = .next t) :
    RegisterInv t := by
  obtain ⟨hc, ho⟩ := hs
  by_cases hidle : s.fsm = .idle
  · simp only [controllerTurn, hidle] at h
    cases h
    exact ⟨hc, ho⟩
  by_cases hval : s.fsm = .validate
  · cases hd : decode s.cmd with
    | command i => exact exec_registerInv ⟨hc, ho⟩ hd (controllerTurn_of_validate hval hd ▸ h)
    | illegal r =>
      simp only [controllerTurn, hval, hd] at h
      cases h
      exact registerInv_raiseError hc.params_legal (port_free_at_validate hc hval).1 (by cases r <;> rfl)
  · obtain ⟨i, hd, -⟩ := hc.running hidle hval
    have hopc : opcodeInstr s.opc = some i := by
      rw [hc.opc_of_cmd (hc.busy_iff.2 hidle), opcodeInstr_of_decode hd]
    exact exec_registerInv ⟨hc, ho⟩ hd (controllerTurn_after_validate hidle hval hopc ▸ h)

theorem controllerTurn_inv {s t : State} (hs : Inv s) (h : controllerTurn s = .next t) : Inv t := by
  obtain ⟨⟨hwf, hin⟩, hreg⟩ := hs
  have hreach := controllerTurn_outReached h
  exact ⟨⟨hreach.wf hwf, controllerTurn_params h ▸ hreach.inBounds hin⟩, controllerTurn_registerInv hreg h⟩

/-! ## The cipher and the device (R88, R90) -/

/-- Where the cipher has a step it turns the outstanding request into a response, whatever its draw (R88). -/
theorem cipherStep_answers (cipher : Block → Equiv.Perm Block) (d : CipherDraw) {s : State}
    (h : cipherEnabled s = true) : ∃ data fail, cipherStep cipher d s =
      { s with port := { s.port with rspData := data, rspFail := fail, rspValid := true, reqValid := false } } := by
  cases d with
  | ok => exact ⟨_, _, if_pos h⟩
  | fail junk => exact ⟨_, _, if_pos h⟩

theorem cipherStep_of_not_enabled (cipher : Block → Equiv.Perm Block) (d : CipherDraw) {s : State}
    (h : ¬cipherEnabled s = true) : cipherStep cipher d s = s := if_neg h

theorem cipherEnabled_iff (s : State) :
    cipherEnabled s = true ↔ s.port.reqValid = true ∧ s.port.rspValid = false := by
  simp [cipherEnabled]

theorem cipherStep_inv (cipher : Block → Equiv.Perm Block) (d : CipherDraw) {s : State} (hs : Inv s) :
    Inv (cipherStep cipher d s) := by
  by_cases hen : cipherEnabled s = true
  · obtain ⟨data, fail, e⟩ := cipherStep_answers cipher d hen
    obtain ⟨hreq, -⟩ := (cipherEnabled_iff s).1 hen
    obtain ⟨hm, hc, ho⟩ := hs
    have hwait : s.fsm = .wait := by
      by_contra hf
      rw [(hc.port_free hf).1] at hreq
      cases hreq
    rw [e]
    exact ⟨hm, { hc with port_free := fun hf => absurd hwait hf, port_wait := fun _ => rfl }, ho⟩
  · rw [cipherStep_of_not_enabled cipher d hen]
    exact hs

/-- The invariant says nothing of CTRL.IE, the ignored-write flags and the host's own side, and of DONE only that it is 0
while a command runs. -/
theorem Inv.with_hostSide {s : State} (hs : Inv s) (ie done wign cign : Bool) (agenda : List Event) (readData : Word)
    (draws : Nat) (hd : s.busy = true → done = false) :
    Inv { s with
      ie := ie, done := done, wign := wign, cign := cign, agenda := agenda, readData := readData, draws := draws } := by
  obtain ⟨hm, hc, ho⟩ := hs
  exact ⟨hm, { hc with busy_flags := fun hb => ⟨hd hb, (hc.busy_flags hb).2⟩ }, ho⟩

theorem Inv.done_of_busy {s : State} (hs : Inv s) (hb : s.busy = true) : s.done = false :=
  (hs.control.busy_flags hb).1

theorem Inv.with_agenda {s : State} (hs : Inv s) (l : List Event) : Inv { s with agenda := l } :=
  hs.with_hostSide s.ie s.done s.wign s.cign l s.readData s.draws hs.done_of_busy

theorem deviceTurn_inv {s t : State} (hs : Inv s) (h : deviceTurn s = .next t) : Inv t := by
  unfold deviceTurn at h
  split at h
  · exact controllerTurn_inv hs h
  · split at h <;> cases h
    · exact cipherStep_inv _ _
        (hs.with_hostSide s.ie s.done s.wign s.cign s.agenda s.readData (s.draws + 1) hs.done_of_busy)
    · exact hs

/-! ## The host (R19, R21, R36, R53, R70, R129) -/

theorem inv_resetDevice {s : State} (hp : s.params.wf = true) : Inv (resetDevice s) := by
  refine ⟨⟨Memory.wf_nil, by simp [State.reset, Memory.inBounds]⟩, ?_, fun _ => ⟨by simp [State.reset], ?_, ?_⟩⟩
  · constructor <;> simp [State.reset, CipherPort.reset, legalError, hp]
  · intro i _
    unfold outByte
    split <;> rfl
  · simp [State.reset]

theorem inv_acceptCommand {s : State} (hs : Inv s) (hb : s.busy = false) (w : Word) : Inv (acceptCommand w s) := by
  obtain ⟨hm, hc, -⟩ := hs
  have hidle := hc.idle_of_not_busy hb
  refine ⟨hm, ?_, fun h => by simp at h⟩
  constructor <;> simp [hc.params_legal, legalError, hc.port_free, hidle]

/-- An idle device meets the invariant whatever its inputs are, as long as memory is legal and OUT stays. -/
theorem Inv.with_inputs {s : State} (hs : Inv s) (hb : s.busy = false) (padBs : Byte) (inLen : Word) (key iv : Block)
    (keyLd ivLd : BitVec 4) {mem : Memory} (hm : Memory.wf mem ∧ Memory.inBounds s.params mem)
    (hout : ∀ i, outByte { s with mem := mem } i = outByte s i) :
    Inv { s with
      padBs := padBs, inLen := inLen, key := key, iv := iv, keyLd := keyLd, ivLd := ivLd, mem := mem } := by
  obtain ⟨-, hc, ho⟩ := hs
  have hidle := hc.idle_of_not_busy hb
  refine ⟨hm, { hc with request_stable := ?_, running := ?_ }, fun hf => ?_⟩
  · simp [hidle]
  · simp [hidle]
  · obtain ⟨hlen, hzero, herr⟩ := ho hf
    exact ⟨hlen, fun i hi => (hout i).trans (hzero i hi), herr⟩

theorem inv_inputWrite {f : State → State} {s : State} (hs : Inv s) (hf : s.busy = false → Inv (f s)) :
    Inv (inputWrite f s) := by
  unfold inputWrite
  split
  · exact hs.with_hostSide s.ie s.done true s.cign s.agenda s.readData s.draws hs.done_of_busy
  · exact hf (Bool.eq_false_of_not_eq_true ‹_›)

theorem inv_writeCtrl {s : State} (hs : Inv s) (v : Word) : Inv (writeCtrl v s) := by
  unfold writeCtrl
  split
  · exact inv_resetDevice hs.control.params_legal
  · exact hs.with_hostSide _ s.done s.wign s.cign s.agenda s.readData s.draws hs.done_of_busy

theorem inv_writeStatus {s : State} (hs : Inv s) (v : Word) : Inv (writeStatus v s) :=
  hs.with_hostSide s.ie _ _ _ s.agenda s.readData s.draws fun hb => by rw [hs.done_of_busy hb]; rfl

theorem inv_writeCmd {s : State} (hs : Inv s) (v : Word) : Inv (writeCmd v s) := by
  unfold writeCmd
  split
  · exact hs.with_hostSide s.ie s.done s.wign true s.agenda s.readData s.draws hs.done_of_busy
  · exact inv_acceptCommand hs (Bool.eq_false_of_not_eq_true ‹_›) v

theorem inv_writeReg {s : State} (hs : Inv s) (r : Reg) (v : Word) : Inv (writeReg r v s) := by
  have registers : ∀ (padBs : Byte) (inLen : Word) (key iv : Block) (keyLd ivLd : BitVec 4), s.busy = false →
      Inv { s with padBs := padBs, inLen := inLen, key := key, iv := iv, keyLd := keyLd, ivLd := ivLd } :=
    fun padBs inLen key iv keyLd ivLd hb => hs.with_inputs hb padBs inLen key iv keyLd ivLd hs.1 fun _ => rfl
  cases r with
  | ctrl => exact inv_writeCtrl hs v
  | status => exact inv_writeStatus hs v
  | cmd => exact inv_writeCmd hs v
  | padBs => exact inv_inputWrite hs (registers _ s.inLen s.key s.iv s.keyLd s.ivLd)
  | inLen => exact inv_inputWrite hs (registers s.padBs _ s.key s.iv s.keyLd s.ivLd)
  | key i => exact inv_inputWrite hs (registers s.padBs s.inLen _ s.iv _ s.ivLd)
  | iv i => exact inv_inputWrite hs (registers s.padBs s.inLen s.key _ s.keyLd _)
  | id | outLen | blkIdx | loaded | cap => exact hs

@[simp] theorem length_wordBytes (v : Word) : (wordBytes v).length = 4 := rfl

/-- A word of IN below BUF_BYTES lies in IN whole, so its write leaves OUT as it is (R47). -/
theorem inv_writeIn {s : State} (hs : Inv s) {i : Nat} (h4 : i % 4 = 0) (v : Word) : Inv (writeIn i v s) := by
  have hp := params_bounds hs.control.params_legal
  obtain ⟨hwf, hin⟩ := hs.1
  unfold writeIn
  split
  · rename_i hi
    refine inv_inputWrite hs fun hb =>
      hs.with_inputs hb s.padBs s.inLen s.key s.iv s.keyLd s.ivLd ⟨writeBytes_wf hwf _ _, fun c hc => ?_⟩ fun j => ?_
    · rcases mem_writeBytes hc with hc | ⟨h1, h2⟩
      · exact hin c hc
      · rw [length_wordBytes] at h2
        left; omega
    · apply outByte_of_mem
      · rfl
      · rw [readByte_writeBytes hwf, if_neg]
        rw [length_wordBytes]
        unfold Config.inBase Config.outBase
        omega
  · exact hs

theorem busWrite_inv {s : State} (hs : Inv s) {off : Nat} (h4 : off % 4 = 0) (v : Word) : Inv (busWrite off v s) := by
  unfold busWrite
  cases ht : targetAt off with
  | reg r => exact inv_writeReg hs r v
  | inWindow i =>
    have ho := eq_of_targetAt_inWindow ht
    unfold Config.inBase at ho
    exact inv_writeIn hs (by omega) v
  | outWindow i => exact hs
  | reserved => exact hs

/-! ## The step -/

/-- A host access that is a step lies within the contract (R50). -/
theorem hostAccess_eq_next {a : Access} {s t : State} (h : hostAccess a s = .next t) :
    a.wf s.params = true ∧ t = busAccess (a.offset s.params) a.kind s := by
  unfold hostAccess at h
  split at h
  · cases h
  split at h
  · cases h
  split at h
  · cases h
  split at h
  · cases h
  cases h
  exact ⟨by simp_all [Access.wf], rfl⟩

theorem hostAccess_inv {a : Access} {s t : State} (hs : Inv s) (h : hostAccess a s = .next t) : Inv t := by
  obtain ⟨hwf, rfl⟩ := hostAccess_eq_next h
  cases a.kind with
  | read => exact hs.with_hostSide s.ie s.done s.wign s.cign s.agenda _ s.draws hs.done_of_busy
  | write v => exact busWrite_inv hs (hostAccess_wf hwf).2.1 v

theorem takeTurn_inv {e : Event} {s t : State} (hs : Inv s) (h : takeTurn e s = .next t) : Inv t := by
  cases e with
  | host a => exact hostAccess_inv hs h
  | poll =>
    simp only [takeTurn] at h
    split at h <;> cases h
    · exact hs.with_hostSide s.ie s.done s.wign s.cign _ _ s.draws hs.done_of_busy
    · exact hs.with_hostSide s.ie s.done s.wign s.cign s.agenda _ s.draws hs.done_of_busy
  | awaitIrq =>
    simp only [takeTurn] at h
    split at h <;> cases h
    · exact hs
    · exact hs.with_agenda _
  | device => exact deviceTurn_inv hs h
  | controller => exact controllerTurn_inv hs h
  | cipher d => cases h; exact cipherStep_inv _ d hs
  | hardReset => cases h; exact inv_resetDevice hs.control.params_legal

/-- Settles O53: every turn keeps the invariant, and a step is a turn or the device's own. -/
theorem stepKeepsTheInvariant : Obligations.StepKeepsTheInvariant := by
  intro s t hs h
  rcases step_cases s with ⟨-, e⟩ | ⟨e, rest, -, e'⟩
  · exact deviceTurn_inv hs (e ▸ h)
  · exact takeTurn_inv (hs.with_agenda rest) (e' ▸ h)

/-- Settles O52: the reset state is a reset of itself, and its parameters are legal. -/
theorem resetMeetsTheInvariant : Obligations.ResetMeetsTheInvariant :=
  inv_resetDevice (s := State.reset) (by decide)

end Sys2Proof.Machine
end

section
/-! PROOFS. What one step can do to the flags, the operands and the inputs of a command (10_state.md R23, R35, R36, R37;
20_memory.md R56, R59; 60_exceptions.md R118). A step is a controller's turn, a host write, a reset, or it leaves every
register as it is; each statement goes through these four cases. -/

namespace Sys2Proof.Machine

/-! ## The four kinds of step -/

/-- What one step is: a turn of the controller, scheduled or the device's own; a step of the cipher, a read, a poll or a
wait, which leave the registers and the memory; a host write; the reset input. -/
inductive StepEffect (s t : State) : Prop
  | controller (l : List Event)
      (now : s.agenda = [] ∨ ∃ rest, s.agenda = .controller :: rest ∨ s.agenda = .device :: rest)
      (turn : controllerTurn { s with agenda := l } = .next t)
  | outside (port : CipherPort) (l : List Event) (readData : Word) (draws : Nat)
      (eq : t = { s with port := port, agenda := l, readData := readData, draws := draws })
  | write (off : Nat) (v : Word) (l : List Event) (now : writesNow s off v)
      (eq : t = busWrite off v { s with agenda := l })
  | hardReset (l : List Event) (now : s.agenda = .hardReset :: l) (eq : t = resetDevice { s with agenda := l })

theorem deviceTurn_effect {s t : State} {l : List Event}
    (now : s.agenda = [] ∨ ∃ rest, s.agenda = .controller :: rest ∨ s.agenda = .device :: rest)
    (h : deviceTurn { s with agenda := l } = .next t) : StepEffect s t := by
  unfold deviceTurn at h
  split at h
  · exact .controller l now h
  · split at h <;> cases h
    · exact .outside _ l s.readData (s.draws + 1) (by rw [cipherStep_frame])
    · exact .outside s.port l s.readData s.draws rfl

theorem takeTurn_effect {e : Event} {rest : List Event} {s t : State} (ha : s.agenda = e :: rest)
    (h : takeTurn e { s with agenda := rest } = .next t) : StepEffect s t := by
  cases e with
  | host a =>
    obtain ⟨hwf, heq⟩ := hostAccess_eq_next h
    cases hk : a.kind with
    | read => rw [hk] at heq; exact .outside s.port rest _ s.draws heq
    | write v => rw [hk] at heq; exact .write _ v rest ⟨a, rest, ha, hwf, rfl, hk⟩ heq
  | poll =>
    simp only [takeTurn] at h
    split at h <;> cases h
    · exact .outside s.port _ _ s.draws rfl
    · exact .outside s.port rest _ s.draws rfl
  | awaitIrq =>
    simp only [takeTurn] at h
    split at h <;> cases h
    · exact .outside s.port rest s.readData s.draws rfl
    · exact .outside s.port _ s.readData s.draws rfl
  | device => exact deviceTurn_effect (.inr ⟨rest, .inr ha⟩) h
  | controller => exact .controller rest (.inr ⟨rest, .inl ha⟩) h
  | cipher d => cases h; exact .outside _ rest s.readData s.draws (by rw [cipherStep_frame])
  | hardReset => cases h; exact .hardReset rest ha rfl

theorem step_effect {s t : State} (h : step s = .next t) : StepEffect s t := by
  rcases step_cases s with ⟨ha, e⟩ | ⟨e, rest, ha, e'⟩
  · exact deviceTurn_effect (l := s.agenda) (.inl ha) (e ▸ h)
  · exact takeTurn_effect ha (e' ▸ h)

/-- While BUSY = 1 a host write is the soft reset, or it reaches the flags alone (R36, R37). -/
theorem busWrite_of_busy {off : Nat} {v : Word} {s : State} (hb : s.busy = true) :
    busWrite off v s = resetDevice s ∨
      ∃ ie done wign cign, busWrite off v s = { s with ie := ie, done := done, wign := wign, cign := cign } := by
  rcases busWrite_cases off v s with h | ⟨-, h⟩ | ⟨-, h⟩ | ⟨-, h⟩ | ⟨-, f, h, -⟩
  · exact .inr ⟨s.ie, s.done, s.wign, s.cign, h⟩
  · rw [h, writeCtrl]
    split
    · exact .inl rfl
    · exact .inr ⟨_, s.done, s.wign, s.cign, rfl⟩
  · exact .inr ⟨s.ie, _, _, _, h⟩
  · exact .inr ⟨s.ie, s.done, s.wign, true, by rw [h, writeCmd, if_pos hb]⟩
  · exact .inr ⟨s.ie, s.done, true, s.cign, by rw [h, inputWrite, if_pos hb]⟩

/-! ## Completion (R35, R118) -/

/-- Only the controller clears BUSY and sets DONE in one step. -/
theorem completes_of_busy_falls {s t : State} (h : step s = .next t) (hb : s.busy = true) (hb' : t.busy = false)
    (hd : t.done = true) : ∃ l, Completes { s with agenda := l } t := by
  cases step_effect h with
  | controller l now turn =>
    obtain ⟨-, hc | hc⟩ := controllerTurn_controllerStep turn
    · cases hb.symm.trans (hc.busy.symm.trans hb')
    · exact ⟨l, hc⟩
  | outside port l r d eq => rw [eq] at hb'; cases hb.symm.trans hb'
  | write off v l now eq =>
    rcases busWrite_of_busy (off := off) (v := v) (s := { s with agenda := l }) hb with e | ⟨_, _, _, _, e⟩
    · rw [eq, e] at hd; cases hd
    · rw [eq, e] at hb'; cases hb.symm.trans hb'
  | hardReset l now eq => rw [eq] at hd; cases hd

/-- Settles O36: a completion clears by `consumesKey` and `consumesIv` of the command. -/
theorem completionConsumesKeyAndIv : Obligations.CompletionConsumesKeyAndIv := by
  intro s t _ h hb hb' hd
  obtain ⟨l, hc⟩ := completes_of_busy_falls h hb hb' hd
  refine ⟨hc.riv, hc.blk, ?_, ?_, ?_⟩
  · rintro (hcmd | hcmd) <;> simp [hc.key, hc.keyLd, hc.iv, hc.ivLd, hcmd, consumesKey, consumesIv]
  · rintro (hcmd | hcmd) <;> simp [hc.key, hc.keyLd, hc.iv, hc.ivLd, hcmd, consumesKey, consumesIv]
  · rintro (hcmd | hcmd | ⟨r, hcmd⟩) <;> simp [hc.key, hc.keyLd, hc.iv, hc.ivLd, hcmd, consumesKey, consumesIv]

/-! ## The inputs (R56, R59) -/

/-- The controller leaves IN as it is (R56). -/
theorem inByte_of_outReached {s t : State} (hp : t.params = s.params) (hwf : s.params.wf = true)
    (hm : Memory.wf s.mem) (h : OutReached s.params s.mem t.mem) (i : Nat) : inByte t i = inByte s i := by
  refine inByte_congr hp (fun j hj => h.readByte_eq hm ?_) i
  have := params_bounds hwf
  unfold Config.outBase Config.inBase
  omega

/-- Settles O56: while BUSY stays 1 a controller's turn goes on, and no other step reaches an input. -/
theorem inputsAreFixedWhileBusy : Obligations.InputsAreFixedWhileBusy := by
  intro s t hp hm hb h hb'
  cases step_effect h with
  | controller l now turn =>
    obtain ⟨hk, hc | hc⟩ := controllerTurn_controllerStep turn
    · have hmem : OutReached s.params s.mem t.mem := controllerTurn_outReached (s := { s with agenda := l }) turn
      exact ⟨⟨hk.padBs, hk.inLen, inByte_of_outReached hk.params hp hm hmem⟩, hc.key, hc.iv, hc.keyLd, hc.ivLd, hk.cmd,
        hk.opc⟩
    · cases hc.busy.symm.trans hb'
  | outside port l r d eq => rw [eq]; exact ⟨⟨rfl, rfl, fun _ => rfl⟩, rfl, rfl, rfl, rfl, rfl, rfl⟩
  | write off v l now eq =>
    rcases busWrite_of_busy (off := off) (v := v) (s := { s with agenda := l }) hb with e | ⟨_, _, _, _, e⟩
    · rw [eq, e] at hb'; cases hb'
    · rw [eq, e]; exact ⟨⟨rfl, rfl, fun _ => rfl⟩, rfl, rfl, rfl, rfl, rfl, rfl⟩
  | hardReset l now eq => rw [eq] at hb'; cases hb'

/-! ## The flags (R23, R36, R37, R70, R129, R130) -/

/-- The flags of STATUS that a step can set or clear. -/
structure Flags where
  busy : Bool
  done : Bool
  wign : Bool
  cign : Bool
  errCode : ErrCode
  errDetail : ErrDetail

/-- The flags of a state. -/
def flagsOf (s : State) : Flags := ⟨s.busy, s.done, s.wign, s.cign, s.errCode, s.errDetail⟩

theorem flagsOf_eq_iff (t : State) (f : Flags) :
    flagsOf t = f ↔ t.busy = f.busy ∧ t.done = f.done ∧ t.wign = f.wign ∧ t.cign = f.cign ∧ t.errCode = f.errCode ∧
      t.errDetail = f.errDetail := by
  cases f
  simp [flagsOf]

/-- Everything a step can do to the flags, with the turn that does it. -/
inductive FlagEffect (s t : State) : Prop
  | kept (eq : flagsOf t = flagsOf s)
  | resets (now : resetsNow s) (eq : flagsOf t = flagsOf State.reset)
  | accepts (now : acceptsNow s) (fsm : t.fsm = .validate)
      (eq : flagsOf t = { flagsOf s with busy := true, done := false, errCode := .none, errDetail := .none })
  | completes (now : completesTo s t)
      (eq : flagsOf t = { flagsOf t with wign := s.wign, cign := s.cign })
      (error : t.errCode = .none → t.errCode = s.errCode ∧ t.errDetail = s.errDetail)
  | clears (v : Word) (now : writesNow s 0x008 v)
      (eq : flagsOf t = { flagsOf s with
        done := s.done && !v.getLsbD 1, wign := s.wign && !v.getLsbD 3, cign := s.cign && !v.getLsbD 4 })
  | ignoresInput (busy : s.busy = true) (now : ∃ off v, writesNow s off v ∧ isInputOffset s.params off = true)
      (eq : flagsOf t = { flagsOf s with wign := true })
  | ignoresCommand (busy : s.busy = true) (now : ∃ v, writesNow s 0x00C v)
      (eq : flagsOf t = { flagsOf s with cign := true })

theorem busWrite_flagEffect {s : State} {off : Nat} {v : Word} (l : List Event) (now : writesNow s off v) :
    FlagEffect s (busWrite off v { s with agenda := l }) := by
  rcases busWrite_cases off v { s with agenda := l } with h | ⟨ho, h⟩ | ⟨ho, h⟩ | ⟨ho, h⟩ | ⟨ho, f, h, hf⟩
  · rw [h]; exact .kept rfl
  · rw [h, writeCtrl]
    split
    · exact .resets (.inr ⟨v, ho ▸ now, ‹_›⟩) rfl
    · exact .kept rfl
  · rw [h]; exact .clears v (ho ▸ now) rfl
  · rw [h, writeCmd]
    split
    · exact .ignoresCommand ‹_› ⟨v, ho ▸ now⟩ rfl
    · exact .accepts ⟨Bool.eq_false_of_not_eq_true ‹_›, v, ho ▸ now⟩ rfl rfl
  · rw [h, inputWrite]
    split
    · exact .ignoresInput ‹_› ⟨off, v, now, ho⟩ rfl
    · rw [hf]; exact .kept rfl

theorem controllerTurn_flagEffect {s t : State} {l : List Event} (hs : Inv s) (ht : Inv t)
    (now : s.agenda = [] ∨ ∃ rest, s.agenda = .controller :: rest ∨ s.agenda = .device :: rest)
    (turn : controllerTurn { s with agenda := l } = .next t) : FlagEffect s t := by
  obtain ⟨hk, hc | hc⟩ := controllerTurn_controllerStep turn
  · exact .kept ((flagsOf_eq_iff _ _).2 ⟨hc.busy, hc.done, hk.wign, hk.cign, hc.errCode, hc.errDetail⟩)
  · have hb : s.busy = true := hs.control.busy_iff.2 hc.from_busy
    refine .completes ⟨hb, hc.busy, hc.done, hc.fsm, now⟩ ?_ fun herr => ?_
    · rw [flagsOf_eq_iff]
      exact ⟨rfl, rfl, hk.wign, hk.cign, rfl, rfl⟩
    · obtain ⟨-, hcode, hdetail, -⟩ := hs.control.busy_flags hb
      have hpair := ht.control.error_pair
      rw [herr] at hpair
      exact ⟨herr.trans hcode.symm, (by simpa [legalError] using hpair : t.errDetail = .none).trans hdetail.symm⟩

theorem step_flagEffect {s t : State} (hs : Inv s) (h : step s = .next t) : FlagEffect s t := by
  cases step_effect h with
  | controller l now turn => exact controllerTurn_flagEffect hs (stepKeepsTheInvariant s t hs h) now turn
  | outside port l r d eq => rw [eq]; exact .kept rfl
  | write off v l now eq => rw [eq]; exact busWrite_flagEffect l now
  | hardReset l now eq => rw [eq]; exact .resets (.inl ⟨l, now⟩) rfl

/-- Settles O54: in each kind of step, the flags that differ are those its turn accounts for. -/
theorem flagSettersAreComplete : Obligations.FlagSettersAreComplete := by
  intro s t hs h
  cases step_flagEffect hs h with
  | kept eq =>
    obtain ⟨hb, hd, hw, hc, he, hx⟩ := (flagsOf_eq_iff _ _).1 eq
    simp +contextual [flagsOf, hb, hd, hw, hc, he, hx]
  | resets now eq =>
    obtain ⟨hb, hd, hw, hc, he, hx⟩ := (flagsOf_eq_iff _ _).1 eq
    simp [flagsOf, State.reset, hb, hd, hw, hc, he, hx, now]
  | accepts now fsm eq =>
    obtain ⟨hb, hd, hw, hc, he, hx⟩ := (flagsOf_eq_iff _ _).1 eq
    simp +contextual [flagsOf, hb, hd, hw, hc, he, hx, now, fsm]
  | completes now eq error =>
    obtain ⟨-, -, hw, hc, -⟩ := (flagsOf_eq_iff _ _).1 eq
    have ⟨hb, hb', hd, _⟩ := now
    have herr : t.errCode ≠ s.errCode ∨ t.errDetail ≠ s.errDetail → t.errCode ≠ .none := fun hne h0 =>
      hne.elim (fun h1 => h1 (error h0).1) (fun h1 => h1 (error h0).2)
    exact ⟨by simp [hb], fun _ _ => .inl now, fun _ _ => now, by simp [hd], by simp +contextual [hw],
      by simp +contextual [hw], by simp +contextual [hc], by simp +contextual [hc], fun hne => .inr ⟨now, herr hne⟩⟩
  | clears v now eq =>
    obtain ⟨hb, hd, hw, hc, he, hx⟩ := (flagsOf_eq_iff _ _).1 eq
    refine ⟨by simp +contextual [hb, flagsOf], by simp +contextual [hb, flagsOf], by simp +contextual [hd],
      fun h0 h1 => .inl ⟨v, now, ?_⟩, by simp +contextual [hw], fun h0 h1 => .inl ⟨v, now, ?_⟩,
      by simp +contextual [hc], fun h0 h1 => .inl ⟨v, now, ?_⟩, by simp [he, hx, flagsOf]⟩
    · simpa [h0, h1] using hd
    · simpa [h0, h1] using hw
    · simpa [h0, h1] using hc
  | ignoresInput busy now eq =>
    obtain ⟨hb, hd, hw, hc, he, hx⟩ := (flagsOf_eq_iff _ _).1 eq
    refine ⟨?_, ?_, ?_, ?_, fun _ _ => ⟨busy, now⟩, ?_, ?_, ?_, ?_⟩ <;>
      simp +contextual [flagsOf, hb, hd, hw, hc, he, hx]
  | ignoresCommand busy now eq =>
    obtain ⟨hb, hd, hw, hc, he, hx⟩ := (flagsOf_eq_iff _ _).1 eq
    refine ⟨?_, ?_, ?_, ?_, ?_, ?_, fun _ _ => ⟨busy, now⟩, ?_, ?_⟩ <;>
      simp +contextual [flagsOf, hb, hd, hw, hc, he, hx]

end Sys2Proof.Machine
end

section
/-! PROOFS. The registers and the windows as the host reads and writes them (10_state.md R17 to R37; 20_memory.md R46 to
R49, R53), and the turns that have no step (R40, R88, R99, R100, R107, R109). -/

namespace Sys2Proof.Machine

/-! ## A register by its offset -/

theorem regOffset_bounds (r : Reg) : regOffset r < 0x50 ∧ regOffset r % 4 = 0 := by
  cases r with
  | key i => have := i.isLt; simp only [regOffset]; omega
  | iv i => have := i.isLt; simp only [regOffset]; omega
  | _ => decide

theorem busWrite_regOffset (r : Reg) (v : Word) (s : State) : busWrite (regOffset r) v s = writeReg r v s := by
  simp only [busWrite, targetAt_regOffset]

theorem busValue_regOffset (r : Reg) (s : State) : busValue (regOffset r) s = readReg r s := by
  simp only [busValue, targetAt_regOffset]

/-- A host write to a register is one step, the register's own write. -/
theorem hostAccess_writeReg (r : Reg) (v : Word) (s : State) :
    hostAccess (wordAccess s.params (regOffset r) (.write v)) s = .next (writeReg r v s) := by
  obtain ⟨hlt, h4⟩ := regOffset_bounds r
  rw [hostAccess_word s _ h4 (by omega), busAccess, busWrite_regOffset]

theorem inputWrite_of_busy {f : State → State} {s : State} (hb : s.busy = true) :
    inputWrite f s = { s with wign := true } := if_pos hb

theorem inputWrite_of_idle {f : State → State} {s : State} (hb : s.busy = false) : inputWrite f s = f s :=
  if_neg (by simp [hb])

/-- The number an appended pair of bit fields stands for. -/
theorem toNat_append_add {n m : Nat} (x : BitVec n) (y : BitVec m) :
    (x ++ y).toNat = x.toNat * 2 ^ m + y.toNat := by
  rw [BitVec.toNat_append, ← Nat.shiftLeft_add_eq_or_of_lt y.isLt, Nat.shiftLeft_eq]

theorem toNat_zero_field (n : Nat) : (0 : BitVec n).toNat = 0 := rfl

/-! ## Writes of the inputs (R27, R28, R33, R34, R36, R47) -/

theorem writeReg_padBs_of_idle {s : State} (hb : s.busy = false) (v : Word) :
    writeReg .padBs v s = { s with padBs := v.extractLsb' 0 8 } := if_neg (by simp [hb])

theorem writeReg_inLen_of_idle {s : State} (hb : s.busy = false) (v : Word) :
    writeReg .inLen v s = { s with inLen := v } := if_neg (by simp [hb])

theorem writeReg_key_of_idle {s : State} (hb : s.busy = false) (i : Fin 4) (v : Word) :
    writeReg (.key i) v s = writeKeyWord i v s := if_neg (by simp [hb])

theorem writeReg_iv_of_idle {s : State} (hb : s.busy = false) (i : Fin 4) (v : Word) :
    writeReg (.iv i) v s = writeIvWord i v s := if_neg (by simp [hb])

theorem busValue_padBs (s : State) : (busValue 0x010 s).toNat = s.padBs.toNat := by
  rw [show busValue 0x010 s = (0 : BitVec 24) ++ s.padBs from busValue_regOffset .padBs s, toNat_append_add,
    toNat_zero_field, Nat.zero_mul, Nat.zero_add]

/-- Settles O39: an idle input write stores its value, and the register reads it back. -/
theorem padBsAndInLenWrites : Obligations.PadBsAndInLenWrites := by
  intro s v hb
  constructor
  · refine ⟨_, (hostAccess_writeReg .padBs v s).trans (congrArg _ (writeReg_padBs_of_idle hb v)), rfl, ?_⟩
    rw [busValue_padBs, BitVec.extractLsb'_toNat]
    simp
  · exact ⟨_, (hostAccess_writeReg .inLen v s).trans (congrArg _ (writeReg_inLen_of_idle hb v)), rfl,
      busValue_regOffset .inLen _⟩

theorem getLsbD_or_twoPow (x : BitVec 4) (i : Fin 4) (j : Nat) :
    (x ||| BitVec.twoPow 4 i.val).getLsbD j = (decide (j = i.val) || x.getLsbD j) := by
  rw [BitVec.getLsbD_or, BitVec.getLsbD_twoPow, Bool.or_comm]
  simp [i.isLt, eq_comm]

/-- Settles O40: the idle write of a key or IV word is `setBlockWord` with its LOADED bit. -/
theorem keyAndIvWrites : Obligations.KeyAndIvWrites := by
  intro s i v hb
  constructor
  · exact ⟨_, (hostAccess_writeReg (.key i) v s).trans (congrArg _ (writeReg_key_of_idle hb i v)), rfl,
      fun j hj => blockByte_setBlockWord s.key i.val v hj, fun j _ => getLsbD_or_twoPow s.keyLd i j,
      busValue_regOffset (.key i) _⟩
  · exact ⟨_, (hostAccess_writeReg (.iv i) v s).trans (congrArg _ (writeReg_iv_of_idle hb i v)), rfl,
      fun j hj => blockByte_setBlockWord s.iv i.val v hj, fun j _ => getLsbD_or_twoPow s.ivLd i j,
      busValue_regOffset (.iv i) _⟩

/-- Byte `j` of word `i` is the byte written there. -/
theorem blockByte_setBlockWord_word (b : Block) (i : Fin 4) (v : Word) {j : Nat} (hj : j < 4) :
    blockByte (setBlockWord b i.val v) (4 * i.val + j) = wordByte v j := by
  have := i.isLt
  rw [blockByte_setBlockWord b i.val v (by omega), if_pos (by omega), show (4 * i.val + j) % 4 = j by omega]

theorem getD_wordBytes (v : Word) {j : Nat} (hj : j < 4) : (wordBytes v).getD j 0 = wordByte v j := by
  interval_cases j <;> rfl

theorem busWrite_in {s : State} {i : Nat} (v : Word) (hp : s.params.wf = true) (hi : i < s.params.bufBytes) :
    busWrite (0x10000 + i) v s =
      inputWrite (fun t => { t with mem := writeBytes t.mem (Config.inBase + i) (wordBytes v) }) s := by
  have := params_bounds hp
  have ht := targetAt_in (off := 0x10000 + i) (by omega) (by omega)
  rw [show 0x10000 + i - 0x10000 = i by omega] at ht
  simp only [busWrite, ht, writeIn, if_pos hi]

/-- The bytes of an aligned word of IN after its write (R47). -/
theorem inByte_writeBytes {s : State} {i j : Nat} (v : Word) (hp : s.params.wf = true) (hm : Memory.wf s.mem)
    (hi : i < s.params.bufBytes) (h4 : i % 4 = 0) (hj : j < 4) :
    inByte { s with mem := writeBytes s.mem (Config.inBase + i) (wordBytes v) } (i + j) = wordByte v j := by
  have := params_bounds hp
  have hlt : i + j < s.params.bufBytes := by omega
  simp only [inByte, if_pos hlt]
  rw [readByte_writeBytes hm, if_pos (by rw [length_wordBytes]; omega),
    show Config.inBase + (i + j) - (Config.inBase + i) = j by omega, getD_wordBytes v hj]

/-- The offsets of the input write gate: PAD_BS, IN_LEN, KEYi, IVi and the words of IN (R36). -/
def IsInput (p : Params) (off : Nat) : Prop :=
  off = 0x010 ∨ off = 0x014 ∨ (∃ i : Fin 4, off = 0x030 + 4 * i.val ∨ off = 0x040 + 4 * i.val) ∨
    (0x10000 ≤ off ∧ off < 0x10000 + p.bufBytes ∧ off % 4 = 0)

theorem isInput_bounds {p : Params} {off : Nat} (hp : p.wf = true) (h : IsInput p off) :
    off % 4 = 0 ∧ off < 0x40000 := by
  have := params_bounds hp
  obtain rfl | rfl | ⟨i, rfl | rfl⟩ | h := h <;> omega

/-- Every write of an input goes through the gate and leaves WIGN to it. -/
theorem busWrite_input {s : State} {off : Nat} (v : Word) (hp : s.params.wf = true) (h : IsInput s.params off) :
    ∃ f, busWrite off v s = inputWrite f s ∧ (f s).wign = s.wign := by
  obtain rfl | rfl | ⟨i, rfl | rfl⟩ | ⟨hlo, hhi, -⟩ := h
  · exact ⟨fun t => { t with padBs := v.extractLsb' 0 8 }, busWrite_regOffset .padBs v s, rfl⟩
  · exact ⟨fun t => { t with inLen := v }, busWrite_regOffset .inLen v s, rfl⟩
  · exact ⟨_, busWrite_regOffset (.key i) v s, rfl⟩
  · exact ⟨_, busWrite_regOffset (.iv i) v s, rfl⟩
  · obtain ⟨i, rfl⟩ := Nat.exists_eq_add_of_le hlo
    exact ⟨_, busWrite_in v hp (by omega), rfl⟩

/-- Settles O38: the gate sets WIGN alone while busy; while idle each offset stores by its own rule. -/
theorem inputWriteGate : Obligations.InputWriteGate := by
  intro s off v hp hm hoff
  obtain ⟨h4, hlt⟩ := isInput_bounds hp hoff
  obtain ⟨f, hf, hwign⟩ := busWrite_input v hp hoff
  have hstep : hostAccess (wordAccess s.params off (.write v)) s = .next (busWrite off v s) :=
    hostAccess_word s (.write v) h4 hlt
  constructor
  · intro hb
    rw [hstep, hf, inputWrite_of_busy hb]
  · intro hb
    refine ⟨_, hstep, ?_, ?_, ?_, ?_, ?_, ?_⟩
    · rw [hf, inputWrite_of_idle hb, hwign]
    · rintro rfl
      exact congrArg State.padBs ((busWrite_regOffset .padBs v s).trans (writeReg_padBs_of_idle hb v))
    · rintro rfl
      exact congrArg State.inLen ((busWrite_regOffset .inLen v s).trans (writeReg_inLen_of_idle hb v))
    · rintro i rfl
      have e := (busWrite_regOffset (.key i) v s).trans (writeReg_key_of_idle hb i v)
      rw [show busWrite (0x030 + 4 * i.val) v s = writeKeyWord i v s from e]
      exact ⟨(getLsbD_or_twoPow s.keyLd i i.val).trans (by simp),
        fun j hj => blockByte_setBlockWord_word s.key i v hj⟩
    · rintro i rfl
      have e := (busWrite_regOffset (.iv i) v s).trans (writeReg_iv_of_idle hb i v)
      rw [show busWrite (0x040 + 4 * i.val) v s = writeIvWord i v s from e]
      exact ⟨(getLsbD_or_twoPow s.ivLd i i.val).trans (by simp),
        fun j hj => blockByte_setBlockWord_word s.iv i v hj⟩
    · intro hlo j hj
      obtain ⟨i, rfl⟩ := Nat.exists_eq_add_of_le hlo
      have hi : i < s.params.bufBytes := by
        obtain h | h | ⟨k, h⟩ | ⟨-, h, -⟩ := hoff <;> omega
      rw [busWrite_in v hp hi, inputWrite_of_idle hb, Nat.add_sub_cancel_left]
      exact inByte_writeBytes v hp hm hi (by omega) hj

/-! ## Read-only and reserved offsets (R17, R46, R49) -/

theorem targetAt_of_no_register {off : Nat} (hlt : off < 0x100) (h : ∀ r, regOffset r ≠ off) :
    targetAt off = .reserved := by
  have hnone : regAt off = none := by simpa [regAt] using fun r _ => h r
  have hregs : off < Config.regsEnd := hlt
  simp only [targetAt, if_pos hregs, hnone]

/-- The reserved offsets of the register region: 0x028, 0x02C and those from 0x050 up. -/
theorem targetAt_reserved_register {off : Nat} (h : off = 0x028 ∨ off = 0x02C ∨ (0x050 ≤ off ∧ off < 0x100)) :
    targetAt off = .reserved := by
  obtain rfl | rfl | ⟨hlo, hhi⟩ := h
  · rfl
  · rfl
  · refine targetAt_of_no_register hhi fun r hr => ?_
    have := (regOffset_bounds r).1
    omega

/-- Settles O43: a read-only register, the OUT window and a reserved offset each drop the write. -/
theorem readOnlyAndReservedOffsetsIgnoreWrites : Obligations.ReadOnlyAndReservedOffsetsIgnoreWrites := by
  intro s off v h4
  constructor
  · rintro (rfl | rfl | rfl | rfl | rfl | ⟨hlo, hhi⟩)
    · exact hostAccess_writeReg .id v s
    · exact hostAccess_writeReg .outLen v s
    · exact hostAccess_writeReg .blkIdx v s
    · exact hostAccess_writeReg .loaded v s
    · exact hostAccess_writeReg .cap v s
    · rw [hostAccess_word s _ h4 (by omega)]
      simp only [busAccess, busWrite, targetAt_out hlo hhi]
  · intro hoff
    have ht : targetAt off = .reserved := by
      by_cases h : off < 0x100
      · exact targetAt_reserved_register (by omega)
      · exact targetAt_reserved (by omega)
    rw [hostAccess_word s _ h4 (by omega)]
    simp only [busAccess, busWrite, busValue, ht, and_self]

/-! ## CTRL and STATUS (R19, R21, R22, R121) -/

theorem ctrlWord_eq (s : State) : ctrlWord s = if s.ie then 1 else 0 := by
  cases h : s.ie <;> simp [ctrlWord, h]

/-- Settles O44: without SRST the write of CTRL is the store of IE. -/
theorem ctrlWriteStoresTheInterruptEnable : Obligations.CtrlWriteStoresTheInterruptEnable := by
  intro s v hsrst
  have hw : writeReg .ctrl v s = { s with ie := v.getLsbD 0 } := if_neg (by rw [hsrst]; decide)
  exact ⟨_, (hostAccess_writeReg .ctrl v s).trans (congrArg _ hw), rfl,
    (busValue_regOffset .ctrl _).trans (ctrlWord_eq _), rfl⟩

/-- Settles O45: each flag stays unless its bit is written 1. -/
theorem statusWriteClearsFlags : Obligations.StatusWriteClearsFlags := by
  intro s v
  have clear : ∀ flag bit : Bool, (flag && !bit) = if bit = true then false else flag := by decide
  refine (hostAccess_writeReg .status v s).trans ?_
  simp only [writeReg, writeStatus, clear]

theorem statusErr_eq (s : State) : statusErr s = !decide (s.errCode = .none) := by
  cases h : s.errCode <;> simp [statusErr, errCodeValue, h]

theorem toNat_statusWord (s : State) :
    (statusWord s).toNat =
      s.busy.toNat + 2 * s.done.toNat + 4 * (statusErr s).toNat + 8 * s.wign.toNat + 16 * s.cign.toNat +
        0x100 * (errCodeValue s.errCode).toNat + 0x10000 * (errDetailValue s.errDetail).toNat +
        0x1000000 * (fsmCode s.fsm).toNat := by
  simp only [statusWord, toNat_append_add, toNat_zero_field, BitVec.toNat_ofBool]
  omega

/-- Settles O46: the word of STATUS is the sum of its fields, and each field is the number of its code. -/
theorem statusReadLayout : Obligations.StatusReadLayout := by
  intro s
  have hone : ∀ b : Bool, b.toNat = if b = true then 1 else 0 := by decide
  have hbit : ∀ (k : Nat) (b : Bool), k * b.toNat = if b = true then k else 0 := fun k b => by cases b <;> simp
  have herr : 4 * (!decide (s.errCode = .none)).toNat = if s.errCode = .none then 0 else 4 := by split <;> simp [*]
  rw [show busValue 0x008 s = statusWord s from busValue_regOffset .status s, toNat_statusWord, statusErr_eq]
  congr 1
  · congr 1
    · congr 1
      · rw [herr, hbit 2, hbit 8, hbit 16, hone]
      · cases s.errCode <;> rfl
    · cases s.errDetail <;> rfl
  · cases s.fsm <;> rfl

/-- Settles O47: each register by its offset. -/
theorem registerReads : Obligations.RegisterReads := by
  intro s hp
  have hcap := params_bounds hp
  refine ⟨busValue_id s, (busValue_regOffset .ctrl s).trans (ctrlWord_eq s), busValue_regOffset .cmd s,
    busValue_padBs s, busValue_regOffset .inLen s, busValue_regOffset .outLen s, busValue_regOffset .blkIdx s, ?_, ?_,
    fun i => ⟨busValue_regOffset (.key i) s, busValue_regOffset (.iv i) s⟩⟩
  · rw [show busValue 0x020 s = loadedWord s from busValue_regOffset .loaded s]
    simp only [loadedWord, toNat_append_add, toNat_zero_field]
    omega
  · rw [busValue_cap, BitVec.toNat_ofNat, Nat.mod_eq_of_lt (by omega)]

/-! ## Turns without a step (log 8) -/

theorem portFree_eq_false {s : State} (h : s.port.reqValid = true ∨ s.port.rspValid = true) : ¬portFree s = true := by
  rcases h with h | h <;> simp [portFree, h]

/-- Settles O32: LOAD, WAIT and the cipher each act under a condition that fails here. -/
theorem turnsWithoutAStepChangeNothing : Obligations.TurnsWithoutAStepChangeNothing := by
  intro s
  refine ⟨fun hf => by simp only [takeTurn, controllerTurn, hf], fun i hi => ⟨fun hf hport => ?_, fun hf hrsp => ?_⟩,
    fun hport d => ?_⟩
  · have hno := portFree_eq_false hport
    rcases hi with rfl | rfl | rfl | rfl
    · simp only [exec_ecbEnc, execEcb, hf, ecbLoad, if_neg hno]
    · simp only [exec_ecbDec, execEcb, hf, ecbLoad, if_neg hno]
    · simp only [exec, execCbcEnc, hf, cbcEncLoad, if_neg hno]
    · simp only [exec, execCbcDec, hf, cbcDecLoad, if_neg hno]
  · have hwait : ∀ (x r : Block) (last : State → State), cbcWait x r last s = s := fun x r last =>
      if_neg (by simp [hrsp])
    rcases hi with rfl | rfl | rfl | rfl
    · simp only [exec_ecbEnc, execEcb, hf, ecbWait_eq_cbcWait, hwait]
    · simp only [exec_ecbDec, execEcb, hf, ecbWait_eq_cbcWait, hwait]
    · simp only [exec, execCbcEnc, hf, cbcEncWait, hwait]
    · simp only [exec, execCbcDec, hf, cbcDecWait, hwait]
  · have hno : ¬cipherEnabled s = true := by
      rw [cipherEnabled_iff]
      rcases hport with h | h <;> simp [h]
    exact congrArg _ (cipherStep_of_not_enabled _ d hno)

end Sys2Proof.Machine
end

section
/-! PROOFS. The two buffer windows and the host's read as one step (20_memory.md R47, R48, R51 to R54), and which
accesses are steps (R50). -/

namespace Sys2Proof.Machine

/-! ## The bytes of a word of a window (R47, R48) -/

theorem inByte_of_lt {s : State} {i : Nat} (h : i < s.params.bufBytes) :
    inByte s i = readByte s.mem (0x10000 + i) := if_pos h

theorem inByte_of_le {s : State} {i : Nat} (h : s.params.bufBytes ≤ i) : inByte s i = 0 := if_neg (Nat.not_lt.2 h)

theorem outByte_of_lt {s : State} {i : Nat} (h : i < s.params.bufBytes + 256) :
    outByte s i = readByte s.mem (0x20000 + i) := if_pos h

theorem outByte_of_le {s : State} {i : Nat} (h : s.params.bufBytes + 256 ≤ i) : outByte s i = 0 :=
  if_neg (Nat.not_lt.2 h)

@[simp] theorem wordByte_zero (j : Nat) : wordByte 0 j = 0 := by simp [wordByte]

theorem wordOfFn_zero {f : Nat → Byte} (h : ∀ j < 4, f j = 0) : wordOfFn f = 0 :=
  word_ext fun j hj => by rw [wordByte_wordOfFn f hj, h j hj, wordByte_zero]

theorem targetAt_in_add {i : Nat} (h : i < 0x10000) : targetAt (0x10000 + i) = .inWindow i := by
  rw [targetAt_in (by omega) (by omega), Nat.add_sub_cancel_left]

theorem targetAt_out_add {i : Nat} (h : i < 0x10000) : targetAt (0x20000 + i) = .outWindow i := by
  rw [targetAt_out (by omega) (by omega), Nat.add_sub_cancel_left]

/-- A read of the IN window, whatever BUSY is (R51). -/
theorem busValue_in (s : State) {i : Nat} (h : i < 0x10000) :
    busValue (0x10000 + i) s = wordOfFn (fun j => inByte s (i + j)) := by
  simp only [busValue, targetAt_in_add h]

/-- A read of the OUT window (R51), which BUSY hides (R52). -/
theorem busValue_out (s : State) {i : Nat} (h : i < 0x10000) :
    busValue (0x20000 + i) s = if s.busy then 0 else wordOfFn (fun j => outByte s (i + j)) := by
  simp only [busValue, targetAt_out_add h]

theorem wordByte_busValue_in {s : State} {i j : Nat} (h : i < 0x10000) (hj : j < 4) :
    wordByte (busValue (0x10000 + i) s) j = inByte s (i + j) := by
  rw [busValue_in s h, wordByte_wordOfFn _ hj]

theorem wordByte_busValue_out {s : State} {i j : Nat} (hb : s.busy = false) (h : i < 0x10000) (hj : j < 4) :
    wordByte (busValue (0x20000 + i) s) j = outByte s (i + j) := by
  rw [busValue_out s h, if_neg (by simp [hb]), wordByte_wordOfFn _ hj]

/-! ## Writes of the windows (R48, R53, R54) -/

/-- A byte read after a word is stored, its lowest byte first (R54). -/
theorem readByte_writeBytes_wordBytes {m : Memory} (hm : Memory.wf m) (a : Nat) (v : Word) (x : Nat) :
    readByte (writeBytes m a (wordBytes v)) x =
      if a ≤ x ∧ x < a + 4 then wordByte v (x - a) else readByte m x := by
  rw [readByte_writeBytes hm, length_wordBytes]
  split
  · exact getD_wordBytes v (by omega)
  · rfl

/-- Settles O41: an idle write below the capacity is `writeBytes` of the word's bytes, so each byte of the word reads as
written. -/
theorem inWindowWriteReadsBack : Obligations.InWindowWriteReadsBack := by
  intro s m v hb hp hm hlt
  have hbound := params_bounds hp
  have hwrite : busWrite (0x10000 + 4 * m) v s =
      { s with mem := writeBytes s.mem (0x10000 + 4 * m) (wordBytes v) } :=
    (busWrite_in v hp hlt).trans (inputWrite_of_idle hb)
  refine ⟨_, (hostAccess_word s (.write v) (by omega) (by omega)).trans (congrArg _ hwrite), rfl,
    readByte_writeBytes_wordBytes hm _ v, word_ext fun j hj => ?_⟩
  rw [wordByte_busValue_in (by omega) hj]
  exact inByte_writeBytes v hp hm hlt (by omega) hj

theorem busWrite_in_past_capacity {s : State} {i : Nat} (v : Word) (h : i < 0x10000) (hi : s.params.bufBytes ≤ i) :
    busWrite (0x10000 + i) v s = s := by
  simp only [busWrite, targetAt_in_add h, writeIn, if_neg (Nat.not_lt.2 hi)]

theorem busWrite_out {i : Nat} (v : Word) (s : State) (h : i < 0x10000) : busWrite (0x20000 + i) v s = s := by
  simp only [busWrite, targetAt_out_add h]

/-- Settles O42: past the capacity each byte of the word is 0 and the window drops the write. -/
theorem wordsPastTheCapacity : Obligations.WordsPastTheCapacity := by
  intro s m v _ hm
  have hlt : 4 * m < 0x10000 := by omega
  constructor
  · intro hcap
    constructor
    · rw [busValue_in s hlt]
      exact wordOfFn_zero fun j _ => inByte_of_le (by omega)
    · rw [hostAccess_word s _ (by omega) (by omega), busAccess, busWrite_in_past_capacity v hlt hcap]
  · intro hcap
    constructor
    · rw [busValue_out s hlt, wordOfFn_zero fun j _ => outByte_of_le (by omega), ite_self]
    · rw [hostAccess_word s _ (by omega) (by omega), busAccess, busWrite_out v s hlt]

/-! ## Reads (R33, R34, R42, R43, R51, R52) -/

/-- No read shows the key, the IV, the running IV, the cipher's block or its port. -/
theorem busValue_of_secrets (off : Nat) (s : State) (key iv riv blk : Block) (port : CipherPort) :
    busValue off { s with key := key, iv := iv, riv := riv, blk := blk, port := port } = busValue off s := by
  unfold busValue
  cases targetAt off with
  | reg r => cases r <;> rfl
  | inWindow i => rfl
  | outWindow i => rfl
  | reserved => rfl

/-- Settles O48: a read is one step to `readData`, its value is free of the secrets, and a word of a window is its
bytes. -/
theorem hostRead : Obligations.HostRead := by
  intro s hp
  have hbound := params_bounds hp
  refine ⟨fun off h4 hlt => ⟨hostAccess_word s .read h4 hlt, busValue_of_secrets off s⟩, fun m hm j hj => ?_,
    fun m hm => ⟨fun hb => ?_, fun hb j hj => ?_⟩⟩
  · rw [wordByte_busValue_in (by omega) hj, inByte_of_lt (by omega), Nat.add_assoc]
  · rw [busValue_out s (by omega), if_pos hb]
  · rw [wordByte_busValue_out hb (by omega) hj, outByte_of_lt (by omega), Nat.add_assoc]

/-! ## The interface contract (R50) -/

theorem access_wf_iff (p : Params) (a : Access) :
    a.wf p = true ↔
      a.width = 4 ∧ p.regBase ≤ a.addr ∧ a.addr < p.regBase + 0x40000 ∧ (a.addr - p.regBase) % 4 = 0 ∧
        a.lanes = 0xF := by
  change a.wf p = true ↔ a.width = 4 ∧ p.regBase ≤ a.addr ∧ a.addr < p.regBase + Config.windowSize ∧
    (a.addr - p.regBase) % 4 = 0 ∧ a.lanes = 0xF
  simp only [Access.wf, Access.fullWidth, Access.inWindow, Access.aligned, Access.offset, Access.allLanes,
    Bool.and_eq_true, beq_iff_eq, decide_eq_true_eq, and_assoc]

theorem hostAccess_next_iff (a : Access) (s : State) : (∃ t, hostAccess a s = .next t) ↔ a.wf s.params = true :=
  ⟨fun ⟨_, h⟩ => (hostAccess_eq_next h).1, fun h => ⟨_, (hostAccess_wf h).1⟩⟩

/-- A host access is a step or it is refused. -/
theorem hostAccess_next_or_refused (a : Access) (s : State) :
    (∃ t, hostAccess a s = .next t) ∨ ∃ r, hostAccess a s = .refused r := by
  cases hostAccess a s with
  | next t => exact .inl ⟨t, rfl⟩
  | fault r => cases r
  | refused r => exact .inr ⟨r, rfl⟩

theorem hostAccess_refused_iff (a : Access) (s : State) :
    (∃ r, hostAccess a s = .refused r) ↔ ¬a.wf s.params = true := by
  rw [← hostAccess_next_iff]
  constructor
  · rintro ⟨r, hr⟩ ⟨t, ht⟩
    cases hr.symm.trans ht
  · exact (hostAccess_next_or_refused a s).resolve_left

/-- Settles O49: an access is a step exactly when it is well formed, else it is refused. -/
theorem onlyContractAccessesAreSteps : Obligations.OnlyContractAccessesAreSteps := by
  intro s a
  rw [hostAccess_next_iff, hostAccess_refused_iff, access_wf_iff]
  exact ⟨Iff.rfl, Iff.rfl⟩

end Sys2Proof.Machine
end

section
/-! PROOFS. Command words (30_encoding.md R64 to R69): a word by its two fields, the decoder as an equation for each
of its three answers, and the encoder as the decoder's inverse. -/

namespace Sys2Proof

/-! ## The fields of a command word (R65) -/

theorem toNat_opcodeField (w : Word) : (opcodeField w).toNat = w.toNat % 16 := by
  simp [opcodeField, BitVec.extractLsb'_toNat]

theorem toNat_rsvField (w : Word) : (rsvField w).toNat = w.toNat / 16 := by
  have := w.isLt
  rw [rsvField, BitVec.extractLsb'_toNat, Nat.shiftRight_eq_div_pow]
  omega

theorem rsvClear_iff (w : Word) : rsvClear w = true ↔ w.toNat / 16 = 0 := by
  rw [rsvClear, beq_iff_eq, ← BitVec.toNat_inj, toNat_rsvField]
  rfl

/-! ## The opcode map (R67) -/

theorem opcodeInstr_encodeOpcode (i : Instr) : opcodeInstr (encodeOpcode i) = some i := by
  cases i <;> rfl

theorem opcodeInstr_eq_some_iff (op : BitVec 4) (i : Instr) : opcodeInstr op = some i ↔ op = encodeOpcode i := by
  constructor
  · revert op
    cases i <;> decide
  · rintro rfl
    exact opcodeInstr_encodeOpcode i

theorem opcodeInstr_eq_none_iff (op : BitVec 4) : opcodeInstr op = none ↔ op.toNat = 0 ∨ 7 ≤ op.toNat := by
  revert op
  decide

/-- The number of a command's word: its OPCODE, in a word with no other bit set. -/
theorem toNat_encode (i : Instr) : (encode i).toNat = (encodeOpcode i).toNat := by
  rw [encode, BitVec.toNat_append]
  simp

theorem toNat_encodeOpcode_bounds (i : Instr) : 1 ≤ (encodeOpcode i).toNat ∧ (encodeOpcode i).toNat ≤ 6 := by
  cases i <;> decide

/-- A word is a command's word exactly when its OPCODE is the command's and its reserved bits are 0. -/
theorem eq_encode_iff (w : Word) (i : Instr) :
    w = encode i ↔ opcodeField w = encodeOpcode i ∧ rsvClear w = true := by
  have := (encodeOpcode i).isLt
  rw [rsvClear_iff, ← BitVec.toNat_inj, ← BitVec.toNat_inj, toNat_encode, toNat_opcodeField]
  omega

/-! ## The three answers of the decoder (R68, R69) -/

theorem decode_of_reserved_opcode {w : Word} (h : w.toNat % 16 = 0 ∨ 7 ≤ w.toNat % 16) :
    decode w = .illegal .badOpcode := by
  have hnone : opcodeInstr (opcodeField w) = none := by rwa [opcodeInstr_eq_none_iff, toNat_opcodeField]
  simp only [decode, hnone]

theorem decode_of_reserved_bits {w : Word} (hop : ¬(w.toNat % 16 = 0 ∨ 7 ≤ w.toNat % 16)) (hrsv : w.toNat / 16 ≠ 0) :
    decode w = .illegal .rsvdBits := by
  rw [← toNat_opcodeField, ← opcodeInstr_eq_none_iff] at hop
  obtain ⟨i, hi⟩ := Option.ne_none_iff_exists'.1 hop
  have hclear : ¬rsvClear w = true := fun h => hrsv ((rsvClear_iff w).1 h)
  simp only [decode, hi, if_neg hclear]

theorem decode_encode (i : Instr) : decode (encode i) = .command i := by
  obtain ⟨hop, hrsv⟩ := (eq_encode_iff (encode i) i).1 rfl
  simp only [decode, hop, opcodeInstr_encodeOpcode, hrsv, if_true]

theorem decode_eq_command_iff (w : Word) (i : Instr) : decode w = .command i ↔ w = encode i := by
  constructor
  · intro h
    unfold decode at h
    split at h
    · cases h
    · rename_i j hj
      split at h
      · rename_i hrsv
        obtain rfl : j = i := Decoded.command.inj h
        exact (eq_encode_iff w j).2 ⟨(opcodeInstr_eq_some_iff _ j).1 hj, hrsv⟩
      · cases h
  · rintro rfl
    exact decode_encode i

/-- The word of a value from 1 to 6 is the command's whose OPCODE the value is. -/
theorem decode_of_legal_value {w : Word} {i : Instr} (h : w.toNat = (encodeOpcode i).toNat) : decode w = .command i :=
  (decode_eq_command_iff w i).2 (BitVec.eq_of_toNat_eq (h.trans (toNat_encode i).symm))

/-- Every value from 1 to 6 is the OPCODE of a command. -/
theorem exists_encodeOpcode_of_bounds {n : Nat} (h1 : 1 ≤ n) (h6 : n ≤ 6) :
    ∃ i : Instr, n = (encodeOpcode i).toNat := by
  interval_cases n
  · exact ⟨.pad, rfl⟩
  · exact ⟨.unpad, rfl⟩
  · exact ⟨.ecbEnc, rfl⟩
  · exact ⟨.ecbDec, rfl⟩
  · exact ⟨.cbcEnc, rfl⟩
  · exact ⟨.cbcDec, rfl⟩

/-- Settles O1: a word decodes to a command exactly when it is that command's word, and those are the values 1 to 6. -/
theorem decodeEncodeAgree : Obligations.DecodeEncodeAgree := by
  refine ⟨fun i _ => decode_encode i, fun w i h => (decode_eq_command_iff w i).1 h, fun w => ⟨?_, ?_⟩⟩
  · rintro ⟨i, h⟩
    rw [(decode_eq_command_iff w i).1 h, toNat_encode]
    exact toNat_encodeOpcode_bounds i
  · rintro ⟨h1, h6⟩
    obtain ⟨i, hi⟩ := exists_encodeOpcode_of_bounds h1 h6
    exact ⟨i, decode_of_legal_value hi⟩

/-- Settles O2: a reserved OPCODE, then a reserved bit; past both the value of the word is its OPCODE. -/
theorem decoderIsTotal : Obligations.DecoderIsTotal := by
  intro w
  split_ifs with hop hrsv h1 h2 h3 h4 h5
  · exact decode_of_reserved_opcode hop
  · exact decode_of_reserved_bits hop hrsv
  · exact decode_of_legal_value (i := .pad) (show w.toNat = 1 by omega)
  · exact decode_of_legal_value (i := .unpad) (show w.toNat = 2 by omega)
  · exact decode_of_legal_value (i := .ecbEnc) (show w.toNat = 3 by omega)
  · exact decode_of_legal_value (i := .ecbDec) (show w.toNat = 4 by omega)
  · exact decode_of_legal_value (i := .cbcEnc) (show w.toNat = 5 by omega)
  · exact decode_of_legal_value (i := .cbcDec) (show w.toNat = 6 by omega)

/-- Settles O3: the legal words are the encoded commands, the others fall under one of the two reserved cases. -/
theorem decodeSampleWords : Obligations.DecodeSampleWords :=
  ⟨decode_encode .pad, decode_encode .unpad, decode_encode .ecbEnc, decode_encode .ecbDec, decode_encode .cbcEnc,
    decode_encode .cbcDec, decode_of_reserved_opcode (by decide), decode_of_reserved_opcode (by decide),
    decode_of_reserved_opcode (by decide), decode_of_reserved_bits (by decide) (by decide),
    decode_of_reserved_bits (by decide) (by decide)⟩

end Sys2Proof
end

section
/-! PROOFS. From the acceptance of a command word to its VALIDATE step (30_encoding.md R68, R70 to R73; 10_state.md R37;
60_exceptions.md R117, R118). -/

namespace Sys2Proof.Machine

/-! ## The write of CMD (R37, R70) -/

theorem writeReg_cmd_of_idle {s : State} (hb : s.busy = false) (w : Word) :
    writeReg .cmd w s = acceptCommand w s := if_neg (by simp [hb])

theorem writeReg_cmd_of_busy {s : State} (hb : s.busy = true) (w : Word) :
    writeReg .cmd w s = { s with cign := true } := if_pos hb

theorem irq_of_not_done {s : State} (h : s.done = false) : irq s = false := by rw [irq, h, Bool.and_false]

/-- Settles O37: the write is the acceptance of the word while idle, and sets CIGN while busy. -/
theorem commandWrite : Obligations.CommandWrite := by
  intro s w
  constructor
  · intro hb
    exact ⟨acceptCommand w s, (hostAccess_writeReg .cmd w s).trans (congrArg _ (writeReg_cmd_of_idle hb w)), rfl,
      irq_of_not_done rfl⟩
  · intro hb
    exact (hostAccess_writeReg .cmd w s).trans (congrArg _ (writeReg_cmd_of_busy hb w))

/-! ## An illegal command word (R68) -/

theorem controllerTurn_of_illegal {s : State} {r : IllegalReason} (hf : s.fsm = .validate)
    (hd : decode s.cmd = .illegal r) :
    controllerTurn s = .next (raiseError .illegalCommand (illegalDetail r) s) := by
  simp only [controllerTurn, hf, hd]

/-- The failure of an illegal command word clears neither the key nor the IV (R68, R118). -/
theorem raiseError_of_illegal {s : State} {r : IllegalReason} (hd : decode s.cmd = .illegal r) (c : ErrCode)
    (d : ErrDetail) :
    raiseError c d s = { s with
      mem := eraseOutFrom s.params 0 s.mem, outLen := 0, errCode := c, errDetail := d,
      port := { s.port with rspValid := false }, riv := 0, blk := 0, busy := false, done := true, fsm := .idle } := by
  simp [raiseError, complete, clearOperands, dropResponse, hd, consumesKey, consumesIv]

theorem onlyOutChanged_raiseError (c : ErrCode) (d : ErrDetail) (s : State) : onlyOutChanged s (raiseError c d s) := by
  intro a ha
  rw [raiseError_mem, readByte_eraseOutFrom, Nat.add_zero, if_neg ha]

/-- Settles O5: the turn is the failure procedure, and an illegal word consumes no operand. -/
theorem illegalCommandFailsAtValidate : Obligations.IllegalCommandFailsAtValidate := by
  intro s r rest hf hd ha
  have hturn : step s = .next (raiseError .illegalCommand (illegalDetail r) { s with agenda := rest }) :=
    (step_cons ha).trans (controllerTurn_of_illegal (s := { s with agenda := rest }) hf hd)
  refine ⟨_, hturn, ?_, outByte_raiseError _ _ _, onlyOutChanged_raiseError _ _ { s with agenda := rest }⟩
  rw [raiseError_of_illegal (s := { s with agenda := rest }) hd]
  cases r <;> rfl

/-! ## The checks of VALIDATE (R72, R73) -/

/-- The first check that holds is the one reported. -/
theorem validateThen_of_first {before after : List Check} {c : Check} {f : State → State} {s : State}
    (hb : ∀ b ∈ before, b.holds = false) (hc : c.holds = true) :
    validateThen (before ++ c :: after) f s = raiseError c.code c.detail s := by
  induction before with
  | nil => exact if_pos hc
  | cons b before ih =>
    obtain ⟨hb, hbs⟩ := List.forall_mem_cons.1 hb
    exact (if_neg (by simp [hb])).trans (ih hbs)

@[simp] theorem checkZeroBs_holds (s : State) : (checkZeroBs s).holds = decide (padBoundary s = 0) := rfl

@[simp] theorem checkLenRange_holds (s : State) :
    (checkLenRange s).holds = decide (s.params.bufBytes < inCount s) := rfl

@[simp] theorem checkKeyLen_holds (s : State) : (checkKeyLen s).holds = !decide (s.keyLd = 0xF) := rfl

@[simp] theorem checkIvLen_holds (s : State) : (checkIvLen s).holds = !decide (s.ivLd = 0xF) := rfl

@[simp] theorem checkUnaligned_holds (s : State) : (checkUnaligned s).holds = !decide (inCount s % 16 = 0) := rfl

@[simp] theorem checkEmpty_holds (s : State) : (checkEmpty s).holds = decide (inCount s = 0) := rfl

/-- A command's VALIDATE step that makes the checks `before`, `c`, `after` in this order reports `c` when it is the
first that holds. -/
theorem exec_reports_first {i : Instr} {before after : List Check} {c : Check} {f : State → State} {s : State}
    (he : exec i s = .next (validateThen (before ++ c :: after) f s)) (hb : ∀ b ∈ before, b.holds = false)
    (hc : c.holds = true) : exec i s = .next (raiseError c.code c.detail s) :=
  he.trans (congrArg _ (validateThen_of_first hb hc))

theorem exec_padding_at_validate {i : Instr} {s : State} (hi : i = .pad ∨ i = .unpad) (hf : s.fsm = .validate) :
    ∃ f, exec i s = .next (validateThen (padChecks s) f s) := by
  obtain rfl | rfl := hi
  · exact ⟨padSetup, by simp only [exec, execPad, hf]⟩
  · exact ⟨unpadSetup, by simp only [exec, execUnpad, hf]⟩

theorem exec_ecb_at_validate {i : Instr} {s : State} (hi : i = .ecbEnc ∨ i = .ecbDec) (hf : s.fsm = .validate) :
    exec i s = .next (validateThen (ecbChecks s) ecbSetup s) := by
  obtain rfl | rfl := hi
  · simp only [exec_ecbEnc, execEcb, hf]
  · simp only [exec_ecbDec, execEcb, hf]

theorem exec_cbcDec_at_validate {s : State} (hf : s.fsm = .validate) :
    exec .cbcDec s = .next (validateThen (cbcDecChecks s) cbcDecSetup s) := by
  simp only [exec, execCbcDec, hf]

/-- CBC_DEC begins with the checks of CBC_ENC. -/
theorem exec_cbc_at_validate {i : Instr} {s : State} (hi : i = .cbcEnc ∨ i = .cbcDec) (hf : s.fsm = .validate) :
    ∃ more f, exec i s = .next (validateThen (cbcEncChecks s ++ more) f s) := by
  obtain rfl | rfl := hi
  · exact ⟨[], cbcEncSetup, by simp only [exec, execCbcEnc, hf, List.append_nil]⟩
  · exact ⟨[checkUnaligned s, checkEmpty s], cbcDecSetup, exec_cbcDec_at_validate hf⟩

/-- Settles O6: each check of a command's row, behind the checks that stand before it. -/
theorem validateReportsTheFirstFailingCheck : Obligations.ValidateReportsTheFirstFailingCheck := by
  intro s hf
  refine ⟨fun i hi => ?_, fun i hi => ?_, fun i hi => ?_, fun hkey hiv hlen => ?_⟩
  · obtain ⟨f, he⟩ := exec_padding_at_validate hi hf
    refine ⟨fun hp => ?_, fun hp hlen => ?_⟩
    · exact exec_reports_first (before := []) (c := checkZeroBs s) he (by simp) (by simp [hp])
    · exact exec_reports_first (before := [checkZeroBs s]) (c := checkLenRange s) he (by simp [hp]) (by simp [hlen])
  · have he := exec_ecb_at_validate hi hf
    refine ⟨fun hkey => ?_, fun hkey hlen => ?_, fun hkey hlen hal => ?_⟩
    · exact exec_reports_first (before := []) (c := checkKeyLen s) he (by simp) (by simpa using hkey)
    · exact exec_reports_first (before := [checkKeyLen s]) (c := checkLenRange s) he (by simp [hkey]) (by simp [hlen])
    · exact exec_reports_first (before := [checkKeyLen s, checkLenRange s]) (c := checkUnaligned s) he
        (by simp [hkey, hlen]) (by simp [hal])
  · obtain ⟨more, f, he⟩ := exec_cbc_at_validate hi hf
    refine ⟨fun hkey => ?_, fun hkey hiv => ?_, fun hkey hiv hlen => ?_⟩
    · exact exec_reports_first (before := []) (c := checkKeyLen s) he (by simp) (by simpa using hkey)
    · exact exec_reports_first (before := [checkKeyLen s]) (c := checkIvLen s) he (by simp [hkey]) (by simpa using hiv)
    · exact exec_reports_first (before := [checkKeyLen s, checkIvLen s]) (c := checkLenRange s) he
        (by simp [hkey, hiv]) (by simp [hlen])
  · have he := exec_cbcDec_at_validate hf
    refine ⟨fun hal => ?_, fun hzero => ?_⟩
    · exact exec_reports_first (before := [checkKeyLen s, checkIvLen s, checkLenRange s]) (c := checkUnaligned s) he
        (by simp [hkey, hiv, hlen]) (by simp [hal])
    · exact exec_reports_first (c := checkEmpty s)
        (before := [checkKeyLen s, checkIvLen s, checkLenRange s, checkUnaligned s]) he
        (by simp [hkey, hiv, hzero]) (by simp [hzero])

end Sys2Proof.Machine
end

section
/-! PROOFS. The pseudo-instructions LOADKEY, LOADIV and LOADIN (30_encoding.md R74). A line is a list of host writes;
its run is the writes one after another, and what they leave is read off the writes. -/

namespace Sys2Proof.Machine

/-! ## A list of host writes as a run (R58, R74) -/

/-- The turns of the writes `ws`, as pairs of a window offset and a value. -/
def writeTurns (p : Params) (ws : List (Nat × Word)) : List Event := ws.map fun w => wrTurn p w.1 w.2

/-- The writes `ws` made one after another. -/
def writeAll (ws : List (Nat × Word)) (s : State) : State := ws.foldl (fun t w => busWrite w.1 w.2 t) s

theorem writeAll_cons (w : Nat × Word) (ws : List (Nat × Word)) (s : State) :
    writeAll (w :: ws) s = writeAll ws (busWrite w.1 w.2 s) := rfl

theorem writeAll_append (ws xs : List (Nat × Word)) (s : State) :
    writeAll (ws ++ xs) s = writeAll xs (writeAll ws s) := List.foldl_append

theorem inputWrite_with_agenda {f : State → State} (l : List Event)
    (hf : ∀ s, f { s with agenda := l } = { f s with agenda := l }) (s : State) :
    inputWrite f { s with agenda := l } = { inputWrite f s with agenda := l } := by
  unfold inputWrite
  split
  · rfl
  · exact hf s

/-- No write looks at the turns to come or changes them. -/
theorem busWrite_with_agenda (off : Nat) (v : Word) (s : State) (l : List Event) :
    busWrite off v { s with agenda := l } = { busWrite off v s with agenda := l } := by
  unfold busWrite
  cases targetAt off with
  | reg r =>
    cases r with
    | ctrl => simp only [writeReg, writeCtrl]; split <;> rfl
    | cmd => simp only [writeReg, writeCmd]; split <;> rfl
    | padBs => exact inputWrite_with_agenda (f := fun t => { t with padBs := v.extractLsb' 0 8 }) l (fun _ => rfl) s
    | inLen => exact inputWrite_with_agenda (f := fun t => { t with inLen := v }) l (fun _ => rfl) s
    | key i => exact inputWrite_with_agenda (f := writeKeyWord i v) l (fun _ => rfl) s
    | iv i => exact inputWrite_with_agenda (f := writeIvWord i v) l (fun _ => rfl) s
    | id | status | outLen | blkIdx | loaded | cap => rfl
  | inWindow i =>
    simp only [writeIn]
    split
    · exact inputWrite_with_agenda l (fun _ => rfl) s
    · rfl
  | outWindow i => rfl
  | reserved => rfl

theorem writeAll_with_agenda (ws : List (Nat × Word)) (s : State) (l : List Event) :
    writeAll ws { s with agenda := l } = { writeAll ws s with agenda := l } := by
  induction ws generalizing s with
  | nil => rfl
  | cons w ws ih => rw [writeAll_cons, writeAll_cons, busWrite_with_agenda, ih]

theorem step_wrTurn {s : State} {off : Nat} {v : Word} {rest : List Event} (h4 : off % 4 = 0) (hl : off < 0x40000)
    (ha : s.agenda = wrTurn s.params off v :: rest) : step s = .next { busWrite off v s with agenda := rest } := by
  rw [step_cons ha, ← busWrite_with_agenda]
  exact hostAccess_word { s with agenda := rest } (.write v) h4 hl

/-- A run of scheduled writes within the contract is those writes. -/
theorem run_writeTurns {ws : List (Nat × Word)} {s : State} {rest : List Event}
    (hws : ∀ w ∈ ws, w.1 % 4 = 0 ∧ w.1 < 0x40000) (ha : s.agenda = writeTurns s.params ws ++ rest) :
    run ws.length s = .next { writeAll ws s with agenda := rest } := by
  induction ws generalizing s with
  | nil =>
    rw [← show s.agenda = rest from ha]
    rfl
  | cons w ws ih =>
    obtain ⟨⟨h4, hl⟩, hws⟩ := List.forall_mem_cons.1 hws
    have hstep := step_wrTurn (rest := writeTurns s.params ws ++ rest) h4 hl ha
    have hrest := ih (s := { busWrite w.1 w.2 s with agenda := writeTurns s.params ws ++ rest }) hws
      (by rw [busWrite_params])
    rw [List.length_cons, run_succ_next hstep, hrest, writeAll_with_agenda, writeAll_cons]

/-! ## LOADKEY and LOADIV (R33, R34, R74) -/

theorem wordByte_blockWord (b : Block) (i : Nat) {j : Nat} (hj : j < 4) :
    wordByte (blockWord b i) j = blockByte b (4 * i + j) := wordByte_wordOfFn _ hj

theorem blockByte_setBlockWord_blockWord (b c : Block) (i : Nat) {j : Nat} (hj : j < 16) :
    blockByte (setBlockWord c i (blockWord b i)) j = if j / 4 = i then blockByte b j else blockByte c j := by
  rw [blockByte_setBlockWord _ _ _ hj]
  split
  · rw [wordByte_blockWord _ _ (by omega), show 4 * i + j % 4 = j by omega]
  · rfl

/-- The block `c` with its four words replaced, in order, by those of `b`. -/
def setBlockWords (c b : Block) : Block :=
  setBlockWord (setBlockWord (setBlockWord (setBlockWord c 0 (blockWord b 0)) 1 (blockWord b 1)) 2 (blockWord b 2)) 3
    (blockWord b 3)

theorem setBlockWords_eq (c b : Block) : setBlockWords c b = b := by
  refine block_ext fun j hj => ?_
  simp only [setBlockWords, blockByte_setBlockWord_blockWord _ _ _ hj]
  split_ifs <;> first | rfl | omega

/-- Four writes, one to each word, set all four LOADED bits. -/
theorem setLoadedBits_eq (x : BitVec 4) :
    x ||| BitVec.twoPow 4 0 ||| BitVec.twoPow 4 1 ||| BitVec.twoPow 4 2 ||| BitVec.twoPow 4 3 = 0xF := by
  revert x
  decide

/-- The writes of a block to the registers `r 0` to `r 3`. -/
def blockWrites (r : Fin 4 → Reg) (b : Block) : List (Nat × Word) :=
  [(regOffset (r 0), blockWord b 0), (regOffset (r 1), blockWord b 1), (regOffset (r 2), blockWord b 2),
    (regOffset (r 3), blockWord b 3)]

theorem writeAll_blockWrites (r : Fin 4 → Reg) (b : Block) (s : State) :
    writeAll (blockWrites r b) s =
      writeReg (r 3) (blockWord b 3) (writeReg (r 2) (blockWord b 2) (writeReg (r 1) (blockWord b 1)
        (writeReg (r 0) (blockWord b 0) s))) := by
  simp only [blockWrites, writeAll_cons, busWrite_regOffset]
  rfl

/-- The four writes of a block within the contract run in four steps. -/
theorem run_blockWrites {r : Fin 4 → Reg} {b : Block} {s : State} {rest : List Event}
    (ha : s.agenda = loadBlockTurns s.params r b ++ rest) :
    run 4 s = .next { writeAll (blockWrites r b) s with agenda := rest } := by
  refine run_writeTurns (ws := blockWrites r b) (fun w hw => ?_) ha
  have hreg : ∃ q, w.1 = regOffset q := by
    simp only [blockWrites, List.mem_cons, List.not_mem_nil, or_false] at hw
    obtain rfl | rfl | rfl | rfl := hw <;> exact ⟨_, rfl⟩
  obtain ⟨q, hq⟩ := hreg
  have := regOffset_bounds q
  omega

theorem writeKeyWord_busy (i : Fin 4) (v : Word) (s : State) : (writeKeyWord i v s).busy = s.busy := rfl

theorem writeKeyWords_eq (b : Block) (s : State) :
    writeKeyWord 3 (blockWord b 3) (writeKeyWord 2 (blockWord b 2) (writeKeyWord 1 (blockWord b 1)
      (writeKeyWord 0 (blockWord b 0) s))) = { s with key := b, keyLd := 0xF } :=
  calc
    _ = { s with
          key := setBlockWords s.key b
          keyLd :=
            s.keyLd ||| BitVec.twoPow 4 0 ||| BitVec.twoPow 4 1 ||| BitVec.twoPow 4 2 ||| BitVec.twoPow 4 3 } := rfl
    _ = _ := by rw [setBlockWords_eq, setLoadedBits_eq]

theorem writeAll_keyWrites {s : State} (hb : s.busy = false) (b : Block) :
    writeAll (blockWrites .key b) s = { s with key := b, keyLd := 0xF } := by
  rw [← writeKeyWords_eq, writeAll_blockWrites]
  simp only [writeReg_key_of_idle, writeKeyWord_busy, hb]

theorem writeIvWord_busy (i : Fin 4) (v : Word) (s : State) : (writeIvWord i v s).busy = s.busy := rfl

theorem writeIvWords_eq (b : Block) (s : State) :
    writeIvWord 3 (blockWord b 3) (writeIvWord 2 (blockWord b 2) (writeIvWord 1 (blockWord b 1)
      (writeIvWord 0 (blockWord b 0) s))) = { s with iv := b, ivLd := 0xF } :=
  calc
    _ = { s with
          iv := setBlockWords s.iv b
          ivLd :=
            s.ivLd ||| BitVec.twoPow 4 0 ||| BitVec.twoPow 4 1 ||| BitVec.twoPow 4 2 ||| BitVec.twoPow 4 3 } := rfl
    _ = _ := by rw [setBlockWords_eq, setLoadedBits_eq]

theorem writeAll_ivWrites {s : State} (hb : s.busy = false) (b : Block) :
    writeAll (blockWrites .iv b) s = { s with iv := b, ivLd := 0xF } := by
  rw [← writeIvWords_eq, writeAll_blockWrites]
  simp only [writeReg_iv_of_idle, writeIvWord_busy, hb]

/-! ## LOADIN (R47, R74) -/

/-- The number of words of a byte sequence. -/
def wordCount (d : List Byte) : Nat := (d.length + 3) / 4

/-- The writes of the first `k` words of `d` to IN. -/
def wordWrites (d : List Byte) (k : Nat) : List (Nat × Word) :=
  (List.range k).map fun m => (0x10000 + 4 * m, bytesWord d m)

theorem wordWrites_succ (d : List Byte) (k : Nat) :
    wordWrites d (k + 1) = wordWrites d k ++ [(0x10000 + 4 * k, bytesWord d k)] := by
  rw [wordWrites, List.range_succ, List.map_append]
  rfl

theorem wordByte_bytesWord (d : List Byte) (m : Nat) {j : Nat} (hj : j < 4) :
    wordByte (bytesWord d m) j = d.getD (4 * m + j) 0 := wordByte_wordOfFn _ hj

/-- The writes of the first `k` words of `d` put those words' bytes in IN, 0 past the end of `d`, and change no other
byte and no register. -/
theorem writeAll_wordWrites {s : State} {d : List Byte} (hb : s.busy = false) (hp : s.params.wf = true)
    (hm : Memory.wf s.mem) (hd : d.length ≤ s.params.bufBytes) {k : Nat} (hk : k ≤ wordCount d) :
    ∃ mem, writeAll (wordWrites d k) s = { s with mem := mem } ∧ Memory.wf mem ∧
      ∀ a, readByte mem a =
        if 0x10000 ≤ a ∧ a < 0x10000 + 4 * k then d.getD (a - 0x10000) 0 else readByte s.mem a := by
  induction k with
  | zero => exact ⟨s.mem, rfl, hm, fun a => (if_neg (by omega)).symm⟩
  | succ k ih =>
    obtain ⟨mem, hwrite, hwf, hread⟩ := ih (by omega)
    have hlt : 4 * k < s.params.bufBytes := by unfold wordCount at hk; omega
    refine ⟨writeBytes mem (0x10000 + 4 * k) (wordBytes (bytesWord d k)), ?_, writeBytes_wf hwf _ _, fun a => ?_⟩
    · rw [wordWrites_succ, writeAll_append, hwrite]
      exact (busWrite_in (s := { s with mem := mem }) _ hp hlt).trans (inputWrite_of_idle hb)
    · rw [readByte_writeBytes_wordBytes hwf, hread]
      by_cases hlast : 0x10000 + 4 * k ≤ a ∧ a < 0x10000 + 4 * k + 4
      · rw [if_pos hlast, if_pos (by omega), wordByte_bytesWord _ _ (by omega),
          show 4 * k + (a - (0x10000 + 4 * k)) = a - 0x10000 by omega]
      · rw [if_neg hlast]
        exact if_congr (by omega) rfl rfl

/-- The writes of LOADIN: the words of `d`, then its length. -/
def loadInWrites (d : List Byte) : List (Nat × Word) :=
  wordWrites d (wordCount d) ++ [(regOffset .inLen, BitVec.ofNat 32 d.length)]

theorem expandLine_loadIn (p : Params) (d : List Byte) : expandLine p (.loadIn d) = writeTurns p (loadInWrites d) := by
  simp only [expandLine, writeTurns, loadInWrites, wordWrites, List.map_append, List.map_map]
  rfl

theorem loadInWrites_within {p : Params} {d : List Byte} (hp : p.wf = true) (hd : d.length ≤ p.bufBytes) :
    ∀ w ∈ loadInWrites d, w.1 % 4 = 0 ∧ w.1 < 0x40000 := by
  have hbound := params_bounds hp
  intro w hw
  rcases List.mem_append.1 hw with hw | hw
  · obtain ⟨m, hm, rfl⟩ := List.mem_map.1 hw
    have hm := List.mem_range.1 hm
    unfold wordCount at hm
    constructor
    · show (0x10000 + 4 * m) % 4 = 0
      omega
    · show 0x10000 + 4 * m < 0x40000
      omega
  · rw [List.mem_singleton.1 hw]
    obtain ⟨hlt, h4⟩ := regOffset_bounds .inLen
    exact ⟨h4, by simp only; omega⟩

/-- `IN[0..n)` is `d` when its bytes are. -/
theorem inSeq_eq {s : State} {d : List Byte} (h : ∀ i < d.length, inByte s i = d.getD i 0) : inSeq s d.length = d := by
  refine List.ext_getElem (length_inSeq s _) fun i _ hi => ?_
  simp [inSeq, h i hi, List.getD_eq_getElem?_getD, hi]

/-- LOADIN on an idle device (R74). -/
theorem loadIn_run {s : State} {rest : List Event} (hb : s.busy = false) {d : List Byte} (hp : s.params.wf = true)
    (hm : Memory.wf s.mem) (hd : d.length ≤ s.params.bufBytes)
    (ha : s.agenda = expandLine s.params (.loadIn d) ++ rest) :
    ∃ mem, run (expandLine s.params (.loadIn d)).length s =
        .next { s with mem := mem, inLen := BitVec.ofNat 32 d.length, agenda := rest } ∧
      ∀ a, readByte mem a =
        if 0x10000 ≤ a ∧ a < 0x10000 + 4 * wordCount d then d.getD (a - 0x10000) 0 else readByte s.mem a := by
  obtain ⟨mem, hwrite, -, hread⟩ := writeAll_wordWrites hb hp hm hd le_rfl
  have hlen : writeAll [(regOffset .inLen, BitVec.ofNat 32 d.length)] { s with mem := mem } =
      { s with mem := mem, inLen := BitVec.ofNat 32 d.length } :=
    (busWrite_regOffset .inLen _ _).trans (writeReg_inLen_of_idle (s := { s with mem := mem }) hb _)
  refine ⟨mem, ?_, hread⟩
  rw [expandLine_loadIn] at ha ⊢
  rw [writeTurns, List.length_map, run_writeTurns (loadInWrites_within hp hd) ha, loadInWrites, writeAll_append,
    hwrite, hlen]

/-- Settles O50: the lines are lists of writes; four words make up a block, and the words of `d` its bytes. -/
theorem loadLines : Obligations.LoadLines := by
  intro s rest hb
  refine ⟨fun b ha => ?_, fun b ha => ?_, fun d hp hm hd ha => ?_⟩
  · rw [run_blockWrites ha, writeAll_keyWrites hb]
  · rw [run_blockWrites ha, writeAll_ivWrites hb]
  · have hbound := params_bounds hp
    have hcount : d.length ≤ 4 * wordCount d := by unfold wordCount; omega
    obtain ⟨mem, hrun, hread⟩ := loadIn_run hb hp hm hd ha
    refine ⟨_, hrun, rfl, ?_, inSeq_eq fun i hi => ?_, fun a hlo hhi => ?_, fun a hout => ?_⟩
    · show (BitVec.ofNat 32 d.length).toNat = d.length
      rw [BitVec.toNat_ofNat, Nat.mod_eq_of_lt (by omega)]
    · have hin : i < s.params.bufBytes := by omega
      rw [inByte_of_lt (by exact hin)]
      refine (hread _).trans ?_
      rw [if_pos (by omega), Nat.add_sub_cancel_left]
    · refine ((hread a).trans (if_pos ⟨by omega, hhi⟩)).trans ?_
      simp [List.getD_eq_getElem?_getD, show d.length ≤ a - 0x10000 by omega]
    · exact (hread a).trans (if_neg hout)

end Sys2Proof.Machine
end

section
/-! PROOFS. A running command on a device left to itself comes to its end (41_cipher_port.md R92, 60_exceptions.md R117,
70_reset_and_hazards.md R138): every device turn of a running command lowers `stepsLeft`. The POLL loop
(30_encoding.md R74) ends with it. -/

namespace Sys2Proof.Machine

/-! ## The measure -/

/-- A bound on the blocks still to be stored, the same for all four cipher commands. -/
def blocksLeft (s : State) : Nat := inCount s / 16 + 1 - s.blkIdx.toNat

/-- A bound on the turns of controller and cipher that a command still needs (R138). -/
def stepsLeft (s : State) : Nat :=
  match s.fsm with
  | .idle => 0
  | .validate => 3 * (inCount s / 16 + 1) + 2
  | .load => 3 * blocksLeft s + 1
  | .wait => if s.port.rspValid then 3 * blocksLeft s - 1 else 3 * blocksLeft s
  | .copy => 1
  | .check => 2

theorem stepsLeft_idle {s : State} (h : s.fsm = .idle) : stepsLeft s = 0 := by simp only [stepsLeft, h]

theorem stepsLeft_validate {s : State} (h : s.fsm = .validate) : stepsLeft s = 3 * (inCount s / 16 + 1) + 2 := by
  simp only [stepsLeft, h]

theorem stepsLeft_load {s : State} (h : s.fsm = .load) : stepsLeft s = 3 * blocksLeft s + 1 := by
  simp only [stepsLeft, h]

theorem stepsLeft_wait {s : State} (h : s.fsm = .wait) :
    stepsLeft s = if s.port.rspValid then 3 * blocksLeft s - 1 else 3 * blocksLeft s := by
  simp only [stepsLeft, h]

theorem stepsLeft_copy {s : State} (h : s.fsm = .copy) : stepsLeft s = 1 := by simp only [stepsLeft, h]

theorem stepsLeft_check {s : State} (h : s.fsm = .check) : stepsLeft s = 2 := by simp only [stepsLeft, h]

/-- In LOAD and WAIT the running command is in its block loop. -/
theorem inBlockLoop_of_runningAt {i : Instr} {s : State} (hat : runningAt i s) (hf : s.fsm = .load ∨ s.fsm = .wait) :
    inBlockLoop i s := by
  cases i with
  | pad =>
    obtain ⟨hcopy, -⟩ := hat
    simp [hcopy] at hf
  | unpad =>
    obtain ⟨-, h | ⟨h, -⟩⟩ := hat <;> simp [h] at hf
  | ecbEnc | ecbDec | cbcEnc => exact hat
  | cbcDec =>
    obtain h | ⟨h, -⟩ := hat
    · exact h
    · simp [h] at hf

theorem blocksLeft_pos_of_inBlockLoop {i : Instr} {s : State} (h : inBlockLoop i s) : 1 ≤ blocksLeft s := by
  obtain ⟨-, hnb, -, hblk⟩ := h
  have := blockCount_le i (inCount s)
  unfold blocksLeft
  omega

theorem ControlInv.blocksLeft_pos {s : State} (hs : ControlInv s) (hf : s.fsm = .load ∨ s.fsm = .wait) :
    1 ≤ blocksLeft s := by
  have hrun : s.fsm ≠ .idle ∧ s.fsm ≠ .validate := by rcases hf with h | h <;> simp [h]
  obtain ⟨i, -, -, hat, -⟩ := hs.running hrun.1 hrun.2
  exact blocksLeft_pos_of_inBlockLoop (inBlockLoop_of_runningAt hat hf)

/-- A step that ends the running command lowers the measure. -/
theorem stepsLeft_lt_of_ends {s t : State} (hs : ControlInv s) (hf : s.fsm ≠ .idle) (ht : t.fsm = .idle) :
    stepsLeft t < stepsLeft s := by
  rw [stepsLeft_idle ht]
  cases h : s.fsm with
  | idle => exact absurd h hf
  | validate => rw [stepsLeft_validate h]; omega
  | load => rw [stepsLeft_load h]; omega
  | wait =>
    have := hs.blocksLeft_pos (.inr h)
    rw [stepsLeft_wait h]
    split <;> omega
  | copy => rw [stepsLeft_copy h]; omega
  | check => rw [stepsLeft_check h]; omega

/-! ## The controller's steps -/

theorem stepsLeft_validateThen_lt {cs : List Check} {f : State → State} {s : State} (hs : ControlInv s)
    (hf : s.fsm = .validate) (hset : stepsLeft (f s) < stepsLeft s) :
    stepsLeft (validateThen cs f s) < stepsLeft s := by
  rcases validateThen_cases cs f s with ⟨e, -⟩ | ⟨_, c, _, -, -, -, e⟩
  · rw [e]; exact hset
  · rw [e]; exact stepsLeft_lt_of_ends hs (by simp [hf]) rfl

/-- A setup that enters the block loop. -/
theorem stepsLeft_enterLoop_lt {s t : State} (hf : s.fsm = .validate) (ht : t.fsm = .load)
    (hn : inCount t = inCount s) : stepsLeft t < stepsLeft s := by
  have : blocksLeft t ≤ inCount t / 16 + 1 := Nat.sub_le _ _
  rw [stepsLeft_load ht, stepsLeft_validate hf, ← hn]
  omega

theorem stepsLeft_ecbSetup_lt {s : State} (hs : ControlInv s) (hf : s.fsm = .validate) :
    stepsLeft (ecbSetup s) < stepsLeft s := by
  unfold ecbSetup
  simp only []
  split
  · exact stepsLeft_lt_of_ends hs (by simp [hf]) rfl
  · exact stepsLeft_enterLoop_lt hf rfl rfl

theorem stepsLeft_issueRequest_lt {s : State} (hf : s.fsm = .load) (dir : Direction) (b : Block) :
    stepsLeft (issueRequest dir b s) < stepsLeft s := by
  have hb : blocksLeft (issueRequest dir b s) = blocksLeft s := rfl
  rw [stepsLeft_load hf, stepsLeft_wait (issueRequest_fsm dir b s), hb]
  split <;> omega

/-- A WAIT step with a response: the command fails, turns to its next block, or does what follows the last. -/
theorem stepsLeft_cbcWait_lt {x r : Block} {last : State → State} {s : State} (hs : ControlInv s) (hf : s.fsm = .wait)
    (hrsp : s.port.rspValid = true) (hlast : ∀ u, stepsLeft (last u) < stepsLeft s) :
    stepsLeft (cbcWait x r last s) < stepsLeft s := by
  have hpos := hs.blocksLeft_pos (.inr hf)
  rw [cbcWait, if_pos hrsp]
  simp only []
  split
  · exact stepsLeft_lt_of_ends hs (by simp [hf]) rfl
  · split
    · rename_i hmore
      have hnext : (s.blkIdx + 1).toNat = s.blkIdx.toNat + 1 := by
        have := s.nb.isLt
        bv_omega
      rw [stepsLeft_load rfl, stepsLeft_wait hf, if_pos hrsp]
      show 3 * (inCount s / 16 + 1 - (s.blkIdx + 1).toNat) + 1 < 3 * blocksLeft s - 1
      unfold blocksLeft at hpos ⊢
      omega
    · exact hlast _

theorem execPad_stepsLeft_lt {s t : State} (hs : ControlInv s)
    (hrule : s.fsm = .validate ∨ hasStepRule .pad s.fsm = true ∧ portReady s = true) (h : execPad s = .next t) :
    stepsLeft t < stepsLeft s := by
  cases hf : s.fsm <;> simp only [execPad, hf] at h <;> cases h
  case validate =>
    refine stepsLeft_validateThen_lt hs hf ?_
    rw [stepsLeft_copy rfl, stepsLeft_validate hf]
    omega
  case copy => exact stepsLeft_lt_of_ends hs (by simp [hf]) rfl
  all_goals simp [hf, hasStepRule] at hrule

theorem execUnpad_stepsLeft_lt {s t : State} (hs : ControlInv s)
    (hrule : s.fsm = .validate ∨ hasStepRule .unpad s.fsm = true ∧ portReady s = true) (h : execUnpad s = .next t) :
    stepsLeft t < stepsLeft s := by
  cases hf : s.fsm <;> simp only [execUnpad, hf] at h <;> cases h
  case validate =>
    refine stepsLeft_validateThen_lt hs hf ?_
    rw [stepsLeft_check rfl, stepsLeft_validate hf]
    omega
  case check =>
    unfold unpadCheck
    split
    · exact stepsLeft_lt_of_ends hs (by simp [hf]) rfl
    · rw [stepsLeft_copy rfl, stepsLeft_check hf]
      omega
  case copy => exact stepsLeft_lt_of_ends hs (by simp [hf]) rfl
  all_goals simp [hf, hasStepRule] at hrule

/-- The port is ready for a WAIT step when a response is there. -/
theorem rspValid_of_portReady {s : State} (hf : s.fsm = .wait) (h : portReady s = true) : s.port.rspValid = true := by
  simpa only [portReady, hf] using h

theorem execEcb_stepsLeft_lt {i : Instr} {s t : State} (hi : i = .ecbEnc ∨ i = .ecbDec) (hs : ControlInv s)
    (hrule : s.fsm = .validate ∨ hasStepRule i s.fsm = true ∧ portReady s = true)
    (h : execEcb (requestDir i) s = .next t) : stepsLeft t < stepsLeft s := by
  cases hf : s.fsm <;> simp only [execEcb, hf] at h <;> cases h
  case validate => exact stepsLeft_validateThen_lt hs hf (stepsLeft_ecbSetup_lt hs hf)
  case load =>
    rw [ecbLoad, if_pos (portFree_at_load hs hf)]
    exact stepsLeft_issueRequest_lt hf _ _
  case wait =>
    obtain ⟨-, hready⟩ := hrule.resolve_left (by simp [hf])
    rw [ecbWait_eq_cbcWait]
    exact stepsLeft_cbcWait_lt hs hf (rspValid_of_portReady hf hready) fun _ =>
      stepsLeft_lt_of_ends hs (by simp [hf]) rfl
  all_goals rcases hi with rfl | rfl <;> simp [hf, hasStepRule] at hrule

theorem execCbcEnc_stepsLeft_lt {s t : State} (hs : ControlInv s)
    (hrule : s.fsm = .validate ∨ hasStepRule .cbcEnc s.fsm = true ∧ portReady s = true)
    (h : execCbcEnc s = .next t) : stepsLeft t < stepsLeft s := by
  cases hf : s.fsm <;> simp only [execCbcEnc, hf] at h <;> cases h
  case validate => exact stepsLeft_validateThen_lt hs hf (stepsLeft_enterLoop_lt hf rfl rfl)
  case load =>
    rw [cbcEncLoad, if_pos (portFree_at_load hs hf)]
    exact stepsLeft_issueRequest_lt hf _ _
  case wait =>
    obtain ⟨-, hready⟩ := hrule.resolve_left (by simp [hf])
    exact stepsLeft_cbcWait_lt hs hf (rspValid_of_portReady hf hready) fun _ =>
      stepsLeft_lt_of_ends hs (by simp [hf]) rfl
  all_goals simp [hf, hasStepRule] at hrule

/-- CBC_DEC has a block less than the measure counts, which leaves room for its CHECK step (R110). -/
theorem two_lt_stepsLeft_cbcDec {s : State} (hs : ControlInv s) (hf : s.fsm = .wait)
    (hd : decode s.cmd = .command .cbcDec) : 2 < stepsLeft s := by
  obtain ⟨-, hat⟩ := hs.runs (by simp [hf]) (by simp [hf]) hd
  obtain ⟨-, hnb, -, hblk⟩ := inBlockLoop_of_runningAt hat (.inr hf)
  simp only [blockCount] at hnb
  rw [stepsLeft_wait hf, blocksLeft]
  split <;> omega

theorem execCbcDec_stepsLeft_lt {s t : State} (hs : ControlInv s) (hd : decode s.cmd = .command .cbcDec)
    (hrule : s.fsm = .validate ∨ hasStepRule .cbcDec s.fsm = true ∧ portReady s = true)
    (h : execCbcDec s = .next t) : stepsLeft t < stepsLeft s := by
  cases hf : s.fsm <;> simp only [execCbcDec, hf] at h <;> cases h
  case validate => exact stepsLeft_validateThen_lt hs hf (stepsLeft_enterLoop_lt hf rfl rfl)
  case load =>
    rw [cbcDecLoad, if_pos (portFree_at_load hs hf)]
    exact stepsLeft_issueRequest_lt hf _ _
  case wait =>
    obtain ⟨-, hready⟩ := hrule.resolve_left (by simp [hf])
    refine stepsLeft_cbcWait_lt hs hf (rspValid_of_portReady hf hready) fun u => ?_
    rw [stepsLeft_check rfl]
    exact two_lt_stepsLeft_cbcDec hs hf hd
  case check =>
    unfold cbcDecCheck
    split <;> exact stepsLeft_lt_of_ends hs (by simp [hf]) rfl
  all_goals simp [hf, hasStepRule] at hrule

/-- A command's step lowers the measure wherever the command has one. -/
theorem exec_stepsLeft_lt {i : Instr} {s t : State} (hs : ControlInv s) (hd : decode s.cmd = .command i)
    (hrule : s.fsm = .validate ∨ hasStepRule i s.fsm = true ∧ portReady s = true) (h : exec i s = .next t) :
    stepsLeft t < stepsLeft s := by
  cases i with
  | pad => exact execPad_stepsLeft_lt hs hrule h
  | unpad => exact execUnpad_stepsLeft_lt hs hrule h
  | ecbEnc => exact execEcb_stepsLeft_lt (.inl rfl) hs hrule (exec_ecbEnc s ▸ h)
  | ecbDec => exact execEcb_stepsLeft_lt (.inr rfl) hs hrule (exec_ecbDec s ▸ h)
  | cbcEnc => exact execCbcEnc_stepsLeft_lt hs hrule h
  | cbcDec => exact execCbcDec_stepsLeft_lt hs hd hrule h

/-- After VALIDATE the command of CMD is the one `opc` names, and it stands in its loop or in one of its own states. -/
theorem ControlInv.running_opc {s : State} (hs : ControlInv s) (h1 : s.fsm ≠ .idle) (h2 : s.fsm ≠ .validate) :
    ∃ i, decode s.cmd = .command i ∧ opcodeInstr s.opc = some i ∧ runningAt i s := by
  obtain ⟨i, hd, -, hat, -⟩ := hs.running h1 h2
  exact ⟨i, hd, by rw [hs.opc_of_cmd (hs.busy_iff.2 h1), opcodeInstr_of_decode hd], hat⟩

theorem controllerTurn_stepsLeft_lt {s t : State} (hs : ControlInv s) (hen : controllerEnabled s = true)
    (h : controllerTurn s = .next t) : stepsLeft t < stepsLeft s := by
  by_cases hidle : s.fsm = .idle
  · simp [controllerEnabled, hidle] at hen
  by_cases hval : s.fsm = .validate
  · cases hd : decode s.cmd with
    | command i => exact exec_stepsLeft_lt hs hd (.inl hval) (controllerTurn_of_validate hval hd ▸ h)
    | illegal r =>
      simp only [controllerTurn, hval, hd] at h
      cases h
      exact stepsLeft_lt_of_ends hs hidle rfl
  · obtain ⟨i, hd, hopc, -⟩ := hs.running_opc hidle hval
    rw [controllerEnabled_after_validate hidle hval hopc, Bool.and_eq_true] at hen
    exact exec_stepsLeft_lt hs hd (.inr hen) (controllerTurn_after_validate hidle hval hopc ▸ h)

/-! ## The device's turns (R12, R92) -/

/-- What a device turn is: the controller's where it has a step, else the cipher's, else nothing. -/
theorem deviceTurn_cases {s t : State} (h : deviceTurn s = .next t) :
    (controllerEnabled s = true ∧ controllerTurn s = .next t) ∨
      (cipherEnabled s = true ∧ ∃ d n, t = cipherStep Config.cipherPerm d { s with draws := n }) ∨
      (¬controllerEnabled s = true ∧ ¬cipherEnabled s = true ∧ t = s) := by
  unfold deviceTurn at h
  split at h
  · exact .inl ⟨‹_›, h⟩
  · split at h <;> cases h
    · exact .inr (.inl ⟨‹_›, _, _, rfl⟩)
    · exact .inr (.inr ⟨‹_›, ‹_›, rfl⟩)

theorem hasStepRule_of_runningAt {i : Instr} {s : State} (h : runningAt i s) : hasStepRule i s.fsm = true := by
  have loop : ∀ {j}, inBlockLoop j s → s.fsm = .load ∨ s.fsm = .wait := fun h => h.1
  cases i with
  | pad => obtain ⟨hf, -⟩ := h; rw [hf]; rfl
  | unpad => obtain ⟨-, hf | ⟨hf, -⟩⟩ := h <;> rw [hf] <;> rfl
  | ecbEnc | ecbDec | cbcEnc => obtain hf | hf := loop h <;> rw [hf] <;> rfl
  | cbcDec =>
    obtain hl | ⟨hf, -⟩ := h
    · obtain hf | hf := loop hl <;> rw [hf] <;> rfl
    · rw [hf]; rfl

/-- A running command is never stuck: the controller has a step, or the cipher owes it an answer (R90). -/
theorem ControlInv.enabled {s : State} (hs : ControlInv s) (hf : s.fsm ≠ .idle) :
    controllerEnabled s = true ∨ cipherEnabled s = true := by
  by_cases hval : s.fsm = .validate
  · exact .inl (controllerEnabled_of_validate hval)
  obtain ⟨i, -, hopc, hat⟩ := hs.running_opc hf hval
  rw [controllerEnabled_after_validate hf hval hopc, hasStepRule_of_runningAt hat, Bool.true_and, cipherEnabled_iff]
  cases h : s.fsm with
  | idle => exact absurd h hf
  | validate => exact absurd h hval
  | load => left; simpa only [portReady, h] using portFree_at_load hs h
  | wait =>
    have hport := hs.port_wait h
    cases hrsp : s.port.rspValid with
    | true => left; simpa only [portReady, h] using hrsp
    | false => exact .inr ⟨by rw [hport, hrsp]; rfl, rfl⟩
  | copy | check => left; simp only [portReady, h]

/-- The cipher's answer lowers the measure. -/
theorem stepsLeft_cipherStep_lt {s : State} (hs : ControlInv s) (hen : cipherEnabled s = true)
    (cipher : Block → Equiv.Perm Block) (d : CipherDraw) (n : Nat) :
    stepsLeft (cipherStep cipher d { s with draws := n }) < stepsLeft s := by
  obtain ⟨hreq, hrsp⟩ := (cipherEnabled_iff s).1 hen
  have hwait : s.fsm = .wait := by
    by_contra hf
    rw [(hs.port_free hf).1] at hreq
    cases hreq
  have hpos := hs.blocksLeft_pos (.inr hwait)
  obtain ⟨data, fail, e⟩ := cipherStep_answers cipher d (s := { s with draws := n }) hen
  have hbefore : stepsLeft s = 3 * blocksLeft s := by
    rw [stepsLeft_wait hwait, hrsp]
    rfl
  rw [e, hbefore]
  refine (stepsLeft_wait (by exact hwait)).trans_lt ?_
  show 3 * blocksLeft s - 1 < 3 * blocksLeft s
  omega

/-- Every device turn of a running command lowers the measure. -/
theorem deviceTurn_stepsLeft_lt {s t : State} (hs : Inv s) (hb : s.busy = true) (h : deviceTurn s = .next t) :
    stepsLeft t < stepsLeft s := by
  rcases deviceTurn_cases h with ⟨hen, hturn⟩ | ⟨hen, d, n, rfl⟩ | ⟨hno, hno', -⟩
  · exact controllerTurn_stepsLeft_lt hs.control hen hturn
  · exact stepsLeft_cipherStep_lt hs.control hen _ d n
  · exact ((hs.control.enabled (hs.control.busy_iff.1 hb)).elim hno hno').elim

theorem deviceTurn_agenda {s t : State} (h : deviceTurn s = .next t) : t.agenda = s.agenda := by
  rcases deviceTurn_cases h with ⟨-, hturn⟩ | ⟨-, d, n, rfl⟩ | ⟨-, -, rfl⟩
  · exact (controllerTurn_controllerStep hturn).1.agenda
  · rw [cipherStep_frame]
  · rfl

/-- A device turn clears BUSY only with DONE set. -/
theorem deviceTurn_busy_or_done {s t : State} (hb : s.busy = true) (h : deviceTurn s = .next t) :
    t.busy = true ∨ t.done = true := by
  rcases deviceTurn_cases h with ⟨-, hturn⟩ | ⟨-, d, n, rfl⟩ | ⟨-, -, rfl⟩
  · obtain ⟨-, hc | hc⟩ := controllerTurn_controllerStep hturn
    · exact .inl (hc.busy.trans hb)
    · exact .inr hc.done
  · rw [cipherStep_frame]
    exact .inl hb
  · exact .inl hb

/-- A scheduled device turn of a running command. -/
theorem step_device_of_busy {s : State} {rest : List Event} (hs : Inv s) (hb : s.busy = true)
    (ha : s.agenda = .device :: rest) :
    ∃ t, step s = .next t ∧ Inv t ∧ t.agenda = rest ∧ stepsLeft t < stepsLeft s ∧
      (t.busy = true ∨ t.done = true) := by
  have hinv := hs.with_agenda rest
  obtain ⟨t, ht⟩ := deviceTurn_next { s with agenda := rest }
  exact ⟨t, (step_cons ha).trans ht, deviceTurn_inv hinv ht, deviceTurn_agenda ht,
    deviceTurn_stepsLeft_lt (s := { s with agenda := rest }) hinv hb ht,
    deviceTurn_busy_or_done (s := { s with agenda := rest }) hb ht⟩

/-! ## The POLL loop (R74) -/

/-- Bit 0 of STATUS is BUSY (10_state.md R20). -/
theorem statusWord_bit_zero (s : State) : (statusWord s).getLsbD 0 = s.busy := by
  rw [statusWord, BitVec.getLsbD_append]
  simp

theorem busRead_status (s : State) : busRead (regOffset .status) s = { s with readData := statusWord s } := by
  rw [busRead, busValue_regOffset]
  rfl

theorem step_poll_of_idle {s : State} {rest : List Event} (hb : s.busy = false) (ha : s.agenda = .poll :: rest) :
    step s = .next { s with agenda := rest, readData := statusWord s } := by
  have hread := busRead_status { s with agenda := rest }
  exact (step_cons ha).trans (congrArg Host.Outcome.next ((if_neg (by simp [hb])).trans hread))

theorem step_poll_of_busy {s : State} {rest : List Event} (hb : s.busy = true) (ha : s.agenda = .poll :: rest) :
    step s = .next { s with agenda := .device :: .poll :: rest, readData := statusWord s } := by
  have hread := congrArg (fun t : State => { t with agenda := .device :: .poll :: rest })
    (busRead_status { s with agenda := rest })
  exact (step_cons ha).trans (congrArg Host.Outcome.next ((if_pos hb).trans hread))

/-- A failing poll and the device turn it gives: the same poll comes again, with the command one turn on. -/
theorem run_failing_poll {s : State} {rest : List Event} (hs : Inv s) (hb : s.busy = true)
    (ha : s.agenda = .poll :: rest) :
    ∃ t, run 2 s = .next t ∧ Inv t ∧ t.agenda = .poll :: rest ∧ stepsLeft t < stepsLeft s ∧
      (t.busy = true ∨ t.done = true) := by
  have hinv : Inv { s with agenda := .device :: .poll :: rest, readData := statusWord s } :=
    hs.with_hostSide s.ie s.done s.wign s.cign _ _ s.draws hs.done_of_busy
  obtain ⟨t, ht, hkeep⟩ := step_device_of_busy hinv hb rfl
  exact ⟨t, by rw [run_succ_next (step_poll_of_busy hb ha), run_succ_next ht, run_zero], hkeep⟩

/-- The loop ends from any state that meets the invariant; DONE is set if a command ran or DONE was set before. -/
theorem poll_ends {s : State} {rest : List Event} (hs : Inv s) (ha : s.agenda = .poll :: rest) :
    ∃ (k : Nat) (t : State), run k s = .next t ∧ t.agenda = rest ∧ t.busy = false ∧ t.readData.getLsbD 0 = false ∧
      (s.busy = true ∨ s.done = true → t.done = true) := by
  induction hn : stepsLeft s using Nat.strong_induction_on generalizing s with
  | _ n ih =>
    cases hb : s.busy with
    | false =>
      exact ⟨1, _, run_succ_next (step_poll_of_idle hb ha), rfl, hb, (statusWord_bit_zero s).trans hb, by simp⟩
    | true =>
      obtain ⟨u, hu, hinv, hau, hlt, hbd⟩ := run_failing_poll hs hb ha
      obtain ⟨k, t, ht, hat, hbt, hread, hdone⟩ := ih _ (hn ▸ hlt) hinv hau rfl
      exact ⟨2 + k, t, (run_add k hu).trans ht, hat, hbt, hread, fun _ => hdone hbd⟩

/-- Settles O59: each failing poll gives the device a turn, which lowers `stepsLeft`. -/
theorem pollEndsWhenTheCommandIsDone : Obligations.PollEndsWhenTheCommandIsDone := by
  intro s rest hs ha
  obtain ⟨k, t, hrun, hat, hbt, hread, hdone⟩ := poll_ends hs ha
  exact ⟨k, t, hrun, hat, hbt, hread, fun hb => hdone (.inl hb)⟩

end Sys2Proof.Machine
end

section
/-! PROOFS. PKCS#7 (40_pkcs7.md R75 to R84): the laws of the byte functions, then the steps of PAD and UNPAD, then
the two commands whole. Both commands end by storing a byte sequence of length L in OUT; what that step leaves is said
once. -/

namespace Sys2Proof.Machine

/-! ## The byte functions (R75, R76, R84) -/

@[simp] theorem length_pad (bs : Nat) (d : List Byte) : (pad bs d).length = d.length + padCount bs d.length := by
  simp [pad]

theorem add_padCount_mod {bs : Nat} (n : Nat) (h : bs ≠ 0) : (n + padCount bs n) % bs = 0 := by
  have hlt := Nat.mod_lt n (Nat.pos_of_ne_zero h)
  have hsum : n + padCount bs n = bs * (n / bs + 1) := by
    have := Nat.div_add_mod n bs
    rw [padCount, Nat.mul_succ]
    omega
  rw [hsum, Nat.mul_mod_right]

/-- The last byte of a padded sequence is the number of its padding bytes. -/
theorem getD_pad_last {bs : Nat} (d : List Byte) (h : bs ≠ 0) :
    (pad bs d).getD ((pad bs d).length - 1) 0 = BitVec.ofNat 8 (padCount bs d.length) := by
  have hpos := padCount_pos d.length h
  rw [length_pad, pad, List.getD_append_right _ _ _ _ (by omega), List.getD_replicate _ (by omega)]

/-- `padcheck` by the value `m` of the last byte, in the order of R76. -/
theorem padcheck_eq {bs m : Nat} {d : List Byte} (hm : m = (d.getD (d.length - 1) 0).toNat) :
    padcheck bs d =
      if d.length = 0 then .bad .empty else if m = 0 then .bad .padZero else if bs < m then .bad .padGtBs
      else if d.length < m then .bad .padGtLen else .ok m := by
  rw [hm]; rfl

theorem padcheck_of_le {bs m : Nat} {d : List Byte} (hm : m = (d.getD (d.length - 1) 0).toNat) (h0 : m ≠ 0)
    (hbs : m ≤ bs) (hd : m ≤ d.length) : padcheck bs d = .ok m := by
  rw [padcheck_eq hm, if_neg (by omega), if_neg h0, if_neg (by omega), if_neg (by omega)]

theorem padcheck_pad {bs : Nat} (d : List Byte) (h0 : bs ≠ 0) (h : bs ≤ 255) :
    padcheck bs (pad bs d) = .ok (padCount bs d.length) := by
  have hpos := padCount_pos d.length h0
  have hle := padCount_le bs d.length
  refine padcheck_of_le ?_ (by omega) hle (by rw [length_pad]; omega)
  rw [getD_pad_last d h0, BitVec.toNat_ofNat, Nat.mod_eq_of_lt (by omega)]

theorem unpad_of_ok {bs n : Nat} {d : List Byte} (h : padcheck bs d = .ok n) :
    unpad bs d = .bytes (d.take (d.length - n)) := by
  rw [unpad, h]

theorem unpad_of_bad {bs : Nat} {d : List Byte} {x : ErrDetail} (h : padcheck bs d = .bad x) :
    unpad bs d = .corruptPadding x := by
  rw [unpad, h]

theorem unpad_eq_bytes {bs : Nat} {d m : List Byte} (h : unpad bs d = .bytes m) :
    ∃ n, padcheck bs d = .ok n ∧ m = d.take (d.length - n) := by
  cases hc : padcheck bs d with
  | ok n => rw [unpad_of_ok hc] at h; exact ⟨n, rfl, (Unpadded.bytes.inj h).symm⟩
  | bad x => rw [unpad_of_bad hc] at h; cases h

theorem unpad_eq_corruptPadding {bs : Nat} {d : List Byte} {x : ErrDetail} (h : unpad bs d = .corruptPadding x) :
    padcheck bs d = .bad x := by
  cases hc : padcheck bs d with
  | ok n => rw [unpad_of_ok hc] at h; cases h
  | bad y => rw [unpad_of_bad hc] at h; rw [Unpadded.corruptPadding.inj h]

/-- Unpadding undoes padding (R84, law 2). -/
theorem unpad_pad {bs : Nat} (d : List Byte) (h0 : bs ≠ 0) (h : bs ≤ 255) : unpad bs (pad bs d) = .bytes d := by
  rw [unpad_of_ok (padcheck_pad d h0 h), length_pad, Nat.add_sub_cancel, pad, List.take_left]

/-- Settles O13: the padding count is positive and fills up the last block, and the last byte tells it back. -/
theorem paddingLaws : Obligations.PaddingLaws := by
  intro bs h1 h255
  have h0 : bs ≠ 0 := by omega
  refine ⟨fun d => ⟨?_, ?_⟩, fun d => unpad_pad d h0 h255, fun d n hok => ?_⟩
  · have := padCount_pos d.length h0
    rw [length_pad]; omega
  · rw [length_pad, add_padCount_mod _ h0]
  · obtain ⟨hpos, hbs, hlen, -⟩ := padcheck_ok hok
    exact ⟨hpos, le_min hbs hlen⟩

/-! ## The steps of PAD and UNPAD by controller state (R77, R80) -/

theorem exec_pad_at_validate {s : State} (hf : s.fsm = .validate) (hp : padBoundary s ≠ 0)
    (hn : inCount s ≤ s.params.bufBytes) : exec .pad s = .next (padSetup s) := by
  have he : exec .pad s = .next (validateThen (padChecks s) padSetup s) := by simp only [exec, execPad, hf]
  rw [he, validateThen_of_none ((padChecks_pass_iff s).2 ⟨hp, hn⟩)]

theorem exec_unpad_at_validate {s : State} (hf : s.fsm = .validate) (hp : padBoundary s ≠ 0)
    (hn : inCount s ≤ s.params.bufBytes) : exec .unpad s = .next (unpadSetup s) := by
  have he : exec .unpad s = .next (validateThen (padChecks s) unpadSetup s) := by simp only [exec, execUnpad, hf]
  rw [he, validateThen_of_none ((padChecks_pass_iff s).2 ⟨hp, hn⟩)]

theorem exec_pad_at_copy {s : State} (hf : s.fsm = .copy) : exec .pad s = .next (padCopy s) := by
  simp only [exec, execPad, hf]

theorem exec_unpad_at_check {s : State} (hf : s.fsm = .check) : exec .unpad s = .next (unpadCheck s) := by
  simp only [exec, execUnpad, hf]

theorem exec_unpad_at_copy {s : State} (hf : s.fsm = .copy) : exec .unpad s = .next (unpadCopy s) := by
  simp only [exec, execUnpad, hf]

/-! ## The setups and CHECK (R78, R81, R82) -/

/-- L holds the length of the padded sequence: the operands VALIDATE accepts leave room for it. -/
theorem toNat_len_padSetup {s : State} (hp : s.params.wf = true) (hn : inCount s ≤ s.params.bufBytes) :
    (padSetup s).len.toNat = inCount s + padCount (padBoundary s) (inCount s) := by
  have hcap := params_bounds hp
  have hle := padCount_le (padBoundary s) (inCount s)
  have h255 := padBoundary_le s
  exact Nat.mod_eq_of_lt (by omega)

/-- Settles O7: the checks pass, so the steps are the setups. -/
theorem paddingSetups : Obligations.PaddingSetups := by
  intro s hf hwf hp hn
  exact ⟨⟨padSetup s, exec_pad_at_validate hf hp hn, rfl, toNat_len_padSetup hwf hn⟩,
    exec_unpad_at_validate hf hp hn⟩

theorem unpadCheck_of_bad {s : State} {x : ErrDetail} (h : padcheck (padBoundary s) (inSeq s (inCount s)) = .bad x) :
    unpadCheck s = raiseError .corruptPadding x s := by
  rw [unpadCheck, h]

theorem unpadCheck_of_ok {s : State} {m : Nat} (h : padcheck (padBoundary s) (inSeq s (inCount s)) = .ok m) :
    unpadCheck s = { s with len := BitVec.ofNat 32 (inCount s - m), fsm := .copy } := by
  rw [unpadCheck, h]

/-- `padcheck` of the input, by the value of its last byte. -/
theorem padcheck_inSeq {bs m n : Nat} {s : State} (hm : m = (inByte s (n - 1)).toNat) :
    padcheck bs (inSeq s n) =
      if n = 0 then .bad .empty else if m = 0 then .bad .padZero else if bs < m then .bad .padGtBs
      else if n < m then .bad .padGtLen else .ok m := by
  by_cases h0 : n = 0
  · rw [padcheck_eq rfl, length_inSeq, if_pos h0, if_pos h0]
  · have hlast : m = ((inSeq s n).getD ((inSeq s n).length - 1) 0).toNat := by
      rw [length_inSeq, getD_inSeq, if_pos (by omega), hm]
    rw [padcheck_eq hlast, length_inSeq]

/-- Settles O9: each clause is one branch of `padcheck` on the last input byte. -/
theorem unpadCheckStep : Obligations.UnpadCheckStep := by
  intro s m hf hm
  have hcheck := padcheck_inSeq (bs := padBoundary s) hm
  have raises : ∀ {x}, padcheck (padBoundary s) (inSeq s (inCount s)) = .bad x →
      exec .unpad s = .next (raiseError .corruptPadding x s) :=
    fun h => by rw [exec_unpad_at_check hf, unpadCheck_of_bad h]
  refine ⟨fun hn => raises ?_, fun hn h0 => raises ?_, fun hn h0 hp => raises ?_, fun hn h0 hp hlt => raises ?_,
    fun h0 hp hle => ?_⟩
  · rw [hcheck, if_pos hn]
  · rw [hcheck, if_neg hn, if_pos h0]
  · rw [hcheck, if_neg hn, if_neg h0, if_pos hp]
  · rw [hcheck, if_neg hn, if_neg h0, if_neg (by omega), if_pos hlt]
  · rw [if_neg (by omega), if_neg h0, if_neg (by omega), if_neg (by omega)] at hcheck
    rw [exec_unpad_at_check hf, unpadCheck_of_ok hcheck]

/-! ## COPY (R79, R83) -/

/-- The COPY step of both commands: the sequence `d` stored from `OUT[0]` up, then success with the length L. -/
def storeResult (d : List Byte) (s : State) : State :=
  finish s.len.toNat { s with mem := storeOut s.params 0 d s.mem }

theorem padCopy_eq_storeResult (s : State) :
    padCopy s = storeResult (inSeq s (inCount s) ++
      List.replicate (s.len.toNat - inCount s) (BitVec.ofNat 8 (s.len.toNat - inCount s))) s := rfl

theorem unpadCopy_eq_storeResult (s : State) : unpadCopy s = storeResult (inSeq s s.len.toNat) s := rfl

@[simp] theorem storeResult_outLen (d : List Byte) (s : State) : (storeResult d s).outLen = s.len := by
  rw [storeResult, finish_outLen, BitVec.ofNat_toNat, BitVec.setWidth_eq]

theorem outByte_storeResult {s : State} {d : List Byte} (hm : Memory.wf s.mem) (hd : d.length = s.len.toNat)
    (hl : s.len.toNat ≤ s.params.outBytes) (i : Nat) : outByte (storeResult d s) i = d.getD i 0 := by
  rw [storeResult, outByte_finish]
  by_cases hi : s.len.toNat ≤ i
  · rw [if_pos hi, List.getD_eq_default _ _ (by omega)]
  · rw [if_neg hi, outByte_storeOut hm, if_pos (by omega), Nat.sub_zero]

theorem onlyOutChanged_storeResult {s : State} (hm : Memory.wf s.mem) (d : List Byte) :
    onlyOutChanged s (storeResult d s) :=
  fun _ ha => (OutReached.start.store 0 d |>.erase s.len.toNat).readByte_eq hm ha

theorem outHolds_storeResult {s : State} {d : List Byte} (hm : Memory.wf s.mem) (hd : d.length = s.len.toNat)
    (hl : s.len.toNat ≤ s.params.outBytes) : outHolds (storeResult d s) d :=
  ⟨by rw [storeResult_outLen, hd], outByte_storeResult hm hd hl⟩

/-- PAD and UNPAD consume neither the key nor the IV (60_exceptions.md R118). -/
theorem padding_consumes_nothing {s : State} (h : decode s.cmd = .command .pad ∨ decode s.cmd = .command .unpad) :
    consumesKey (decode s.cmd) = false ∧ consumesIv (decode s.cmd) = false := by
  obtain h | h := h <;> rw [h] <;> exact ⟨rfl, rfl⟩

theorem storeResult_frame {s : State} (h : decode s.cmd = .command .pad ∨ decode s.cmd = .command .unpad)
    (d : List Byte) :
    storeResult d s = { s with
      mem := (storeResult d s).mem, outLen := (storeResult d s).outLen, riv := 0, blk := 0, busy := false, done := true,
      fsm := .idle } := by
  obtain ⟨hkey, hiv⟩ := padding_consumes_nothing h
  simp [storeResult, finish, complete, clearOperands, hkey, hiv]

theorem raiseError_of_padding {s : State} (h : decode s.cmd = .command .pad ∨ decode s.cmd = .command .unpad)
    (c : ErrCode) (x : ErrDetail) :
    raiseError c x s = { s with
      mem := (raiseError c x s).mem, outLen := 0, errCode := c, errDetail := x,
      port := { s.port with rspValid := false }, riv := 0, blk := 0, busy := false, done := true, fsm := .idle } := by
  obtain ⟨hkey, hiv⟩ := padding_consumes_nothing h
  simp [raiseError, complete, clearOperands, dropResponse, hkey, hiv]

/-- The input followed by `k` padding bytes, by byte. -/
theorem getD_inSeq_append_replicate (s : State) (n k i : Nat) (b : Byte) :
    (inSeq s n ++ List.replicate k b).getD i 0 = if i < n then inByte s i else if i < n + k then b else 0 := by
  by_cases hn : i < n
  · rw [List.getD_append _ _ _ _ (by simpa using hn), getD_inSeq, if_pos hn, if_pos hn]
  · rw [List.getD_append_right _ _ _ _ (by simpa using hn), length_inSeq, if_neg hn]
    by_cases hk : i < n + k
    · rw [List.getD_replicate _ (by omega), if_pos hk]
    · rw [List.getD_eq_default _ _ (by simp; omega), if_neg hk]

/-- Settles O8: the step stores the input and L - n padding bytes. -/
theorem padCopyStep : Obligations.PadCopyStep := by
  intro s hf hd hm hn hl
  refine ⟨padCopy s, exec_pad_at_copy hf, ?_⟩
  rw [padCopy_eq_storeResult]
  refine ⟨(storeResult_frame (.inl hd) _).trans (by rw [storeResult_outLen]), fun i => ?_,
    onlyOutChanged_storeResult hm _⟩
  rw [outByte_storeResult hm (by simp; omega) hl, getD_inSeq_append_replicate, Nat.add_sub_cancel' hn]

/-- Settles O10: the step stores the first L input bytes. -/
theorem unpadCopyStep : Obligations.UnpadCopyStep := by
  intro s hf hd hm hl
  refine ⟨unpadCopy s, exec_unpad_at_copy hf, ?_⟩
  rw [unpadCopy_eq_storeResult]
  refine ⟨(storeResult_frame (.inr hd) _).trans (by rw [storeResult_outLen]), fun i => ?_,
    onlyOutChanged_storeResult hm _⟩
  rw [outByte_storeResult hm (length_inSeq s _) hl, getD_inSeq]

/-! ## The two commands whole (R77, R80, R138) -/

/-- A scheduled controller's turn at VALIDATE runs the command CMD holds. -/
theorem step_controller_at_validate {s : State} {i : Instr} {rest : List Event} (ha : s.agenda = .controller :: rest)
    (hf : s.fsm = .validate) (hd : decode s.cmd = .command i) : step s = exec i { s with agenda := rest } :=
  (step_cons ha).trans (controllerTurn_of_validate (s := { s with agenda := rest }) hf hd)

/-- A scheduled controller's turn after VALIDATE runs the command `opc` names, which is still the one CMD holds. -/
theorem step_controller_after_validate {s : State} {i : Instr} {rest : List Event}
    (ha : s.agenda = .controller :: rest) (h1 : s.fsm ≠ .idle) (h2 : s.fsm ≠ .validate)
    (hd : decode s.cmd = .command i) (ho : s.opc = opcodeField s.cmd) : step s = exec i { s with agenda := rest } :=
  (step_cons ha).trans (controllerTurn_after_validate (s := { s with agenda := rest }) h1 h2
    (by rw [ho, opcodeInstr_of_decode hd]))

/-- The state of a padding command that has its length `l` and goes to COPY, with the turns to come. -/
def atCopy (l : Word) (turns : List Event) (s : State) : State := { s with len := l, fsm := .copy, agenda := turns }

/-- The last turn of a padding command: where its COPY step stores `d`, of length L, it leaves `d` as the result. -/
theorem step_atCopy {s : State} {i : Instr} {l : Word} {d : List Byte} {rest : List Event}
    (hi : i = .pad ∨ i = .unpad) (hd : decode s.cmd = .command i) (ho : s.opc = opcodeField s.cmd)
    (hm : Memory.wf s.mem) (hlen : d.length = l.toNat) (hout : l.toNat ≤ s.params.outBytes)
    (he : exec i (atCopy l rest s) = .next (storeResult d (atCopy l rest s))) :
    ∃ t, step (atCopy l (.controller :: rest) s) = .next t ∧
      t = { s with
        mem := t.mem, len := t.len, outLen := t.outLen, riv := 0, blk := 0, busy := false, done := true, fsm := .idle,
        agenda := rest } ∧
      outHolds t d ∧ onlyOutChanged s t := by
  have hd' : decode s.cmd = .command .pad ∨ decode s.cmd = .command .unpad := by
    obtain rfl | rfl := hi
    · exact .inl hd
    · exact .inr hd
  have hstep : step (atCopy l (.controller :: rest) s) = exec i (atCopy l rest s) :=
    step_controller_after_validate (s := atCopy l (.controller :: rest) s) rfl nofun nofun hd ho
  exact ⟨_, hstep.trans he, storeResult_frame (s := atCopy l rest s) hd' d,
    outHolds_storeResult (s := atCopy l rest s) hm hlen hout,
    onlyOutChanged_storeResult (s := atCopy l rest s) hm d⟩

/-- With L the length of the padded input, PAD's COPY step stores the padded input. -/
theorem padCopy_eq_storeResult_pad {s : State}
    (hl : s.len.toNat = inCount s + padCount (padBoundary s) (inCount s)) :
    padCopy s = storeResult (pad (padBoundary s) (inSeq s (inCount s))) s := by
  rw [padCopy_eq_storeResult, pad, length_inSeq, hl, Nat.add_sub_cancel_left]

/-- Settles O11: VALIDATE sets L to the length of the padded input, and COPY stores the padded input. -/
theorem padCommandResult : Obligations.PadCommandResult := by
  intro s rest hready ha
  obtain ⟨hf, hd, hn, hp⟩ := hready.accepted
  have hlen := toNat_len_padSetup hready.params_legal hn
  have hout : (padSetup s).len.toNat ≤ s.params.outBytes := by
    have hle := padCount_le (padBoundary s) (inCount s)
    have h255 := padBoundary_le s
    rw [hlen, Params.outBytes]
    omega
  have hvalidate : step s = .next (atCopy (padSetup s).len (.controller :: rest) s) :=
    (step_controller_at_validate ha hf hd).trans (exec_pad_at_validate hf hp hn)
  have hcopy : exec .pad (atCopy (padSetup s).len rest s) =
      .next (storeResult (pad (padBoundary s) (inSeq s (inCount s))) (atCopy (padSetup s).len rest s)) :=
    (exec_pad_at_copy rfl).trans (congrArg _ (padCopy_eq_storeResult_pad hlen))
  obtain ⟨t, ht, hresult⟩ := step_atCopy (.inl rfl) hd hready.opc_of_cmd hready.memory_wf
    (by rw [length_pad, length_inSeq, hlen]) hout hcopy
  exact ⟨t, by rw [run_succ_next hvalidate, run_succ_next ht, run_zero], hresult⟩

theorem take_inSeq (s : State) {k n : Nat} (h : k ≤ n) : (inSeq s n).take k = inSeq s k := by
  rw [inSeq, ← List.map_take, List.take_range, Nat.min_eq_left h, inSeq]

/-- The first two turns of an UNPAD command: VALIDATE passes and CHECK decides. -/
theorem run_unpad_check {s : State} {rest : List Event} (hready : ReadyToRun .unpad s)
    (ha : s.agenda = .controller :: .controller :: rest) :
    run 2 s = .next (unpadCheck { s with fsm := .check, agenda := rest }) := by
  obtain ⟨hf, hd, hn, hp⟩ := hready.accepted
  have hvalidate : step s = .next { s with fsm := .check, agenda := .controller :: rest } :=
    (step_controller_at_validate ha hf hd).trans (exec_unpad_at_validate hf hp hn)
  have hcheck : step { s with fsm := .check, agenda := .controller :: rest } =
      .next (unpadCheck { s with fsm := .check, agenda := rest }) :=
    (step_controller_after_validate (s := { s with fsm := .check, agenda := .controller :: rest }) rfl nofun nofun hd
      hready.opc_of_cmd).trans (exec_unpad_at_check rfl)
  rw [run_succ_next hvalidate, run_succ_next hcheck, run_zero]

/-- Settles O12: CHECK goes on with L the length of the unpadded input, which COPY stores, or fails with the detail of
`padcheck`. -/
theorem unpadCommandResult : Obligations.UnpadCommandResult := by
  intro s rest hready
  obtain ⟨-, hd, hn, -⟩ := hready.accepted
  refine ⟨fun d hunpad ha => ?_, fun x hunpad ha => ?_⟩
  · obtain ⟨m, hok, rfl⟩ := unpad_eq_bytes hunpad
    rw [length_inSeq, take_inSeq s (Nat.sub_le _ m)]
    have hlen : (BitVec.ofNat 32 (inCount s - m)).toNat = inCount s - m :=
      Nat.mod_eq_of_lt ((Nat.sub_le _ m).trans_lt s.inLen.isLt)
    have hcheck : run 2 s = .next (atCopy (BitVec.ofNat 32 (inCount s - m)) (.controller :: rest) s) :=
      (run_unpad_check hready ha).trans (congrArg _ (unpadCheck_of_ok hok))
    have hcopy : exec .unpad (atCopy (BitVec.ofNat 32 (inCount s - m)) rest s) =
        .next (storeResult (inSeq s (inCount s - m)) (atCopy (BitVec.ofNat 32 (inCount s - m)) rest s)) := by
      rw [exec_unpad_at_copy rfl, unpadCopy_eq_storeResult]
      exact congrArg (fun k => Host.Outcome.next (storeResult (inSeq s k) _)) hlen
    obtain ⟨t, ht, hresult⟩ := step_atCopy (.inr rfl) hd hready.opc_of_cmd hready.memory_wf
      (by rw [length_inSeq, hlen]) (by rw [hlen, Params.outBytes]; omega) hcopy
    exact ⟨t, by rw [run_add 1 hcheck, run_succ_next ht, run_zero], hresult⟩
  · have hbad := unpad_eq_corruptPadding hunpad
    refine ⟨_, (run_unpad_check hready ha).trans (congrArg _ (unpadCheck_of_bad hbad)), ?_,
      ⟨rfl, outByte_raiseError _ _ _⟩, ?_⟩
    · exact raiseError_of_padding (s := { s with fsm := .check, agenda := rest }) (.inr hd) _ _
    · exact onlyOutChanged_raiseError _ _ { s with fsm := .check, agenda := rest }

end Sys2Proof.Machine
end

section
/-! PROOFS. The cipher port (41_cipher_port.md R88 to R92): the cipher's step by its draw, a controller that waits for
the cipher, and a device left to itself, whose every turn lowers `stepsLeft`. -/

namespace Sys2Proof.Machine

/-! ## The cipher's step (R88) -/

/-- The draw fails the request. -/
def drawFails (d : CipherDraw) : Bool :=
  match d with
  | .ok => false
  | .fail _ => true

theorem cipherStep_ok (cipher : Block → Equiv.Perm Block) {s : State} (h : cipherEnabled s = true) :
    cipherStep cipher .ok s = { s with port := { s.port with
      rspData := cipherResult cipher s.port, rspFail := false, rspValid := true, reqValid := false } } := if_pos h

theorem cipherStep_fail (cipher : Block → Equiv.Perm Block) (junk : Block) {s : State} (h : cipherEnabled s = true) :
    cipherStep cipher (.fail junk) s = { s with port := { s.port with
      rspData := junk, rspFail := true, rspValid := true, reqValid := false } } := if_pos h

theorem cipherResult_of_encrypt (cipher : Block → Equiv.Perm Block) {q : CipherPort} (h : q.reqDir = .encrypt) :
    cipherResult cipher q = cipher q.reqKey q.reqData := by simp only [cipherResult, h, enc]

theorem cipherResult_of_decrypt (cipher : Block → Equiv.Perm Block) {q : CipherPort} (h : q.reqDir = .decrypt) :
    cipherResult cipher q = (cipher q.reqKey).symm q.reqData := by simp only [cipherResult, h, dec]

/-- An answer has RSP_FAIL by its draw, whatever it has on RSP_DATA. -/
theorem cipherStep_rspFail (cipher : Block → Equiv.Perm Block) (d : CipherDraw) {s : State}
    (h : cipherEnabled s = true) : ∃ data, cipherStep cipher d s = { s with port := { s.port with
      rspData := data, rspFail := drawFails d, rspValid := true, reqValid := false } } := by
  cases d with
  | ok => exact ⟨_, cipherStep_ok cipher h⟩
  | fail junk => exact ⟨_, cipherStep_fail cipher junk h⟩

/-- Settles O31: the cipher is enabled, and answers by its draw and the direction of the request. -/
theorem cipherStepAnswersTheRequest : Obligations.CipherStepAnswersTheRequest := by
  intro s hreq hrsp
  have hen : cipherEnabled s = true := (cipherEnabled_iff s).2 ⟨hreq, hrsp⟩
  refine ⟨fun hdir => ?_, fun hdir => ?_, fun junk => congrArg _ (cipherStep_fail _ junk hen)⟩
  · rw [← cipherResult_of_encrypt _ hdir]
    exact congrArg _ (cipherStep_ok _ hen)
  · rw [← cipherResult_of_decrypt _ hdir]
    exact congrArg _ (cipherStep_ok _ hen)

/-! ## A cipher that does not answer (R90, R92) -/

/-- Without a response no command has a step in WAIT. -/
theorem exec_waiting (i : Instr) {s : State} (hf : s.fsm = .wait) (hrsp : s.port.rspValid = false) :
    exec i s = .next s := by
  obtain ⟨-, hcipher, -⟩ := turnsWithoutAStepChangeNothing s
  cases i with
  | pad => simp only [exec, execPad, hf]
  | unpad => simp only [exec, execUnpad, hf]
  | ecbEnc | ecbDec | cbcEnc | cbcDec => exact (hcipher _ (by simp)).2 hf hrsp

theorem controllerTurn_waiting {s : State} (hf : s.fsm = .wait) (hrsp : s.port.rspValid = false) :
    controllerTurn s = .next s := by
  cases ho : opcodeInstr s.opc with
  | none => simp only [controllerTurn, hf, ho]
  | some i => rw [controllerTurn_after_validate (by simp [hf]) (by simp [hf]) ho, exec_waiting i hf hrsp]

/-- The controller waits for the cipher. -/
structure WaitsForCipher (s : State) : Prop where
  fsm : s.fsm = .wait
  busy : s.busy = true
  no_response : s.port.rspValid = false

/-- `t` is `s` but for the flags and the host's side. -/
def OnlyFlagsChanged (s t : State) : Prop :=
  ∃ ie done wign cign agenda readData,
    t = { s with ie := ie, done := done, wign := wign, cign := cign, agenda := agenda, readData := readData }

theorem OnlyFlagsChanged.refl (s : State) : OnlyFlagsChanged s s := ⟨_, _, _, _, _, _, rfl⟩

theorem OnlyFlagsChanged.trans {r s t : State} (h : OnlyFlagsChanged r s) (h' : OnlyFlagsChanged s t) :
    OnlyFlagsChanged r t := by
  obtain ⟨_, _, _, _, _, _, rfl⟩ := h
  obtain ⟨_, _, _, _, _, _, rfl⟩ := h'
  exact ⟨_, _, _, _, _, _, rfl⟩

theorem OnlyFlagsChanged.waits {s t : State} (h : OnlyFlagsChanged s t) (hs : WaitsForCipher s) : WaitsForCipher t := by
  obtain ⟨_, _, _, _, _, _, rfl⟩ := h
  exact ⟨hs.fsm, hs.busy, hs.no_response⟩

theorem OnlyFlagsChanged.params {s t : State} (h : OnlyFlagsChanged s t) : t.params = s.params := by
  obtain ⟨_, _, _, _, _, _, rfl⟩ := h
  rfl

/-- A host write to a busy device that is no soft reset reaches the flags alone, whatever DONE is (R36, R37). -/
theorem busWrite_of_busy_of_not_srst {off : Nat} {v : Word} {s : State} (hb : s.busy = true)
    (hsrst : off = regOffset .ctrl → v.getLsbD 1 = false) :
    OnlyFlagsChanged s (busWrite off v s) ∧ (busWrite off v s).agenda = s.agenda := by
  rcases busWrite_cases off v s with h | ⟨ho, h⟩ | ⟨-, h⟩ | ⟨-, h⟩ | ⟨-, f, h, -⟩
  · rw [h]; exact ⟨.refl s, rfl⟩
  · rw [h, writeCtrl, hsrst ho]; exact ⟨⟨_, _, _, _, _, _, rfl⟩, rfl⟩
  · rw [h]; exact ⟨⟨_, _, _, _, _, _, rfl⟩, rfl⟩
  · rw [h, writeCmd, if_pos hb]; exact ⟨⟨_, _, _, _, _, _, rfl⟩, rfl⟩
  · rw [h, inputWrite, if_pos hb]; exact ⟨⟨_, _, _, _, _, _, rfl⟩, rfl⟩

/-- A plain host access to a busy device reaches the flags and the read bus alone. -/
theorem hostAccess_plain_of_busy {a : Access} {s : State} (hb : s.busy = true)
    (he : isPlainAccess s.params (.host a) = true) :
    ∃ t, hostAccess a s = .next t ∧ OnlyFlagsChanged s t ∧ t.agenda = s.agenda := by
  simp only [isPlainAccess, Bool.and_eq_true] at he
  obtain ⟨hwf, hkind⟩ := he
  refine ⟨_, (hostAccess_wf hwf).1, ?_⟩
  cases hk : a.kind with
  | read => exact ⟨⟨_, _, _, _, _, _, rfl⟩, rfl⟩
  | write v => exact busWrite_of_busy_of_not_srst hb fun ho => by simpa [hk, ho] using hkind

/-- While the controller waits, its turns and the plain accesses of the host change the flags at most. -/
theorem step_waiting {s : State} {e : Event} {rest : List Event} (hs : WaitsForCipher s)
    (he : e = .controller ∨ isPlainAccess s.params e = true) (ha : s.agenda = e :: rest) :
    ∃ t, step s = .next t ∧ OnlyFlagsChanged s t ∧ t.agenda = rest := by
  have hrest : OnlyFlagsChanged s { s with agenda := rest } := ⟨_, _, _, _, _, _, rfl⟩
  rw [step_cons ha]
  obtain rfl | he := he
  · exact ⟨_, controllerTurn_waiting (s := { s with agenda := rest }) hs.fsm hs.no_response, hrest, rfl⟩
  · cases e with
    | host a =>
      obtain ⟨t, ht, hflags, hat⟩ := hostAccess_plain_of_busy (s := { s with agenda := rest }) hs.busy he
      exact ⟨t, ht, hrest.trans hflags, hat⟩
    | controller | cipher _ | poll | awaitIrq | device | hardReset => cases he

/-- So does every run of such turns. -/
theorem run_waiting {s : State} {turns : List Event} (hs : WaitsForCipher s)
    (hturns : ∀ e ∈ turns, e = .controller ∨ isPlainAccess s.params e = true) (ha : s.agenda = turns) :
    ∃ t, run turns.length s = .next t ∧ OnlyFlagsChanged s t := by
  induction turns generalizing s with
  | nil => exact ⟨s, rfl, .refl s⟩
  | cons e es ih =>
    obtain ⟨he, hes⟩ := List.forall_mem_cons.1 hturns
    obtain ⟨u, hu, hflags, hau⟩ := step_waiting hs he ha
    obtain ⟨t, ht, hflags'⟩ := ih (hflags.waits hs) (by rwa [hflags.params]) hau
    exact ⟨t, (run_succ_next hu).trans ht, hflags.trans hflags'⟩

/-- Settles O33: no flag and nothing of the host's side is among what the statement names. -/
theorem onlyTheCipherOrAResetLeavesWait : Obligations.OnlyTheCipherOrAResetLeavesWait := by
  intro s turns hf hb hrsp ha hturns
  obtain ⟨t, ht, _, _, _, _, _, _, rfl⟩ := run_waiting ⟨hf, hb, hrsp⟩ hturns ha
  exact ⟨_, ht, hf, hb, rfl, rfl, rfl, rfl⟩

/-! ## A device left to itself (R92, R138) -/

theorem stepsLeft_le (s : State) : stepsLeft s ≤ 3 * (inCount s / 16 + 1) + 2 := by
  have hblocks : blocksLeft s ≤ inCount s / 16 + 1 := Nat.sub_le _ _
  cases h : s.fsm with
  | idle => rw [stepsLeft_idle h]; omega
  | validate => rw [stepsLeft_validate h]
  | load => rw [stepsLeft_load h]; omega
  | wait => rw [stepsLeft_wait h]; split <;> omega
  | copy => rw [stepsLeft_copy h]; omega
  | check => rw [stepsLeft_check h]; omega

/-- With no turn scheduled the device completes its command within `stepsLeft` steps. -/
theorem run_to_completion {s : State} (hs : Inv s) (ha : s.agenda = []) (hbd : s.busy = true ∨ s.done = true) :
    ∃ (k : Nat) (t : State), k ≤ stepsLeft s ∧ run k s = .next t ∧ t.busy = false ∧ t.done = true ∧ t.fsm = .idle := by
  induction hn : stepsLeft s using Nat.strong_induction_on generalizing s with
  | _ n ih =>
    cases hb : s.busy with
    | false => exact ⟨0, s, Nat.zero_le _, rfl, hb, hbd.resolve_left (by simp [hb]), hs.control.idle_of_not_busy hb⟩
    | true =>
      obtain ⟨u, hu⟩ := deviceTurn_next s
      have hlt := deviceTurn_stepsLeft_lt hs hb hu
      obtain ⟨k, t, hk, ht, hend⟩ := ih _ (hn ▸ hlt) (deviceTurn_inv hs hu) ((deviceTurn_agenda hu).trans ha)
        (deviceTurn_busy_or_done hb hu) rfl
      exact ⟨k + 1, t, by omega, (run_succ_next ((step_nil ha).trans hu)).trans ht, hend⟩

/-- Settles O58: `stepsLeft` bounds the steps, and the statement's number bounds `stepsLeft`. -/
theorem everyCommandCompletes : Obligations.EveryCommandCompletes := by
  intro s hs ha hb
  obtain ⟨k, t, hk, hend⟩ := run_to_completion hs ha (.inl hb)
  exact ⟨k, t, hk.trans (stepsLeft_le s), hend⟩

end Sys2Proof.Machine
end

section
/-! PROOFS. A command whose request the cipher fails (41_cipher_port.md R89). ECB and CBC go through the same block loop
(42_ecb.md R98 to R100, 43_cbc.md R106, R107, R109): `AtBlock` says where it stands before block `k`, and each round of
LOAD, answer and WAIT leads to the next block, or into the failure procedure (60_exceptions.md R117). -/

namespace Sys2Proof.Machine

/-! ## The steps of the four cipher commands, where they are one -/

/-- A command that uses the cipher. -/
abbrev IsCipherCommand (i : Instr) : Prop := i = .ecbEnc ∨ i = .ecbDec ∨ i = .cbcEnc ∨ i = .cbcDec

theorem exec_ecb_at_load {i : Instr} {s : State} (hi : i = .ecbEnc ∨ i = .ecbDec) (hf : s.fsm = .load) :
    exec i s = .next (ecbLoad (requestDir i) s) := by
  obtain rfl | rfl := hi
  · simp only [exec_ecbEnc, execEcb, hf, requestDir]
  · simp only [exec_ecbDec, execEcb, hf, requestDir]

theorem exec_ecb_at_wait {i : Instr} {s : State} (hi : i = .ecbEnc ∨ i = .ecbDec) (hf : s.fsm = .wait) :
    exec i s = .next (ecbWait s) := by
  obtain rfl | rfl := hi
  · simp only [exec_ecbEnc, execEcb, hf]
  · simp only [exec_ecbDec, execEcb, hf]

theorem exec_cbcEnc_at_validate {s : State} (hf : s.fsm = .validate) :
    exec .cbcEnc s = .next (validateThen (cbcEncChecks s) cbcEncSetup s) := by
  simp only [exec, execCbcEnc, hf]

theorem exec_cbcEnc_at_load {s : State} (hf : s.fsm = .load) : exec .cbcEnc s = .next (cbcEncLoad s) := by
  simp only [exec, execCbcEnc, hf]

theorem exec_cbcEnc_at_wait {s : State} (hf : s.fsm = .wait) : exec .cbcEnc s = .next (cbcEncWait s) := by
  simp only [exec, execCbcEnc, hf]

theorem exec_cbcDec_at_load {s : State} (hf : s.fsm = .load) : exec .cbcDec s = .next (cbcDecLoad s) := by
  simp only [exec, execCbcDec, hf]

theorem exec_cbcDec_at_wait {s : State} (hf : s.fsm = .wait) : exec .cbcDec s = .next (cbcDecWait s) := by
  simp only [exec, execCbcDec, hf]

/-- The setup of a cipher command with `blocks` blocks and running IV `riv`. -/
def enterLoop (blocks : Nat) (riv : Block) (s : State) : State :=
  { s with
    nb := BitVec.ofNat 16 blocks, len := BitVec.ofNat 32 (Config.blockSize * blocks), riv := riv, fsm := .load }

theorem cbcSetup_eq_enterLoop (blocks : Nat) (s : State) : cbcSetup blocks s = enterLoop blocks s.iv s := rfl

theorem ecbSetup_eq_enterLoop {s : State} (h16 : inCount s % 16 = 0) (hpos : 0 < inCount s / 16) :
    ecbSetup s = enterLoop (inCount s / 16) s.riv s := by
  have hlen : Config.blockSize * (inCount s / 16) = inCount s := by rw [blockSize_eq]; omega
  rw [enterLoop, hlen]
  exact if_neg hpos.ne'

theorem exec_ecb_enters_loop {i : Instr} {s : State} (hi : i = .ecbEnc ∨ i = .ecbDec) (hf : s.fsm = .validate)
    (hop : operandsValid i s) (hpos : 0 < blockCount i (inCount s)) :
    exec i s = .next (enterLoop (blockCount i (inCount s)) s.riv s) := by
  obtain ⟨hn, hkey, h16⟩ := (operandsValid_ecb hi s).1 hop
  rw [blockCount_ecb hi] at hpos ⊢
  rw [exec_ecb_at_validate hi hf, validateThen_of_none ((ecbChecks_pass_iff s).2 ⟨hkey, hn, h16⟩),
    ecbSetup_eq_enterLoop h16 hpos]

theorem exec_cbcEnc_enters_loop {s : State} (hf : s.fsm = .validate) (hop : operandsValid .cbcEnc s) :
    exec .cbcEnc s = .next (enterLoop (blockCount .cbcEnc (inCount s)) s.iv s) := by
  obtain ⟨hn, hkey, hiv⟩ := hop
  rw [exec_cbcEnc_at_validate hf, validateThen_of_none ((cbcEncChecks_pass_iff s).2 ⟨hkey, hiv, hn⟩)]
  exact congrArg _ (cbcSetup_eq_enterLoop _ s)

theorem exec_cbcDec_enters_loop {s : State} (hf : s.fsm = .validate) (hop : operandsValid .cbcDec s) :
    exec .cbcDec s = .next (enterLoop (blockCount .cbcDec (inCount s)) s.iv s) := by
  obtain ⟨hn, hkey, hiv, h16, h0⟩ := hop
  rw [exec_cbcDec_at_validate hf, validateThen_of_none ((cbcDecChecks_pass_iff s).2 ⟨hkey, hiv, hn, h16, h0⟩)]
  exact congrArg _ (cbcSetup_eq_enterLoop _ s)

/-- VALIDATE with operands that pass every check and at least one block enters the block loop. -/
theorem exec_cipher_at_validate {i : Instr} {s : State} (hi : IsCipherCommand i) (hf : s.fsm = .validate)
    (hop : operandsValid i s) (hpos : 0 < blockCount i (inCount s)) :
    ∃ riv, exec i s = .next (enterLoop (blockCount i (inCount s)) riv s) := by
  rcases hi with rfl | rfl | rfl | rfl
  · exact ⟨_, exec_ecb_enters_loop (.inl rfl) hf hop hpos⟩
  · exact ⟨_, exec_ecb_enters_loop (.inr rfl) hf hop hpos⟩
  · exact ⟨_, exec_cbcEnc_enters_loop hf hop⟩
  · exact ⟨_, exec_cbcDec_enters_loop hf hop⟩

/-- LOAD with the port free issues a request. -/
theorem exec_cipher_at_load {i : Instr} {s : State} (hi : IsCipherCommand i) (hf : s.fsm = .load)
    (hp : portFree s = true) : ∃ b, exec i s = .next (issueRequest (requestDir i) b s) := by
  rcases hi with rfl | rfl | rfl | rfl
  · exact ⟨_, (exec_ecb_at_load (.inl rfl) hf).trans (congrArg _ (if_pos hp))⟩
  · exact ⟨_, (exec_ecb_at_load (.inr rfl) hf).trans (congrArg _ (if_pos hp))⟩
  · exact ⟨_, (exec_cbcEnc_at_load hf).trans (congrArg _ (if_pos hp))⟩
  · exact ⟨_, (exec_cbcDec_at_load hf).trans (congrArg _ (if_pos hp))⟩

/-- WAIT is the step ECB and CBC share. -/
theorem exec_cipher_at_wait {i : Instr} {s : State} (hi : IsCipherCommand i) (hf : s.fsm = .wait) :
    ∃ x r last, exec i s = .next (cbcWait x r last s) := by
  rcases hi with rfl | rfl | rfl | rfl
  · exact ⟨_, _, _, (exec_ecb_at_wait (.inl rfl) hf).trans (congrArg _ (ecbWait_eq_cbcWait s))⟩
  · exact ⟨_, _, _, (exec_ecb_at_wait (.inr rfl) hf).trans (congrArg _ (ecbWait_eq_cbcWait s))⟩
  · exact ⟨_, _, _, exec_cbcEnc_at_wait hf⟩
  · exact ⟨_, _, _, exec_cbcDec_at_wait hf⟩

/-- A rejected request fails the command; the response is dropped once (R100, R109, R117). -/
theorem cbcWait_of_rejected {x r : Block} {last : State → State} {s : State} (hrsp : s.port.rspValid = true)
    (hfail : s.port.rspFail = true) : cbcWait x r last s = raiseError .primitiveFailure .primFail s := by
  rw [cbcWait, if_pos hrsp]
  exact if_pos hfail

/-- Before the last block a result is stored and counted, and the next block is loaded. -/
theorem cbcWait_of_more {x r : Block} {last : State → State} {s : State} (hrsp : s.port.rspValid = true)
    (hok : s.port.rspFail = false) (hmore : s.blkIdx.toNat + 1 < s.nb.toNat) :
    cbcWait x r last s = { dropResponse s with
      mem := storeOut s.params (Config.blockSize * s.blkIdx.toNat) (blockBytes x) s.mem, riv := r,
      blkIdx := s.blkIdx + 1, fsm := .load } := by
  rw [cbcWait, if_pos hrsp]
  exact (if_neg (by simp [hok])).trans (if_pos hmore)

/-- The failure of a cipher command consumes the key, and by a CBC command the IV too (R117, R118). -/
theorem raiseError_of_cipherCommand {i : Instr} {s : State} (hi : IsCipherCommand i) (hd : decode s.cmd = .command i)
    (c : ErrCode) (d : ErrDetail) :
    raiseError c d s = { s with
      mem := eraseOutFrom s.params 0 s.mem, outLen := 0, errCode := c, errDetail := d,
      port := { s.port with rspValid := false }, key := 0, keyLd := 0,
      iv := (if i = .cbcEnc ∨ i = .cbcDec then 0 else s.iv),
      ivLd := (if i = .cbcEnc ∨ i = .cbcDec then 0 else s.ivLd),
      riv := 0, blk := 0, busy := false, done := true, fsm := .idle } := by
  rcases hi with rfl | rfl | rfl | rfl <;>
    simp [raiseError, complete, clearOperands, dropResponse, hd, consumesKey, consumesIv]

/-! ## The block loop -/

/-- What the block loop leaves as it is: the state without the fields its steps write, and without the turns to come. -/
def loopView (s : State) : State :=
  { s with
    mem := [], nb := 0, len := 0, blkIdx := 0, riv := 0, blk := 0, port := CipherPort.reset, fsm := .load,
    agenda := [] }

/-- States of one view differ in the fields of the loop alone. -/
theorem eq_of_loopView {s t : State} (h : loopView t = loopView s) :
    t = { s with
      mem := t.mem, nb := t.nb, len := t.len, blkIdx := t.blkIdx, riv := t.riv, blk := t.blk, port := t.port,
      fsm := t.fsm, agenda := t.agenda } :=
  congrArg (fun v : State => { v with
    mem := t.mem, nb := t.nb, len := t.len, blkIdx := t.blkIdx, riv := t.riv, blk := t.blk, port := t.port,
    fsm := t.fsm, agenda := t.agenda }) h

/-- A failure in the block loop, as a change of the state `s` the command was accepted in. -/
theorem raiseError_of_loopView {i : Instr} {s t : State} (hi : IsCipherCommand i) (hd : decode s.cmd = .command i)
    (h : loopView t = loopView s) (c : ErrCode) (d : ErrDetail) :
    raiseError c d t = { s with
      mem := eraseOutFrom s.params 0 t.mem, nb := t.nb, len := t.len, blkIdx := t.blkIdx,
      port := { t.port with rspValid := false }, outLen := 0, errCode := c, errDetail := d, key := 0, keyLd := 0,
      iv := (if i = .cbcEnc ∨ i = .cbcDec then 0 else s.iv),
      ivLd := (if i = .cbcEnc ∨ i = .cbcDec then 0 else s.ivLd),
      riv := 0, blk := 0, busy := false, done := true, fsm := .idle, agenda := t.agenda } :=
  (congrArg (raiseError c d) (eq_of_loopView h)).trans (raiseError_of_cipherCommand hi (by exact hd) c d)

/-- `t` is in the block loop of the command `i` accepted in `s`, at block `k`: only the loop's fields differ from `s`, NB
is the command's, and memory was written in OUT alone. -/
structure InLoop (i : Instr) (s : State) (k : Nat) (t : State) : Prop where
  view : loopView t = loopView s
  blkIdx : t.blkIdx.toNat = k
  nb : t.nb.toNat = blockCount i (inCount s)
  mem : OutReached s.params s.mem t.mem

/-- At the LOAD step of block `k`, with the port free (R90). -/
structure AtBlock (i : Instr) (s : State) (k : Nat) (t : State) : Prop extends InLoop i s k t where
  fsm : t.fsm = .load
  port_free : portFree t = true

/-- At the WAIT step of block `k`, with the request outstanding (R90). -/
structure Requested (i : Instr) (s : State) (k : Nat) (t : State) : Prop extends InLoop i s k t where
  fsm : t.fsm = .wait
  enabled : cipherEnabled t = true

/-- At the WAIT step of block `k`, the cipher having answered with the draw `d` (R88, R89). -/
structure Answered (i : Instr) (s : State) (k : Nat) (d : CipherDraw) (t : State) : Prop extends InLoop i s k t where
  fsm : t.fsm = .wait
  no_request : t.port.reqValid = false
  response : t.port.rspValid = true
  rspFail : t.port.rspFail = drawFails d

theorem InLoop.cmd {i : Instr} {s t : State} {k : Nat} (h : InLoop i s k t) : t.cmd = s.cmd :=
  (congrArg State.cmd h.view :)

theorem InLoop.opc {i : Instr} {s t : State} {k : Nat} (h : InLoop i s k t) : t.opc = s.opc :=
  (congrArg State.opc h.view :)

theorem InLoop.params {i : Instr} {s t : State} {k : Nat} (h : InLoop i s k t) : t.params = s.params :=
  (congrArg State.params h.view :)

/-- A scheduled controller's turn in the loop of a command is that command's step. -/
theorem InLoop.step_controller {i : Instr} {s t : State} {k : Nat} {rest : List Event} (h : InLoop i s k t)
    (hready : ReadyToRun i s) (hf : t.fsm = .load ∨ t.fsm = .wait) (ha : t.agenda = .controller :: rest) :
    step t = exec i { t with agenda := rest } := by
  obtain ⟨-, hd, -⟩ := hready.accepted
  refine step_controller_after_validate ha ?_ ?_ (h.cmd ▸ hd) (by rw [h.opc, h.cmd, hready.opc_of_cmd]) <;>
    rcases hf with hf | hf <;> simp [hf]

/-- VALIDATE enters the loop at block 0 (R98, R106). -/
theorem step_to_atBlock {i : Instr} {s : State} {rest : List Event} (hi : IsCipherCommand i) (hready : ReadyToRun i s)
    (hpos : 0 < blockCount i (inCount s)) (ha : s.agenda = .controller :: rest) :
    ∃ t, step s = .next t ∧ t.agenda = rest ∧ AtBlock i s 0 t := by
  obtain ⟨hf, hd, hop⟩ := hready.accepted
  obtain ⟨riv, he⟩ := exec_cipher_at_validate (s := { s with agenda := rest }) hi hf hop hpos
  refine ⟨_, (step_controller_at_validate ha hf hd).trans he, rfl, ?_⟩
  exact
    { view := rfl
      blkIdx := congrArg BitVec.toNat hready.blkIdx_zero
      nb := (toNat_blockCount hready.params_legal hop).1
      mem := .start
      fsm := rfl
      port_free := hready.port_free }

/-- LOAD requests the cipher (R99, R107). -/
theorem AtBlock.step_to_requested {i : Instr} {s t : State} {k : Nat} {rest : List Event} (h : AtBlock i s k t)
    (hi : IsCipherCommand i) (hready : ReadyToRun i s) (ha : t.agenda = .controller :: rest) :
    ∃ u, step t = .next u ∧ u.agenda = rest ∧ Requested i s k u := by
  obtain ⟨b, hload⟩ := exec_cipher_at_load (s := { t with agenda := rest }) hi h.fsm h.port_free
  have hfree := h.port_free
  simp only [portFree, Bool.and_eq_true, Bool.not_eq_true'] at hfree
  refine ⟨_, (h.step_controller hready (.inl h.fsm) ha).trans hload, rfl, ?_⟩
  exact
    { view := h.view
      blkIdx := h.blkIdx
      nb := h.nb
      mem := h.mem
      fsm := rfl
      enabled := (cipherEnabled_iff _).2 ⟨rfl, hfree.2⟩ }

/-- The cipher's turn answers (R88). -/
theorem Requested.step_to_answered {i : Instr} {s t : State} {k : Nat} {d : CipherDraw} {rest : List Event}
    (h : Requested i s k t) (ha : t.agenda = .cipher d :: rest) :
    ∃ u, step t = .next u ∧ u.agenda = rest ∧ Answered i s k d u := by
  obtain ⟨data, hanswer⟩ := cipherStep_rspFail Config.cipherPerm d (s := { t with agenda := rest }) h.enabled
  refine ⟨_, (step_cons ha).trans (congrArg Host.Outcome.next hanswer), rfl, ?_⟩
  exact
    { view := h.view
      blkIdx := h.blkIdx
      nb := h.nb
      mem := h.mem
      fsm := h.fsm
      no_request := rfl
      response := rfl
      rspFail := rfl }

/-- Both turns: from the LOAD step of a block to its answer. -/
theorem AtBlock.run_to_answered {i : Instr} {s t : State} {k : Nat} {d : CipherDraw} {rest : List Event}
    (h : AtBlock i s k t) (hi : IsCipherCommand i) (hready : ReadyToRun i s)
    (ha : t.agenda = .controller :: .cipher d :: rest) :
    ∃ u, run 2 t = .next u ∧ u.agenda = rest ∧ Answered i s k d u := by
  obtain ⟨u, hu, hau, hreq⟩ := h.step_to_requested hi hready ha
  obtain ⟨v, hv, hav, hans⟩ := hreq.step_to_answered hau
  exact ⟨v, by rw [run_succ_next hu, run_succ_next hv, run_zero], hav, hans⟩

/-- A good answer before the last block leads to the next block. -/
theorem Answered.step_to_atBlock {i : Instr} {s t : State} {k : Nat} {rest : List Event} (h : Answered i s k .ok t)
    (hi : IsCipherCommand i) (hready : ReadyToRun i s) (hk : k + 1 < blockCount i (inCount s))
    (ha : t.agenda = .controller :: rest) : ∃ u, step t = .next u ∧ u.agenda = rest ∧ AtBlock i s (k + 1) u := by
  obtain ⟨x, r, last, hwait⟩ := exec_cipher_at_wait (s := { t with agenda := rest }) hi h.fsm
  rw [cbcWait_of_more (s := { t with agenda := rest }) h.response h.rspFail (by rw [h.blkIdx, h.nb]; exact hk)] at hwait
  have hnext : (t.blkIdx + 1).toNat = k + 1 := by
    have hbound := t.nb.isLt
    have hblk := h.blkIdx
    rw [← h.nb] at hk
    bv_omega
  refine ⟨_, (h.step_controller hready (.inr h.fsm) ha).trans hwait, rfl, ?_⟩
  exact
    { view := h.view
      blkIdx := hnext
      nb := h.nb
      mem := h.params ▸ h.mem.store _ _
      fsm := rfl
      port_free := by simp [portFree, h.no_request] }

/-- A failed answer ends the command by the failure procedure. -/
theorem Answered.step_to_failure {i : Instr} {s t : State} {k : Nat} {junk : Block} {rest : List Event}
    (h : Answered i s k (.fail junk) t) (hi : IsCipherCommand i) (hready : ReadyToRun i s)
    (ha : t.agenda = .controller :: rest) :
    step t = .next (raiseError .primitiveFailure .primFail { t with agenda := rest }) := by
  obtain ⟨x, r, last, hwait⟩ := exec_cipher_at_wait (s := { t with agenda := rest }) hi h.fsm
  rw [(h.step_controller hready (.inr h.fsm) ha).trans hwait,
    cbcWait_of_rejected (s := { t with agenda := rest }) h.response h.rspFail]

/-! ## Runs of the block loop -/

theorem blocksTurns_succ (k : Nat) : blocksTurns (k + 1) = blocksTurns k ++ blockTurns := by
  rw [blocksTurns, List.replicate_succ', List.flatten_concat, blocksTurns]

@[simp] theorem length_blocksTurns (k : Nat) : (blocksTurns k).length = 3 * k := by
  simp [blocksTurns, blockTurns, Nat.mul_comm]

theorem length_failingTurns (k : Nat) (junk : Block) : (failingTurns k junk).length = 1 + 3 * k + 3 := by
  simp [failingTurns]; omega

/-- After VALIDATE and `k` blocks the command stands at block `k` (R138). -/
theorem run_to_atBlock {i : Instr} {s : State} {k : Nat} {rest : List Event} (hi : IsCipherCommand i)
    (hready : ReadyToRun i s) (hk : k < blockCount i (inCount s))
    (ha : s.agenda = .controller :: (blocksTurns k ++ rest)) :
    ∃ t, run (1 + 3 * k) s = .next t ∧ t.agenda = rest ∧ AtBlock i s k t := by
  induction k generalizing rest with
  | zero =>
    obtain ⟨t, ht, hat, hblock⟩ := step_to_atBlock hi hready hk ha
    exact ⟨t, run_succ_next ht, hat, hblock⟩
  | succ k ih =>
    rw [blocksTurns_succ, List.append_assoc] at ha
    obtain ⟨t, ht, hat, hblock⟩ := ih (by omega) ha
    obtain ⟨u, hu, hau, hans⟩ := hblock.run_to_answered hi hready hat
    obtain ⟨v, hv, hav, hnext⟩ := hans.step_to_atBlock hi hready hk hau
    exact ⟨v, by rw [show 1 + 3 * (k + 1) = 1 + 3 * k + (2 + 1) by omega, run_add _ ht, run_add 1 hu,
      run_succ_next hv, run_zero], hav, hnext⟩

/-- Settles O28: `k` blocks go well, the answer to the next fails, and WAIT takes the failure procedure. -/
theorem cipherFailureAbortsTheCommand : Obligations.CipherFailureAbortsTheCommand := by
  intro s i k junk rest hi hready hk ha
  obtain ⟨-, hd, -⟩ := hready.accepted
  obtain ⟨t, ht, hat, hblock⟩ := run_to_atBlock (rest := .controller :: .cipher (.fail junk) :: .controller :: rest)
    hi hready hk (ha.trans (by simp [failingTurns]))
  obtain ⟨u, hu, hau, hans⟩ := hblock.run_to_answered hi hready hat
  have hend := hans.step_to_failure hi hready hau
  have hout := outByte_raiseError .primitiveFailure .primFail { u with agenda := rest }
  rw [raiseError_of_loopView (t := { u with agenda := rest }) hi hd hans.view] at hend hout
  have hrun : ∀ v, step u = .next v → run (failingTurns k junk).length s = .next v := fun v hv => by
    rw [length_failingTurns, run_add 3 ht, run_add 1 hu, run_succ_next hv, run_zero]
  exact ⟨_, hrun _ hend, rfl, hout, hans.blkIdx, by simp [portFree, hans.no_request],
    fun _ ha => (hans.mem.erase 0).readByte_eq hready.memory_wf ha⟩

end Sys2Proof.Machine
end

section
/-! PROOFS. Sequences of blocks, and ECB as a function of byte sequences (42_ecb.md R95, R97, R101): block `i` of the
output is the cipher's image of block `i` of the input. -/

namespace Sys2Proof.Machine

/-! ## Sequences of blocks (R10, R95) -/

/-- The byte sequence of the blocks `b 0` to `b (n - 1)`. -/
def concatBlocks (b : Nat → Block) (n : Nat) : List Byte :=
  match n with
  | 0 => []
  | k + 1 => concatBlocks b k ++ blockBytes (b k)

theorem concatBlocks_succ (b : Nat → Block) (n : Nat) :
    concatBlocks b (n + 1) = concatBlocks b n ++ blockBytes (b n) := rfl

@[simp] theorem length_concatBlocks (b : Nat → Block) (n : Nat) : (concatBlocks b n).length = 16 * n := by
  induction n with
  | zero => rfl
  | succ n ih => rw [concatBlocks_succ, List.length_append, ih, length_blockBytes, Nat.mul_succ]

theorem concatBlocks_congr {b c : Nat → Block} {n : Nat} (h : ∀ k < n, b k = c k) :
    concatBlocks b n = concatBlocks c n := by
  induction n with
  | zero => rfl
  | succ n ih => rw [concatBlocks_succ, concatBlocks_succ, ih fun k hk => h k (by omega), h n (by omega)]

/-- Byte `j` of block `k`. -/
theorem getD_concatBlocks (b : Nat → Block) {n k j : Nat} (hk : k < n) (hj : j < 16) :
    (concatBlocks b n).getD (16 * k + j) 0 = blockByte (b k) j := by
  induction n with
  | zero => omega
  | succ n ih =>
    rw [concatBlocks_succ]
    by_cases hlast : k = n
    · rw [List.getD_append_right _ _ _ _ (by rw [length_concatBlocks]; omega), length_concatBlocks, hlast,
        Nat.add_sub_cancel_left, getD_blockBytes _ hj]
    · rw [List.getD_append _ _ _ _ (by rw [length_concatBlocks]; omega), ih (by omega)]

/-- Byte `j` of `D[16k .. 16k+16)` (R95). -/
theorem blockByte_blockAt (d : List Byte) (k : Nat) {j : Nat} (hj : j < 16) :
    blockByte (blockAt d k) j = d.getD (16 * k + j) 0 := by
  rw [blockAt, blockOfBytes, blockByte_blockOfFn _ hj, List.getD_eq_getElem?_getD, List.getElem?_drop,
    ← List.getD_eq_getElem?_getD, blockSize_eq]

theorem blockAt_concatBlocks (b : Nat → Block) {n k : Nat} (hk : k < n) : blockAt (concatBlocks b n) k = b k :=
  block_ext fun j hj => by rw [blockByte_blockAt _ _ hj, getD_concatBlocks b hk hj]

/-- An aligned sequence is the sequence of its blocks. -/
theorem concatBlocks_blockAt {d : List Byte} {n : Nat} (hd : d.length = 16 * n) : concatBlocks (blockAt d) n = d := by
  refine List.ext_getElem (by rw [length_concatBlocks, hd]) fun a ha ha' => ?_
  have hbyte := getD_concatBlocks (blockAt d) (n := n) (k := a / 16) (j := a % 16) (by omega) (by omega)
  rw [blockByte_blockAt _ _ (by omega), Nat.div_add_mod, List.getD_eq_getElem _ _ ha,
    List.getD_eq_getElem _ _ ha'] at hbyte
  exact hbyte

/-! ## `ecb_enc` and `ecb_dec` (R95, R101) -/

theorem ecbEncBlocks_eq_concatBlocks (c : Block → Equiv.Perm Block) (k : Block) (d : List Byte) (n : Nat) :
    ecbEncBlocks c k d n = concatBlocks (fun i => c k (blockAt d i)) n := by
  induction n with
  | zero => rfl
  | succ n ih => rw [ecbEncBlocks, ih, concatBlocks_succ, enc]

theorem ecbDecBlocks_eq_concatBlocks (c : Block → Equiv.Perm Block) (k : Block) (d : List Byte) (n : Nat) :
    ecbDecBlocks c k d n = concatBlocks (fun i => (c k).symm (blockAt d i)) n := by
  induction n with
  | zero => rfl
  | succ n ih => rw [ecbDecBlocks, ih, concatBlocks_succ, dec]

theorem ecbEnc_eq_concatBlocks (c : Block → Equiv.Perm Block) (k : Block) (d : List Byte) :
    ecbEnc c k d = concatBlocks (fun i => c k (blockAt d i)) (d.length / 16) :=
  ecbEncBlocks_eq_concatBlocks c k d _

theorem ecbDec_eq_concatBlocks (c : Block → Equiv.Perm Block) (k : Block) (d : List Byte) :
    ecbDec c k d = concatBlocks (fun i => (c k).symm (blockAt d i)) (d.length / 16) :=
  ecbDecBlocks_eq_concatBlocks c k d _

theorem length_ecbEnc (c : Block → Equiv.Perm Block) (k : Block) {d : List Byte} (hd : d.length % 16 = 0) :
    (ecbEnc c k d).length = d.length := by
  rw [ecbEnc_eq_concatBlocks, length_concatBlocks]
  omega

theorem blockAt_ecbEnc (c : Block → Equiv.Perm Block) (k : Block) {d : List Byte} {i : Nat}
    (hi : i < d.length / 16) : blockAt (ecbEnc c k d) i = c k (blockAt d i) := by
  rw [ecbEnc_eq_concatBlocks, blockAt_concatBlocks _ hi]

/-- Decryption undoes encryption block by block (R87, R97). -/
theorem ecbDec_ecbEnc (c : Block → Equiv.Perm Block) (k : Block) {d : List Byte} (hd : d.length % 16 = 0) :
    ecbDec c k (ecbEnc c k d) = d :=
  calc
    ecbDec c k (ecbEnc c k d) =
        concatBlocks (fun i => (c k).symm (blockAt (ecbEnc c k d) i)) (d.length / 16) := by
      rw [ecbDec_eq_concatBlocks, length_ecbEnc c k hd]
    _ = concatBlocks (blockAt d) (d.length / 16) :=
      concatBlocks_congr fun i hi => by rw [blockAt_ecbEnc c k hi, Equiv.symm_apply_apply]
    _ = d := concatBlocks_blockAt (by omega)

/-- Settles O18: each output block is the image of its input block under one permutation. -/
theorem ecbLaws : Obligations.EcbLaws := by
  intro c k d hd
  refine ⟨length_ecbEnc c k hd, ecbDec_ecbEnc c k hd, fun i j hi hj => ?_⟩
  rw [blockAt_ecbEnc c k hi, blockAt_ecbEnc c k hj, (c k).injective.eq_iff]

end Sys2Proof.Machine
end

section
/-! PROOFS. The controller steps of ECB_ENC and ECB_DEC (42_ecb.md R98 to R100). -/

namespace Sys2Proof.Machine

/-! ## The success procedure of an ECB command (60_exceptions.md R116, R118) -/

/-- The success of an ECB command consumes the key alone. -/
theorem finish_of_ecb {i : Instr} {s : State} (hi : i = .ecbEnc ∨ i = .ecbDec) (hd : decode s.cmd = .command i)
    (l : Nat) :
    finish l s = { s with
      mem := eraseOutFrom s.params l s.mem, outLen := BitVec.ofNat 32 l, key := 0, keyLd := 0, riv := 0, blk := 0,
      busy := false, done := true, fsm := .idle } := by
  obtain rfl | rfl := hi <;> simp [finish, complete, clearOperands, hd, consumesKey, consumesIv]

/-! ## VALIDATE (R98) -/

/-- An ECB command whose checks pass performs its setup. -/
theorem exec_ecb_passes_validate {i : Instr} {s : State} (hi : i = .ecbEnc ∨ i = .ecbDec) (hf : s.fsm = .validate)
    (hop : operandsValid i s) : exec i s = .next (ecbSetup s) := by
  obtain ⟨hn, hkey, h16⟩ := (operandsValid_ecb hi s).1 hop
  rw [exec_ecb_at_validate hi hf, validateThen_of_none ((ecbChecks_pass_iff s).2 ⟨hkey, hn, h16⟩)]

/-- The setup of an ECB command without input completes at once. -/
theorem ecbSetup_of_empty {s : State} (h : inCount s = 0) : ecbSetup s = finish 0 { s with nb := 0, len := 0 } := by
  simp only [ecbSetup, h]
  rfl

/-- NB and L hold the numbers of input blocks and bytes: the operands VALIDATE accepts leave room for them. -/
theorem toNat_enterLoop_ecb {i : Instr} {s : State} (hi : i = .ecbEnc ∨ i = .ecbDec) (hp : s.params.wf = true)
    (hop : operandsValid i s) (riv : Block) :
    (enterLoop (inCount s / 16) riv s).nb.toNat = inCount s / 16 ∧
      (enterLoop (inCount s / 16) riv s).len.toNat = inCount s := by
  obtain ⟨-, -, h16⟩ := (operandsValid_ecb hi s).1 hop
  obtain ⟨hnb, hlen⟩ := toNat_blockCount hp hop
  rw [blockCount_ecb hi] at hnb hlen
  exact ⟨hnb, hlen.trans (by omega)⟩

/-- Settles O14: the checks pass, so the step is the setup, which enters the block loop or completes. -/
theorem ecbSetups : Obligations.EcbSetups := by
  intro s i hi hf hp hkey hn h16
  have hop : operandsValid i s := (operandsValid_ecb hi s).2 ⟨hn, hkey, h16⟩
  have hstep := exec_ecb_passes_validate hi hf hop
  refine ⟨fun h0 => ?_, fun h0 hd => ?_⟩
  · rw [ecbSetup_eq_enterLoop h16 (by omega)] at hstep
    exact ⟨_, hstep, rfl, toNat_enterLoop_ecb hi hp hop s.riv⟩
  · rw [ecbSetup_of_empty h0] at hstep
    refine ⟨_, hstep, finish_of_ecb (s := { s with nb := 0, len := 0 }) hi hd 0, fun j => ?_, fun a ha => ?_⟩
    · rw [outByte_finish, if_pos (Nat.zero_le j)]
    · exact (readByte_eraseOutFrom s.params 0 s.mem a).trans (if_neg ha)

/-! ## LOAD (R99) -/

theorem exec_ecb_requests {i : Instr} {s : State} (hi : i = .ecbEnc ∨ i = .ecbDec) (hf : s.fsm = .load)
    (hp : portFree s = true) :
    exec i s = .next (issueRequest (requestDir i) (inBlock s s.blkIdx.toNat) s) :=
  (exec_ecb_at_load hi hf).trans (congrArg _ (if_pos hp))

theorem requestDir_ecb {i : Instr} (hi : i = .ecbEnc ∨ i = .ecbDec) :
    requestDir i = if i = .ecbDec then .decrypt else .encrypt := by
  obtain rfl | rfl := hi <;> rfl

/-- Settles O15: the port is free, so the step issues the request for the input block. -/
theorem ecbLoadStep : Obligations.EcbLoadStep := by
  intro s i hi hf hreq hrsp
  have hfree : portFree s = true := by simp [portFree, hreq, hrsp]
  refine ⟨_, exec_ecb_requests hi hf hfree, ?_, fun j hj => blockByte_inBlock s _ hj⟩
  rw [requestDir_ecb hi]
  rfl

/-! ## WAIT (R100) -/

/-- What WAIT makes of a good response: the block of OUT at `16k` is the cipher's answer, and the block is counted. -/
def ecbStored (s : State) : State :=
  { dropResponse s with
    mem := storeOut s.params (16 * s.blkIdx.toNat) (blockBytes s.port.rspData) s.mem, blkIdx := s.blkIdx + 1 }

theorem exec_ecb_rejected {i : Instr} {s : State} (hi : i = .ecbEnc ∨ i = .ecbDec) (hf : s.fsm = .wait)
    (hrsp : s.port.rspValid = true) (hfail : s.port.rspFail = true) :
    exec i s = .next (raiseError .primitiveFailure .primFail s) := by
  rw [exec_ecb_at_wait hi hf, ecbWait_eq_cbcWait, cbcWait_of_rejected hrsp hfail]

theorem exec_ecb_next_block {i : Instr} {s : State} (hi : i = .ecbEnc ∨ i = .ecbDec) (hf : s.fsm = .wait)
    (hrsp : s.port.rspValid = true) (hok : s.port.rspFail = false) (hmore : s.blkIdx.toNat + 1 < s.nb.toNat) :
    exec i s = .next { ecbStored s with fsm := .load } := by
  rw [exec_ecb_at_wait hi hf, ecbWait_eq_cbcWait, cbcWait_of_more hrsp hok hmore]
  rfl

theorem exec_ecb_last_block {i : Instr} {s : State} (hi : i = .ecbEnc ∨ i = .ecbDec) (hf : s.fsm = .wait)
    (hrsp : s.port.rspValid = true) (hok : s.port.rspFail = false) (hlast : s.nb.toNat ≤ s.blkIdx.toNat + 1) :
    exec i s = .next (finish s.len.toNat (ecbStored s)) := by
  rw [exec_ecb_at_wait hi hf, ecbWait, if_pos hrsp]
  exact congrArg _ ((if_neg (by simp [hok])).trans (if_neg (by omega)))

theorem outReached_ecbStored (s : State) : OutReached s.params s.mem (ecbStored s).mem := OutReached.start.store _ _

/-- OUT after the store of a block (R56, R100). -/
theorem outByte_storeOut_block {s : State} (hm : Memory.wf s.mem) (off : Nat) (b : Block) (a : Nat) :
    outByte { s with mem := storeOut s.params off (blockBytes b) s.mem } a =
      if off ≤ a ∧ a < off + 16 ∧ a < s.params.outBytes then blockByte b (a - off) else outByte s a := by
  rw [outByte_storeOut hm, length_blockBytes]
  split
  · exact getD_blockBytes b (by omega) 0
  · rfl

theorem outByte_ecbStored {s : State} (hm : Memory.wf s.mem) (a : Nat) :
    outByte (ecbStored s) a =
      if 16 * s.blkIdx.toNat ≤ a ∧ a < 16 * s.blkIdx.toNat + 16 ∧ a < s.params.outBytes
      then blockByte s.port.rspData (a - 16 * s.blkIdx.toNat) else outByte s a :=
  outByte_storeOut_block hm _ _ a

/-- Settles O16: the three clauses are the three ways WAIT goes with a response. -/
theorem ecbWaitStep : Obligations.EcbWaitStep := by
  intro s i hi hf hm
  refine ⟨exec_ecb_rejected hi hf, fun hrsp hok hmore => ?_, fun hrsp hok hlast hd => ?_⟩
  · exact ⟨_, exec_ecb_next_block hi hf hrsp hok hmore, rfl, outByte_ecbStored hm,
      fun _ ha => (outReached_ecbStored s).readByte_eq hm ha⟩
  · refine ⟨_, exec_ecb_last_block hi hf hrsp hok hlast, ?_, fun a => ?_,
      fun _ ha => ((outReached_ecbStored s).erase s.len.toNat).readByte_eq hm ha⟩
    · rw [finish_of_ecb (s := ecbStored s) hi hd, BitVec.ofNat_toNat, BitVec.setWidth_eq]
      rfl
    · rw [outByte_finish, outByte_ecbStored hm]

end Sys2Proof.Machine
end

section
/-! PROOFS. ECB_ENC and ECB_DEC whole (42_ecb.md R95 to R97, 70_reset_and_hazards.md R138). The block loop of `AtBlock`
with what it computes: before block `k`, OUT holds the first `k` blocks of the result. -/

namespace Sys2Proof.Machine

/-! ## The input and the key in the block loop -/

/-- No byte of IN is a byte of OUT: a legal capacity ends IN below OUT (R46). -/
theorem OutReached.inByte_eq {s t : State} (h : OutReached s.params s.mem t.mem) (hparams : t.params = s.params)
    (hp : s.params.wf = true) (hm : Memory.wf s.mem) (j : Nat) : inByte t j = inByte s j := by
  have hcap := params_bounds hp
  refine inByte_congr hparams (fun i hi => h.readByte_eq hm ?_) j
  unfold Config.inBase Config.outBase
  omega

theorem InLoop.inBlock_eq {i : Instr} {s t : State} {k : Nat} (h : InLoop i s k t) (hready : ReadyToRun i s) (j : Nat) :
    inBlock t j = inBlock s j :=
  blockOfFn_congr fun _ _ => h.mem.inByte_eq h.params hready.params_legal hready.memory_wf _

theorem InLoop.key {i : Instr} {s t : State} {k : Nat} (h : InLoop i s k t) : t.key = s.key :=
  (congrArg State.key h.view :)

theorem InLoop.memory_wf {i : Instr} {s t : State} {k : Nat} (h : InLoop i s k t) (hready : ReadyToRun i s) :
    Memory.wf t.mem := h.mem.wf hready.memory_wf

/-- A whole block of the input is that block of the input sequence. -/
theorem inBlock_eq_blockAt {s : State} {n k : Nat} (h : k < n / 16) : inBlock s k = blockAt (inSeq s n) k :=
  block_ext fun j hj => by rw [blockByte_inBlock s k hj, blockByte_blockAt _ _ hj, getD_inSeq, if_pos (by omega)]

/-! ## OUT block by block -/

theorem outSeq_add (s : State) (m n : Nat) :
    outSeq s (m + n) = outSeq s m ++ (List.range n).map fun j => outByte s (m + j) := by
  simp only [outSeq, List.range_add, List.map_append, List.map_map]
  rfl

/-- The store of block `k` appends it to the blocks before it. -/
theorem outSeq_storeOut_block {s : State} (hm : Memory.wf s.mem) {k : Nat} (hk : 16 * (k + 1) ≤ s.params.outBytes)
    (b : Block) :
    outSeq { s with mem := storeOut s.params (16 * k) (blockBytes b) s.mem } (16 * (k + 1)) =
      outSeq s (16 * k) ++ blockBytes b := by
  rw [Nat.mul_succ, outSeq_add]
  congr 1
  · refine List.map_congr_left fun a ha => ?_
    have ha := List.mem_range.1 ha
    rw [outByte_storeOut_block hm, if_neg (by omega)]
  · refine List.map_congr_left fun j hj => ?_
    have hj := List.mem_range.1 hj
    rw [outByte_storeOut_block hm, if_pos (by omega), Nat.add_sub_cancel_left]

/-- The success procedure with length `l` leaves the first `l` bytes of OUT as the result (R116). -/
theorem outHolds_finish {s : State} {l : Nat} (hl : l < 2 ^ 32) : outHolds (finish l s) (outSeq s l) := by
  refine ⟨?_, fun a => ?_⟩
  · rw [finish_outLen, BitVec.toNat_ofNat, Nat.mod_eq_of_lt hl, length_outSeq]
  · rw [outByte_finish, getD_outSeq]
    split_ifs <;> first | rfl | omega

/-! ## The result -/

/-- Block `k` of the result of the ECB command `i` accepted in `s`: what the cipher answers to the request of its input
block (R99, R100). -/
def ecbOutBlock (i : Instr) (s : State) (k : Nat) : Block :=
  cipherResult Config.cipherPerm (issueRequest (requestDir i) (blockAt (inSeq s (inCount s)) k) s).port

theorem concatBlocks_ecbOutBlock_enc (s : State) :
    concatBlocks (ecbOutBlock .ecbEnc s) (inCount s / 16) = ecbEnc Config.cipherPerm s.key (inSeq s (inCount s)) := by
  rw [ecbEnc_eq_concatBlocks, length_inSeq]
  rfl

theorem concatBlocks_ecbOutBlock_dec (s : State) :
    concatBlocks (ecbOutBlock .ecbDec s) (inCount s / 16) = ecbDec Config.cipherPerm s.key (inSeq s (inCount s)) := by
  rw [ecbDec_eq_concatBlocks, length_inSeq]
  rfl

/-- The answer to the request for block `k` made in the loop. -/
theorem InLoop.cipherResult_eq {i : Instr} {s t : State} {k : Nat} (h : InLoop i s k t) (hready : ReadyToRun i s)
    (hk : k < inCount s / 16) :
    cipherResult Config.cipherPerm (issueRequest (requestDir i) (inBlock t t.blkIdx.toNat) t).port =
      ecbOutBlock i s k := by
  rw [h.blkIdx, h.inBlock_eq hready, inBlock_eq_blockAt hk]
  simp only [ecbOutBlock, cipherResult, issueRequest_port, h.key]

/-! ## The block loop -/

/-- In the loop of an ECB command at block `k`: L is the input's length and OUT begins with the first `k` blocks of the
result. -/
structure EcbProgress (i : Instr) (s : State) (k : Nat) (t : State) : Prop where
  len : t.len.toNat = inCount s
  out : outSeq t (16 * k) = concatBlocks (ecbOutBlock i s) k

theorem isCipherCommand_of_ecb {i : Instr} (hi : i = .ecbEnc ∨ i = .ecbDec) : IsCipherCommand i :=
  hi.imp_right .inl

/-- A step has one next state: what the general loop says of it and what ECB says of it is about the same state. -/
theorem next_unique {o : Host.Outcome State Fault Refusal} {t u : State} (ht : o = .next t) (hu : o = .next u) :
    t = u := Host.Outcome.next.inj (ht.symm.trans hu)

/-- VALIDATE of an ECB command enters the loop with an empty result (R98). -/
theorem ecb_step_to_atBlock {i : Instr} {s : State} {rest : List Event} (hi : i = .ecbEnc ∨ i = .ecbDec)
    (hready : ReadyToRun i s) (hpos : 0 < inCount s / 16) (ha : s.agenda = .controller :: rest) :
    ∃ t, step s = .next t ∧ t.agenda = rest ∧ AtBlock i s 0 t ∧ EcbProgress i s 0 t := by
  obtain ⟨hf, hd, hop⟩ := hready.accepted
  obtain ⟨-, -, h16⟩ := (operandsValid_ecb hi s).1 hop
  obtain ⟨t, ht, hat, hblock⟩ :=
    step_to_atBlock (isCipherCommand_of_ecb hi) hready (by rw [blockCount_ecb hi]; exact hpos) ha
  have hstep : step s = .next (enterLoop (inCount s / 16) s.riv { s with agenda := rest }) := by
    rw [step_controller_at_validate ha hf hd, exec_ecb_passes_validate (s := { s with agenda := rest }) hi hf hop]
    exact congrArg _ (ecbSetup_eq_enterLoop (s := { s with agenda := rest }) h16 hpos)
  obtain rfl := next_unique hstep ht
  exact ⟨_, ht, hat, hblock, (toNat_enterLoop_ecb hi hready.params_legal hop s.riv).2, rfl⟩

/-- LOAD and the cipher's answer: the response is the next block of the result (R88, R99). -/
theorem ecb_run_to_answered {i : Instr} {s t : State} {k : Nat} {rest : List Event} (hi : i = .ecbEnc ∨ i = .ecbDec)
    (hready : ReadyToRun i s) (hk : k < inCount s / 16) (h : AtBlock i s k t) (hprog : EcbProgress i s k t)
    (ha : t.agenda = .controller :: .cipher .ok :: rest) :
    ∃ u, run 2 t = .next u ∧ u.agenda = rest ∧ Answered i s k .ok u ∧ EcbProgress i s k u ∧
      u.port.rspData = ecbOutBlock i s k := by
  obtain ⟨u, hu, hau, hreq⟩ := h.step_to_requested (isCipherCommand_of_ecb hi) hready ha
  obtain ⟨v, hv, hav, hans⟩ := hreq.step_to_answered hau
  have hload := (h.step_controller hready (.inl h.fsm) ha).trans
    (exec_ecb_requests (s := { t with agenda := .cipher .ok :: rest }) hi h.fsm h.port_free)
  obtain rfl := next_unique hload hu
  have hanswer := (step_cons hau).trans (congrArg Host.Outcome.next (cipherStep_ok Config.cipherPerm hreq.enabled))
  obtain rfl := next_unique hanswer hv
  exact ⟨_, by rw [run_succ_next hu, run_succ_next hv, run_zero], hav, hans, ⟨hprog.len, hprog.out⟩,
    (h.toInLoop.cipherResult_eq hready hk :)⟩

/-- The store of WAIT makes the result one block longer. -/
theorem ecbProgress_ecbStored {i : Instr} {s t : State} {k : Nat} (hi : i = .ecbEnc ∨ i = .ecbDec)
    (hready : ReadyToRun i s) (hk : k < inCount s / 16) (h : InLoop i s k t) (hprog : EcbProgress i s k t)
    (hdata : t.port.rspData = ecbOutBlock i s k) : EcbProgress i s (k + 1) (ecbStored t) := by
  obtain ⟨-, -, hop⟩ := hready.accepted
  obtain ⟨hn, -, -⟩ := (operandsValid_ecb hi s).1 hop
  have hroom : 16 * (k + 1) ≤ t.params.outBytes := by rw [h.params, Params.outBytes]; omega
  refine ⟨hprog.len, ?_⟩
  calc
    outSeq (ecbStored t) (16 * (k + 1)) = outSeq t (16 * k) ++ blockBytes t.port.rspData := by
      rw [← outSeq_storeOut_block (h.memory_wf hready) hroom, ← h.blkIdx]
      rfl
    _ = concatBlocks (ecbOutBlock i s) (k + 1) := by rw [hprog.out, hdata, concatBlocks_succ]

/-- One round of the loop before the last block. -/
theorem ecb_run_to_next_block {i : Instr} {s t : State} {k : Nat} {rest : List Event} (hi : i = .ecbEnc ∨ i = .ecbDec)
    (hready : ReadyToRun i s) (hk : k + 1 < inCount s / 16) (h : AtBlock i s k t) (hprog : EcbProgress i s k t)
    (ha : t.agenda = blockTurns ++ rest) :
    ∃ u, run 3 t = .next u ∧ u.agenda = rest ∧ AtBlock i s (k + 1) u ∧ EcbProgress i s (k + 1) u := by
  have hmore : k + 1 < blockCount i (inCount s) := by rw [blockCount_ecb hi]; exact hk
  obtain ⟨u, hu, hau, hans, hprog, hdata⟩ := ecb_run_to_answered hi hready (by omega) h hprog ha
  obtain ⟨v, hv, hav, hblock⟩ := hans.step_to_atBlock (isCipherCommand_of_ecb hi) hready hmore hau
  have hwait := (hans.step_controller hready (.inr hans.fsm) hau).trans
    (exec_ecb_next_block (s := { u with agenda := rest }) hi hans.fsm hans.response hans.rspFail
      (by rw [hans.blkIdx, hans.nb]; exact hmore))
  obtain rfl := next_unique hwait hv
  have hnext := ecbProgress_ecbStored hi hready (by omega) hans.toInLoop hprog hdata
  exact ⟨_, by rw [run_add 1 hu, run_succ_next hv, run_zero], hav, hblock, hnext.len, hnext.out⟩

/-- After VALIDATE and `k` blocks OUT holds the first `k` blocks of the result. -/
theorem ecb_run_to_atBlock {i : Instr} {s : State} {k : Nat} {rest : List Event} (hi : i = .ecbEnc ∨ i = .ecbDec)
    (hready : ReadyToRun i s) (hk : k < inCount s / 16) (ha : s.agenda = .controller :: (blocksTurns k ++ rest)) :
    ∃ t, run (1 + 3 * k) s = .next t ∧ t.agenda = rest ∧ AtBlock i s k t ∧ EcbProgress i s k t := by
  induction k generalizing rest with
  | zero =>
    obtain ⟨t, ht, hat⟩ := ecb_step_to_atBlock hi hready hk ha
    exact ⟨t, run_succ_next ht, hat⟩
  | succ k ih =>
    rw [blocksTurns_succ, List.append_assoc] at ha
    obtain ⟨t, ht, hat, hblock, hprog⟩ := ih (by omega) ha
    obtain ⟨u, hu, hau⟩ := ecb_run_to_next_block hi hready hk hblock hprog hat
    exact ⟨u, by rw [show 1 + 3 * (k + 1) = 1 + 3 * k + 3 by omega, run_add 3 ht, hu], hau⟩

/-! ## The end of the command -/

/-- `t` is the end of the ECB command `i` accepted in `s`, with the result in OUT and the turns `rest` to come. -/
structure EcbCompleted (i : Instr) (s : State) (rest : List Event) (t : State) : Prop where
  frame : t = { s with
    mem := t.mem, nb := t.nb, len := t.len, blkIdx := t.blkIdx, port := t.port, outLen := t.outLen, key := 0,
    keyLd := 0, riv := 0, blk := 0, busy := false, done := true, fsm := .idle, agenda := rest }
  result : outHolds t (concatBlocks (ecbOutBlock i s) (inCount s / 16))
  blkIdx : t.blkIdx.toNat = inCount s / 16
  port_free : portFree t = true
  memory : onlyOutChanged s t

/-- A success in the block loop, as a change of the state `s` the command was accepted in. -/
theorem finish_of_loopView {i : Instr} {s t : State} (hi : i = .ecbEnc ∨ i = .ecbDec) (hd : decode s.cmd = .command i)
    (h : loopView t = loopView s) (l : Nat) :
    finish l t = { s with
      mem := (finish l t).mem, nb := t.nb, len := t.len, blkIdx := t.blkIdx, port := t.port,
      outLen := BitVec.ofNat 32 l, key := 0, keyLd := 0, riv := 0, blk := 0, busy := false, done := true, fsm := .idle,
      agenda := t.agenda } := by
  have hcmd : t.cmd = s.cmd := (congrArg State.cmd h :)
  exact (finish_of_ecb hi (hcmd ▸ hd) l).trans (congrArg (fun v : State => { v with
    mem := (finish l t).mem, outLen := BitVec.ofNat 32 l, key := 0, keyLd := 0, riv := 0, blk := 0, busy := false,
    done := true, fsm := .idle }) (eq_of_loopView h))

/-- The success procedure after the whole result is stored. -/
theorem ecbCompleted_finish {i : Instr} {s t : State} {rest : List Event} (hi : i = .ecbEnc ∨ i = .ecbDec)
    (hready : ReadyToRun i s) (hview : loopView t = loopView s) (ha : t.agenda = rest)
    (hprog : EcbProgress i s (inCount s / 16) t) (hblk : t.blkIdx.toNat = inCount s / 16) (hport : portFree t = true)
    (hmem : OutReached s.params s.mem t.mem) : EcbCompleted i s rest (finish (inCount s) t) := by
  obtain ⟨-, hd, hop⟩ := hready.accepted
  obtain ⟨-, -, h16⟩ := (operandsValid_ecb hi s).1 hop
  have hparams : t.params = s.params := (congrArg State.params hview :)
  refine ⟨?_, ?_, hblk, hport, fun _ h => ?_⟩
  · subst ha
    exact finish_of_loopView hi hd hview _
  · rw [← hprog.out, show 16 * (inCount s / 16) = inCount s by omega]
    exact outHolds_finish s.inLen.isLt
  · rw [finish_mem, hparams]
    exact (hmem.erase (inCount s)).readByte_eq hready.memory_wf h

/-- Without input VALIDATE is the whole command (R98). -/
theorem ecb_run_of_empty {i : Instr} {s : State} {rest : List Event} (hi : i = .ecbEnc ∨ i = .ecbDec)
    (hready : ReadyToRun i s) (h0 : inCount s = 0) (ha : s.agenda = .controller :: rest) :
    ∃ t, run 1 s = .next t ∧ EcbCompleted i s rest t := by
  obtain ⟨hf, hd, hop⟩ := hready.accepted
  have hstep : step s = .next (finish (inCount s) { s with nb := 0, len := 0, agenda := rest }) := by
    rw [step_controller_at_validate ha hf hd, exec_ecb_passes_validate (s := { s with agenda := rest }) hi hf hop,
      ecbSetup_of_empty (s := { s with agenda := rest }) h0, h0]
  refine ⟨_, run_succ_next hstep, ecbCompleted_finish hi hready ?_ rfl ⟨h0.symm, ?_⟩ ?_ hready.port_free .start⟩
  · rfl
  · rw [h0]; rfl
  · rw [h0]
    exact congrArg BitVec.toNat hready.blkIdx_zero

/-- The last round of the loop completes the command (R100). -/
theorem ecb_run_to_completed {i : Instr} {s t : State} {k : Nat} {rest : List Event} (hi : i = .ecbEnc ∨ i = .ecbDec)
    (hready : ReadyToRun i s) (hk : k + 1 = inCount s / 16) (h : AtBlock i s k t) (hprog : EcbProgress i s k t)
    (ha : t.agenda = blockTurns ++ rest) : ∃ u, run 3 t = .next u ∧ EcbCompleted i s rest u := by
  obtain ⟨u, hu, hau, hans, hprog, hdata⟩ := ecb_run_to_answered hi hready (by omega) h hprog ha
  have hstored := ecbProgress_ecbStored hi hready (by omega) hans.toInLoop hprog hdata
  have hwait := (hans.step_controller hready (.inr hans.fsm) hau).trans
    (exec_ecb_last_block (s := { u with agenda := rest }) hi hans.fsm hans.response hans.rspFail
      (by rw [hans.blkIdx, hans.nb, blockCount_ecb hi]; omega))
  have hblk : (u.blkIdx + 1).toNat = inCount s / 16 := by
    have hbound := u.nb.isLt
    have hblk := hans.blkIdx
    rw [hans.nb, blockCount_ecb hi] at hbound
    bv_omega
  rw [hprog.len] at hwait
  rw [hk] at hstored
  exact ⟨_, by rw [run_add 1 hu, run_succ_next hwait, run_zero],
    ecbCompleted_finish (t := ecbStored { u with agenda := rest }) hi hready hans.view rfl ⟨hstored.len, hstored.out⟩
      hblk (by simp [portFree, ecbStored, hans.no_request]) (hans.params ▸ hans.mem.store _ _)⟩

/-- The turns of an ECB command: VALIDATE, then those of each block. -/
theorem commandTurns_ecb {i : Instr} (hi : i = .ecbEnc ∨ i = .ecbDec) (n : Nat) :
    commandTurns i n = .controller :: blocksTurns (n / 16) := by
  obtain rfl | rfl := hi <;> rfl

/-- An ECB command on valid operands, the cipher failing no request, runs to its end. -/
theorem ecb_run_to_end {i : Instr} {s : State} {rest : List Event} (hi : i = .ecbEnc ∨ i = .ecbDec)
    (hready : ReadyToRun i s) (ha : s.agenda = commandTurns i (inCount s) ++ rest) :
    ∃ t, run (commandTurns i (inCount s)).length s = .next t ∧ EcbCompleted i s rest t := by
  obtain ⟨-, -, hop⟩ := hready.accepted
  obtain ⟨-, -, h16⟩ := (operandsValid_ecb hi s).1 hop
  rw [commandTurns_ecb hi] at ha ⊢
  rw [List.length_cons, length_blocksTurns]
  cases hn : inCount s / 16 with
  | zero =>
    rw [hn] at ha
    exact ecb_run_of_empty hi hready (by omega) ha
  | succ k =>
    rw [hn, blocksTurns_succ, List.cons_append, List.append_assoc] at ha
    obtain ⟨t, ht, hat, hblock, hprog⟩ := ecb_run_to_atBlock hi hready (by omega) ha
    obtain ⟨u, hu, hend⟩ := ecb_run_to_completed hi hready hn.symm hblock hprog hat
    exact ⟨u, by rw [show 3 * (k + 1) + 1 = 1 + 3 * k + 3 by omega, run_add 3 ht, hu], hend⟩

/-- Settles O17: the loop stores the result block by block, and its last round completes the command. -/
theorem ecbCommandResult : Obligations.EcbCommandResult := by
  intro s i rest hi hready ha
  obtain ⟨t, ht, hend⟩ := ecb_run_to_end hi hready ha
  refine ⟨t, ht, hend.frame, ?_, ?_, hend.blkIdx, hend.port_free, hend.memory⟩
  · rintro rfl
    exact concatBlocks_ecbOutBlock_enc s ▸ hend.result
  · rintro rfl
    exact concatBlocks_ecbOutBlock_dec s ▸ hend.result

end Sys2Proof.Machine
end

section
/-! PROOFS. CBC as a function of byte sequences (43_cbc.md R102, R103, R112): the blocks the loop of `cbc_enc` appends
are its running IVs, and the loop of `cbc_dec` over them finds each running IV again and gives the padded blocks back. -/

namespace Sys2Proof.Machine

/-! ## The padded input by blocks (R102, R108) -/

theorem length_pad_blockSize (d : List Byte) : (pad 16 d).length = 16 * (d.length / 16 + 1) := by
  rw [length_pad, padCount]
  omega

/-- Settles O24: each byte is an input byte below `n` and a padding byte from there on. -/
theorem padBlockIsBlockOfPaddedInput : Obligations.PadBlockIsBlockOfPaddedInput := by
  intro s k hk
  refine block_ext fun j hj => ?_
  have hin : 16 * k + j < inCount s + padCount 16 (inCount s) := by
    unfold padCount
    omega
  rw [blockByte_padBlock s k hj, blockByte_blockAt _ _ hj, pad, length_inSeq, getD_inSeq_append_replicate, if_pos hin]

/-! ## The loops (R102, R103) -/

theorem cbcEncLoop_succ (c : Block → Equiv.Perm Block) (k iv : Block) (b : List Byte) (n : Nat) :
    cbcEncLoop c k iv b (n + 1) =
      ((cbcEncLoop c k iv b n).1 ++ blockBytes (enc c k (blockAt b n ^^^ (cbcEncLoop c k iv b n).2)),
        enc c k (blockAt b n ^^^ (cbcEncLoop c k iv b n).2)) := rfl

theorem cbcDecLoop_succ (c : Block → Equiv.Perm Block) (k iv : Block) (d : List Byte) (n : Nat) :
    cbcDecLoop c k iv d (n + 1) =
      ((cbcDecLoop c k iv d n).1 ++ blockBytes (dec c k (blockAt d n) ^^^ (cbcDecLoop c k iv d n).2),
        blockAt d n) := rfl

/-- What the loop of `cbc_enc` has appended is the sequence of its running IVs after the first. -/
theorem cbcEncLoop_eq_concatBlocks (c : Block → Equiv.Perm Block) (k iv : Block) (b : List Byte) (n : Nat) :
    (cbcEncLoop c k iv b n).1 = concatBlocks (fun i => (cbcEncLoop c k iv b (i + 1)).2) n := by
  induction n with
  | zero => rfl
  | succ n ih => rw [concatBlocks_succ, ← ih, cbcEncLoop_succ]

@[simp] theorem length_cbcEncLoop (c : Block → Equiv.Perm Block) (k iv : Block) (b : List Byte) (n : Nat) :
    (cbcEncLoop c k iv b n).1.length = 16 * n := by
  rw [cbcEncLoop_eq_concatBlocks, length_concatBlocks]

/-- Ciphertext block `i` is the running IV after iteration `i`. -/
theorem blockAt_cbcEncLoop (c : Block → Equiv.Perm Block) (k iv : Block) (b : List Byte) {i n : Nat} (hi : i < n) :
    blockAt (cbcEncLoop c k iv b n).1 i = (cbcEncLoop c k iv b (i + 1)).2 := by
  rw [cbcEncLoop_eq_concatBlocks, blockAt_concatBlocks _ hi]

/-- One iteration of the two loops in sequence: decryption takes off what encryption put on. -/
theorem dec_enc_xor (c : Block → Equiv.Perm Block) (k x r : Block) : dec c k (enc c k (x ^^^ r)) ^^^ r = x := by
  rw [dec, enc, Equiv.symm_apply_apply, BitVec.xor_assoc, BitVec.xor_self, BitVec.xor_zero]

/-- Over the ciphertext the loop of `cbc_dec` has, after each iteration, the plaintext blocks and the running IV of the
loop of `cbc_enc`. -/
theorem cbcDecLoop_cbcEncLoop (c : Block → Equiv.Perm Block) (k iv : Block) (b : List Byte) {m n : Nat} (hn : n ≤ m) :
    cbcDecLoop c k iv (cbcEncLoop c k iv b m).1 n = (concatBlocks (blockAt b) n, (cbcEncLoop c k iv b n).2) := by
  induction n with
  | zero => rfl
  | succ n ih =>
    rw [cbcDecLoop_succ, ih (by omega), blockAt_cbcEncLoop c k iv b (by omega), cbcEncLoop_succ, dec_enc_xor,
      concatBlocks_succ]

/-! ## `cbc_enc` and `cbc_dec` (R102, R103, R112) -/

theorem cbcEnc_eq_loop (c : Block → Equiv.Perm Block) (k iv : Block) (p : List Byte) :
    cbcEnc c k iv p = (cbcEncLoop c k iv (pad 16 p) (p.length / 16 + 1)).1 := by
  rw [cbcEnc, blockSize_eq, length_pad_blockSize, Nat.mul_div_cancel_left _ (by decide)]

theorem length_cbcEnc (c : Block → Equiv.Perm Block) (k iv : Block) (p : List Byte) :
    (cbcEnc c k iv p).length = 16 * (p.length / 16 + 1) := by
  rw [cbcEnc_eq_loop, length_cbcEncLoop]

theorem cbcDec_cbcEnc (c : Block → Equiv.Perm Block) (k iv : Block) (p : List Byte) :
    cbcDec c k iv (cbcEnc c k iv p) = .bytes p := by
  rw [cbcDec, blockSize_eq, length_cbcEnc, Nat.mul_div_cancel_left _ (by decide), cbcEnc_eq_loop,
    cbcDecLoop_cbcEncLoop c k iv _ le_rfl, concatBlocks_blockAt (length_pad_blockSize p)]
  exact unpad_pad p (by decide) (by decide)

/-- Equal blocks under different running IVs give different running IVs: the cipher is injective. -/
theorem cbcEncLoop_snd_succ_ne (c : Block → Equiv.Perm Block) (k iv : Block) {b : List Byte} {i j : Nat}
    (hb : blockAt b i = blockAt b j) (hr : (cbcEncLoop c k iv b i).2 ≠ (cbcEncLoop c k iv b j).2) :
    (cbcEncLoop c k iv b (i + 1)).2 ≠ (cbcEncLoop c k iv b (j + 1)).2 := by
  intro h
  rw [cbcEncLoop_succ, cbcEncLoop_succ, hb] at h
  exact hr (BitVec.xor_right_inj _ |>.1 ((c k).injective h))

/-- Settles O29: the loops are inverse iteration by iteration, and ciphertext blocks are running IVs. -/
theorem cbcLaws : Obligations.CbcLaws := by
  intro c k iv
  refine ⟨fun p => ⟨length_cbcEnc c k iv p, cbcDec_cbcEnc c k iv p⟩, fun b i j hb hr => ?_⟩
  have hdiff := cbcEncLoop_snd_succ_ne c k iv hb hr
  refine ⟨hdiff, ?_⟩
  rw [blockAt_cbcEncLoop c k iv b i.lt_succ_self, blockAt_cbcEncLoop c k iv b j.lt_succ_self]
  exact hdiff

end Sys2Proof.Machine
end

section
/-! PROOFS. The controller steps of CBC_ENC and CBC_DEC (43_cbc.md R106 to R110). The two commands differ in four things
alone: the cipher input, the output block, the next running IV and what follows the last block. With these named, LOAD
and WAIT are one step. -/

namespace Sys2Proof.Machine

/-! ## VALIDATE (R106) -/

theorem exec_cbc_enters_loop {i : Instr} {s : State} (hi : i = .cbcEnc ∨ i = .cbcDec) (hf : s.fsm = .validate)
    (hop : operandsValid i s) : exec i s = .next (enterLoop (blockCount i (inCount s)) s.iv s) := by
  obtain rfl | rfl := hi
  · exact exec_cbcEnc_enters_loop hf hop
  · exact exec_cbcDec_enters_loop hf hop

/-- Settles O19: the checks pass, so the step enters the block loop with R = IV. -/
theorem cbcSetups : Obligations.CbcSetups := by
  intro s hf hp hkey hiv hn
  refine ⟨?_, fun h16 h0 => ?_⟩
  · have hop : operandsValid .cbcEnc s := ⟨hn, hkey, hiv⟩
    exact ⟨_, exec_cbc_enters_loop (.inl rfl) hf hop, rfl, toNat_blockCount hp hop⟩
  · have hop : operandsValid .cbcDec s := ⟨hn, hkey, hiv, h16, h0⟩
    exact ⟨_, exec_cbc_enters_loop (.inr rfl) hf hop, rfl, toNat_blockCount hp hop⟩

/-! ## LOAD (R107) -/

/-- What LOAD sends to the cipher (R107). -/
def cbcInput (i : Instr) (s : State) : Block :=
  if i = .cbcDec then inBlock s s.blkIdx.toNat else padBlock s s.blkIdx.toNat ^^^ s.riv

@[simp] theorem cbcInput_enc (s : State) : cbcInput .cbcEnc s = padBlock s s.blkIdx.toNat ^^^ s.riv := rfl
@[simp] theorem cbcInput_dec (s : State) : cbcInput .cbcDec s = inBlock s s.blkIdx.toNat := rfl

theorem exec_cbc_requests {i : Instr} {s : State} (hi : i = .cbcEnc ∨ i = .cbcDec) (hf : s.fsm = .load)
    (hp : portFree s = true) : exec i s = .next (issueRequest (requestDir i) (cbcInput i s) s) := by
  obtain rfl | rfl := hi
  · exact (exec_cbcEnc_at_load hf).trans (congrArg _ (if_pos hp))
  · exact (exec_cbcDec_at_load hf).trans (congrArg _ (if_pos hp))

theorem requestDir_cbc {i : Instr} (hi : i = .cbcEnc ∨ i = .cbcDec) :
    requestDir i = if i = .cbcDec then .decrypt else .encrypt := by
  obtain rfl | rfl := hi <;> rfl

theorem blockByte_cbcInput_enc (s : State) {j : Nat} (hj : j < 16) :
    blockByte (cbcInput .cbcEnc s) j =
      (if 16 * s.blkIdx.toNat + j < inCount s then inByte s (16 * s.blkIdx.toNat + j)
        else BitVec.ofNat 8 (16 - inCount s % 16)) ^^^ blockByte s.riv j := by
  rw [cbcInput_enc, blockByte_xor, blockByte_padBlock s _ hj, padCount]

/-- Settles O20: the port is free, so the step issues the request for the cipher input. -/
theorem cbcLoadStep : Obligations.CbcLoadStep := by
  intro s i hi hf hreq hrsp
  have hfree : portFree s = true := by simp [portFree, hreq, hrsp]
  refine ⟨_, exec_cbc_requests hi hf hfree, ?_, ?_, ?_⟩
  · rw [requestDir_cbc hi]
    rfl
  · rintro rfl j hj
    exact blockByte_cbcInput_enc s hj
  · rintro rfl j hj
    exact blockByte_inBlock s _ hj

/-! ## WAIT (R109) -/

/-- The block WAIT stores in OUT (R109). -/
def cbcOutput (i : Instr) (s : State) : Block := if i = .cbcDec then s.port.rspData ^^^ s.riv else s.port.rspData

/-- The running IV WAIT latches (R109). -/
def cbcNextRiv (i : Instr) (s : State) : Block := if i = .cbcDec then inBlock s s.blkIdx.toNat else s.port.rspData

/-- What follows the last block (R109). -/
def cbcLast (i : Instr) (s : State) : State := if i = .cbcDec then { s with fsm := .check } else finish s.len.toNat s

@[simp] theorem cbcOutput_enc (s : State) : cbcOutput .cbcEnc s = s.port.rspData := rfl
@[simp] theorem cbcOutput_dec (s : State) : cbcOutput .cbcDec s = s.port.rspData ^^^ s.riv := rfl
@[simp] theorem cbcNextRiv_enc (s : State) : cbcNextRiv .cbcEnc s = s.port.rspData := rfl
@[simp] theorem cbcNextRiv_dec (s : State) : cbcNextRiv .cbcDec s = inBlock s s.blkIdx.toNat := rfl
@[simp] theorem cbcLast_enc (s : State) : cbcLast .cbcEnc s = finish s.len.toNat s := rfl
@[simp] theorem cbcLast_dec (s : State) : cbcLast .cbcDec s = { s with fsm := .check } := rfl

/-- What WAIT makes of a good response: the output block stands in OUT at `16k`, the next running IV is latched and the
block is counted. -/
def cbcStored (i : Instr) (s : State) : State :=
  { dropResponse s with
    mem := storeOut s.params (16 * s.blkIdx.toNat) (blockBytes (cbcOutput i s)) s.mem, riv := cbcNextRiv i s,
    blkIdx := s.blkIdx + 1 }

theorem exec_cbc_at_wait {i : Instr} {s : State} (hi : i = .cbcEnc ∨ i = .cbcDec) (hf : s.fsm = .wait) :
    exec i s = .next (cbcWait (cbcOutput i s) (cbcNextRiv i s) (cbcLast i) s) := by
  obtain rfl | rfl := hi
  · exact exec_cbcEnc_at_wait hf
  · exact exec_cbcDec_at_wait hf

/-- After the last block the result is stored and counted, and `last` happens. -/
theorem cbcWait_of_last {x r : Block} {last : State → State} {s : State} (hrsp : s.port.rspValid = true)
    (hok : s.port.rspFail = false) (hlast : s.nb.toNat ≤ s.blkIdx.toNat + 1) :
    cbcWait x r last s = last { dropResponse s with
      mem := storeOut s.params (Config.blockSize * s.blkIdx.toNat) (blockBytes x) s.mem, riv := r,
      blkIdx := s.blkIdx + 1 } := by
  rw [cbcWait, if_pos hrsp]
  exact (if_neg (by simp [hok])).trans (if_neg (by omega))

theorem exec_cbc_rejected {i : Instr} {s : State} (hi : i = .cbcEnc ∨ i = .cbcDec) (hf : s.fsm = .wait)
    (hrsp : s.port.rspValid = true) (hfail : s.port.rspFail = true) :
    exec i s = .next (raiseError .primitiveFailure .primFail s) := by
  rw [exec_cbc_at_wait hi hf, cbcWait_of_rejected hrsp hfail]

theorem exec_cbc_next_block {i : Instr} {s : State} (hi : i = .cbcEnc ∨ i = .cbcDec) (hf : s.fsm = .wait)
    (hrsp : s.port.rspValid = true) (hok : s.port.rspFail = false) (hmore : s.blkIdx.toNat + 1 < s.nb.toNat) :
    exec i s = .next { cbcStored i s with fsm := .load } := by
  rw [exec_cbc_at_wait hi hf, cbcWait_of_more hrsp hok hmore]
  rfl

theorem exec_cbc_last_block {i : Instr} {s : State} (hi : i = .cbcEnc ∨ i = .cbcDec) (hf : s.fsm = .wait)
    (hrsp : s.port.rspValid = true) (hok : s.port.rspFail = false) (hlast : s.nb.toNat ≤ s.blkIdx.toNat + 1) :
    exec i s = .next (cbcLast i (cbcStored i s)) := by
  rw [exec_cbc_at_wait hi hf, cbcWait_of_last hrsp hok hlast]
  rfl

theorem outReached_cbcStored (i : Instr) (s : State) : OutReached s.params s.mem (cbcStored i s).mem :=
  OutReached.start.store _ _

theorem outByte_cbcStored (i : Instr) {s : State} (hm : Memory.wf s.mem) (a : Nat) :
    outByte (cbcStored i s) a =
      if 16 * s.blkIdx.toNat ≤ a ∧ a < 16 * s.blkIdx.toNat + 16 ∧ a < s.params.outBytes
      then blockByte (cbcOutput i s) (a - 16 * s.blkIdx.toNat) else outByte s a :=
  outByte_storeOut_block hm _ _ a

/-- The success of a CBC command consumes key and IV (60_exceptions.md R116, R118). -/
theorem finish_of_cbc {i : Instr} {s : State} (hi : i = .cbcEnc ∨ i = .cbcDec) (hd : decode s.cmd = .command i)
    (l : Nat) :
    finish l s = { s with
      mem := eraseOutFrom s.params l s.mem, outLen := BitVec.ofNat 32 l, key := 0, keyLd := 0, iv := 0, ivLd := 0,
      riv := 0, blk := 0, busy := false, done := true, fsm := .idle } := by
  obtain rfl | rfl := hi <;> simp [finish, complete, clearOperands, hd, consumesKey, consumesIv]

/-- Settles O21: the three clauses are the three ways WAIT goes with a response. -/
theorem cbcEncWaitStep : Obligations.CbcEncWaitStep := by
  intro s hf hm
  refine ⟨exec_cbc_rejected (.inl rfl) hf, fun hrsp hok hmore => ?_, fun hrsp hok hlast hd => ?_⟩
  · exact ⟨_, exec_cbc_next_block (.inl rfl) hf hrsp hok hmore, rfl, outByte_cbcStored .cbcEnc hm,
      fun _ ha => (outReached_cbcStored .cbcEnc s).readByte_eq hm ha⟩
  · refine ⟨finish s.len.toNat (cbcStored .cbcEnc s), exec_cbc_last_block (.inl rfl) hf hrsp hok hlast, ?_,
      fun a => ?_, fun _ ha => ((outReached_cbcStored .cbcEnc s).erase s.len.toNat).readByte_eq hm ha⟩
    · rw [finish_of_cbc (s := cbcStored .cbcEnc s) (.inl rfl) hd, BitVec.ofNat_toNat, BitVec.setWidth_eq]
      rfl
    · rw [outByte_finish, outByte_cbcStored .cbcEnc hm, cbcOutput_enc]

/-- A good response of CBC_DEC is stored; then comes LOAD, or CHECK after the last block. -/
theorem exec_cbcDec_stored {s : State} (hf : s.fsm = .wait) (hrsp : s.port.rspValid = true)
    (hok : s.port.rspFail = false) :
    exec .cbcDec s = .next { cbcStored .cbcDec s with
      fsm := (if s.blkIdx.toNat + 1 < s.nb.toNat then .load else .check) } := by
  by_cases hmore : s.blkIdx.toNat + 1 < s.nb.toNat
  · rw [if_pos hmore]
    exact exec_cbc_next_block (.inr rfl) hf hrsp hok hmore
  · rw [if_neg hmore]
    exact exec_cbc_last_block (.inr rfl) hf hrsp hok (by omega)

/-- Settles O22: the output block is made with the running IV of the state before the step. -/
theorem cbcDecWaitStep : Obligations.CbcDecWaitStep := by
  intro s hf hm
  refine ⟨exec_cbc_rejected (.inr rfl) hf, fun hrsp hok => ?_⟩
  refine ⟨_, exec_cbcDec_stored hf hrsp hok, rfl, fun j hj => blockByte_inBlock s _ hj, fun a => ?_,
    fun _ ha => (outReached_cbcStored .cbcDec s).readByte_eq hm ha⟩
  rw [← blockByte_xor, ← cbcOutput_dec]
  exact outByte_cbcStored .cbcDec hm a

/-! ## CHECK (R110) -/

theorem exec_cbcDec_at_check {s : State} (hf : s.fsm = .check) : exec .cbcDec s = .next (cbcDecCheck s) := by
  simp only [exec, execCbcDec, hf]

theorem cbcDecCheck_of_bad {s : State} {x : ErrDetail} (h : padcheck 16 (outSeq s s.len.toNat) = .bad x) :
    cbcDecCheck s = raiseError .corruptPadding x s := by
  rw [cbcDecCheck, blockSize_eq, h]

theorem cbcDecCheck_of_ok {s : State} {m : Nat} (h : padcheck 16 (outSeq s s.len.toNat) = .ok m) :
    cbcDecCheck s = finish (s.len.toNat - m) s := by
  rw [cbcDecCheck, blockSize_eq, h]

/-- `padcheck` of a sequence of OUT that is not empty, by the value of its last byte. -/
theorem padcheck_outSeq {bs m n : Nat} {s : State} (hn : n ≠ 0) (hm : m = (outByte s (n - 1)).toNat) :
    padcheck bs (outSeq s n) =
      if m = 0 then .bad .padZero else if bs < m then .bad .padGtBs else if n < m then .bad .padGtLen else .ok m := by
  have hlast : m = ((outSeq s n).getD ((outSeq s n).length - 1) 0).toNat := by
    rw [length_outSeq, getD_outSeq, if_pos (by omega), hm]
  rw [padcheck_eq hlast, length_outSeq, if_neg hn]

/-- Settles O23: each clause is one branch of `padcheck` on the last byte of OUT. -/
theorem cbcDecCheckStep : Obligations.CbcDecCheckStep := by
  intro s m hf hm
  have hcheck (hl : s.len.toNat ≠ 0) := padcheck_outSeq (bs := 16) hl hm
  have raises : ∀ {x}, padcheck 16 (outSeq s s.len.toNat) = .bad x →
      exec .cbcDec s = .next (raiseError .corruptPadding x s) :=
    fun h => by rw [exec_cbcDec_at_check hf, cbcDecCheck_of_bad h]
  refine ⟨fun hl => raises ?_, fun hl h0 => raises ?_, fun hl hgt => raises ?_, fun hl h0 h16 hlt => raises ?_,
    fun h0 h16 hle hd => ?_⟩
  · rw [hl]
    rfl
  · rw [hcheck hl, if_pos h0]
  · rw [hcheck hl, if_neg (by omega), if_pos hgt]
  · rw [hcheck hl, if_neg h0, if_neg (by omega), if_pos hlt]
  · have hok : padcheck 16 (outSeq s s.len.toNat) = .ok m := by
      rw [hcheck (by omega), if_neg h0, if_neg (by omega), if_neg (by omega)]
    refine ⟨_, (exec_cbcDec_at_check hf).trans (congrArg _ (cbcDecCheck_of_ok hok)), finish_of_cbc (.inr rfl) hd _, ?_,
      outByte_finish _ s, fun a ha => ?_⟩
    · exact Nat.mod_eq_of_lt ((Nat.sub_le _ m).trans_lt s.len.isLt)
    · rw [finish_mem, readByte_eraseOutFrom, if_neg (by omega)]

end Sys2Proof.Machine
end

section
/-! PROOFS. CBC_ENC and CBC_DEC whole (43_cbc.md R104, R105, R111, 70_reset_and_hazards.md R138). The block loop of
`AtBlock` with what it computes: before block `k`, OUT and RIV hold what the byte-sequence loop of R102 or R103 has
appended and its R after `k` iterations. -/

namespace Sys2Proof.Machine

/-! ## The byte-sequence loop of a command (R102, R103) -/

/-- The loop of the CBC command `i` accepted in `s`, after `k` iterations: what it has appended, and R. -/
def cbcLoop (i : Instr) (s : State) (k : Nat) : List Byte × Block :=
  if i = .cbcDec then cbcDecLoop Config.cipherPerm s.key s.iv (inSeq s (inCount s)) k
  else cbcEncLoop Config.cipherPerm s.key s.iv (pad 16 (inSeq s (inCount s))) k

@[simp] theorem cbcLoop_enc (s : State) (k : Nat) :
    cbcLoop .cbcEnc s k = cbcEncLoop Config.cipherPerm s.key s.iv (pad 16 (inSeq s (inCount s))) k := rfl
@[simp] theorem cbcLoop_dec (s : State) (k : Nat) :
    cbcLoop .cbcDec s k = cbcDecLoop Config.cipherPerm s.key s.iv (inSeq s (inCount s)) k := rfl

theorem cbcLoop_zero (i : Instr) (s : State) : cbcLoop i s 0 = ([], s.iv) := ite_self _

theorem cbcLoop_blockCount_enc (s : State) :
    (cbcLoop .cbcEnc s (blockCount .cbcEnc (inCount s))).1 =
      cbcEnc Config.cipherPerm s.key s.iv (inSeq s (inCount s)) := by
  rw [cbcLoop_enc, cbcEnc_eq_loop, length_inSeq, blockCount]

theorem unpad_cbcLoop_blockCount_dec (s : State) :
    unpad 16 (cbcLoop .cbcDec s (blockCount .cbcDec (inCount s))).1 =
      cbcDec Config.cipherPerm s.key s.iv (inSeq s (inCount s)) := by
  rw [cbcLoop_dec, cbcDec, length_inSeq, blockCount, blockSize_eq]

/-! ## What the block loop leaves as it is -/

theorem isCipherCommand_of_cbc {i : Instr} (hi : i = .cbcEnc ∨ i = .cbcDec) : IsCipherCommand i :=
  .inr (.inr hi)

/-- A CBC command on valid operands has a block. -/
theorem blockCount_cbc_pos {i : Instr} {s : State} (hi : i = .cbcEnc ∨ i = .cbcDec) (hop : operandsValid i s) :
    0 < blockCount i (inCount s) := by
  obtain rfl | rfl := hi
  · exact Nat.succ_pos _
  · obtain ⟨-, -, -, h16, h0⟩ := hop
    rw [blockCount]
    omega

theorem InLoop.padBlock_eq {i : Instr} {s t : State} {k : Nat} (h : InLoop i s k t) (hready : ReadyToRun i s)
    (j : Nat) : padBlock t j = padBlock s j := by
  have hn : inCount t = inCount s := (congrArg inCount h.view :)
  refine blockOfFn_congr fun _ _ => ?_
  rw [hn, h.mem.inByte_eq h.params hready.params_legal hready.memory_wf]

/-- Counting a block of the command does not wrap. -/
theorem InLoop.toNat_blkIdx_succ {i : Instr} {s t : State} {k : Nat} (h : InLoop i s k t)
    (hk : k < blockCount i (inCount s)) : (t.blkIdx + 1).toNat = k + 1 := by
  have hbound := t.nb.isLt
  have hblk := h.blkIdx
  rw [h.nb] at hbound
  bv_omega

/-- OUT has room for every block of a command (20_memory.md R57). -/
theorem InLoop.block_fits {i : Instr} {s t : State} {k : Nat} (h : InLoop i s k t) (hready : ReadyToRun i s)
    (hk : k < blockCount i (inCount s)) : 16 * (k + 1) ≤ t.params.outBytes := by
  obtain ⟨-, -, hop⟩ := hready.accepted
  have hn := operandsValid_inCount_le hop
  have hcount := blockCount_le i (inCount s)
  rw [h.params, Params.outBytes]
  omega

/-! ## One round of the loop -/

/-- The block loop of the CBC command `i` accepted in `s` has done `k` rounds: L is set, and OUT and RIV hold what the
byte-sequence loop has after `k` iterations (R111). -/
structure CbcProgress (i : Instr) (s : State) (k : Nat) (t : State) : Prop where
  len : t.len.toNat = 16 * blockCount i (inCount s)
  out : outSeq t (16 * k) = (cbcLoop i s k).1
  riv : t.riv = (cbcLoop i s k).2

/-- The response is the cipher's answer to the request LOAD makes here (R88, R107). -/
def cbcAnswered (i : Instr) (t : State) : Prop :=
  t.port.rspData = cipherResult Config.cipherPerm (issueRequest (requestDir i) (cbcInput i t) t).port

theorem cbcAnswered_enc (t : State) :
    cbcAnswered .cbcEnc t ↔ t.port.rspData = enc Config.cipherPerm t.key (padBlock t t.blkIdx.toNat ^^^ t.riv) :=
  Iff.rfl

theorem cbcAnswered_dec (t : State) :
    cbcAnswered .cbcDec t ↔ t.port.rspData = dec Config.cipherPerm t.key (inBlock t t.blkIdx.toNat) :=
  Iff.rfl

/-- With the answer to the request, the output block and the next running IV are those of the loop's next iteration. -/
theorem cbcLoop_succ_of_answered {i : Instr} {s t : State} {k : Nat} (hi : i = .cbcEnc ∨ i = .cbcDec)
    (hready : ReadyToRun i s) (hk : k < blockCount i (inCount s)) (h : InLoop i s k t) (hprog : CbcProgress i s k t)
    (hans : cbcAnswered i t) :
    cbcLoop i s (k + 1) = ((cbcLoop i s k).1 ++ blockBytes (cbcOutput i t), cbcNextRiv i t) := by
  obtain rfl | rfl := hi
  · have hdata := (cbcAnswered_enc t).1 hans
    rw [h.key, h.blkIdx, h.padBlock_eq hready, padBlockIsBlockOfPaddedInput s k hk, hprog.riv, cbcLoop_enc] at hdata
    rw [cbcLoop_enc, cbcEncLoop_succ, cbcLoop_enc, cbcOutput_enc, cbcNextRiv_enc, hdata]
  · have hdata := (cbcAnswered_dec t).1 hans
    have hblock : inBlock t t.blkIdx.toNat = blockAt (inSeq s (inCount s)) k := by
      rw [h.blkIdx, h.inBlock_eq hready, inBlock_eq_blockAt hk]
    rw [h.key, hblock] at hdata
    rw [cbcLoop_dec, cbcDecLoop_succ, cbcLoop_dec, cbcOutput_dec, cbcNextRiv_dec, hdata, hblock, hprog.riv, cbcLoop_dec]

/-- VALIDATE enters the loop with nothing appended and R = IV (R106). -/
theorem cbc_step_to_atBlock {i : Instr} {s : State} {rest : List Event} (hi : i = .cbcEnc ∨ i = .cbcDec)
    (hready : ReadyToRun i s) (ha : s.agenda = .controller :: rest) :
    ∃ t, step s = .next t ∧ t.agenda = rest ∧ AtBlock i s 0 t ∧ CbcProgress i s 0 t := by
  obtain ⟨hf, hd, hop⟩ := hready.accepted
  obtain ⟨t, ht, hat, hblock⟩ :=
    step_to_atBlock (isCipherCommand_of_cbc hi) hready (blockCount_cbc_pos hi hop) ha
  have hstep : step s = .next (enterLoop (blockCount i (inCount s)) s.iv { s with agenda := rest }) :=
    (step_controller_at_validate ha hf hd).trans (exec_cbc_enters_loop (s := { s with agenda := rest }) hi hf hop)
  obtain rfl := next_unique hstep ht
  refine ⟨_, ht, hat, hblock, (toNat_blockCount hready.params_legal hop).2, ?_, ?_⟩
  · rw [cbcLoop_zero]
    rfl
  · rw [cbcLoop_zero]
    rfl

/-- LOAD and the cipher's answer (R88, R107). -/
theorem cbc_run_to_answered {i : Instr} {s t : State} {k : Nat} {rest : List Event} (hi : i = .cbcEnc ∨ i = .cbcDec)
    (hready : ReadyToRun i s) (h : AtBlock i s k t) (hprog : CbcProgress i s k t)
    (ha : t.agenda = .controller :: .cipher .ok :: rest) :
    ∃ u, run 2 t = .next u ∧ u.agenda = rest ∧ Answered i s k .ok u ∧ CbcProgress i s k u ∧ cbcAnswered i u := by
  obtain ⟨u, hu, hau, hreq⟩ := h.step_to_requested (isCipherCommand_of_cbc hi) hready ha
  obtain ⟨v, hv, hav, hans⟩ := hreq.step_to_answered hau
  have hload := (h.step_controller hready (.inl h.fsm) ha).trans
    (exec_cbc_requests (s := { t with agenda := .cipher .ok :: rest }) hi h.fsm h.port_free)
  obtain rfl := next_unique hload hu
  have hanswer := (step_cons hau).trans (congrArg Host.Outcome.next (cipherStep_ok Config.cipherPerm hreq.enabled))
  obtain rfl := next_unique hanswer hv
  exact ⟨_, by rw [run_succ_next hu, run_succ_next hv, run_zero], hav, hans, ⟨hprog.len, hprog.out, hprog.riv⟩, rfl⟩

/-- The store of WAIT is one more iteration of the loop. -/
theorem cbcProgress_cbcStored {i : Instr} {s t : State} {k : Nat} (hi : i = .cbcEnc ∨ i = .cbcDec)
    (hready : ReadyToRun i s) (hk : k < blockCount i (inCount s)) (h : InLoop i s k t) (hprog : CbcProgress i s k t)
    (hans : cbcAnswered i t) : CbcProgress i s (k + 1) (cbcStored i t) := by
  have hnext := cbcLoop_succ_of_answered hi hready hk h hprog hans
  refine ⟨hprog.len, ?_, by rw [hnext]; rfl⟩
  calc
    outSeq (cbcStored i t) (16 * (k + 1)) = outSeq t (16 * k) ++ blockBytes (cbcOutput i t) := by
      rw [← outSeq_storeOut_block (h.memory_wf hready) (h.block_fits hready hk), ← h.blkIdx]
      rfl
    _ = (cbcLoop i s (k + 1)).1 := by rw [hprog.out, hnext]

/-- One round of the loop before the last block. -/
theorem cbc_run_to_next_block {i : Instr} {s t : State} {k : Nat} {rest : List Event} (hi : i = .cbcEnc ∨ i = .cbcDec)
    (hready : ReadyToRun i s) (hk : k + 1 < blockCount i (inCount s)) (h : AtBlock i s k t)
    (hprog : CbcProgress i s k t) (ha : t.agenda = blockTurns ++ rest) :
    ∃ u, run 3 t = .next u ∧ u.agenda = rest ∧ AtBlock i s (k + 1) u ∧ CbcProgress i s (k + 1) u := by
  obtain ⟨u, hu, hau, hwaits, hprog, hans⟩ := cbc_run_to_answered hi hready h hprog ha
  obtain ⟨v, hv, hav, hblock⟩ := hwaits.step_to_atBlock (isCipherCommand_of_cbc hi) hready hk hau
  have hwait := (hwaits.step_controller hready (.inr hwaits.fsm) hau).trans
    (exec_cbc_next_block (s := { u with agenda := rest }) hi hwaits.fsm hwaits.response hwaits.rspFail
      (by rw [hwaits.blkIdx, hwaits.nb]; exact hk))
  obtain rfl := next_unique hwait hv
  have hnext := cbcProgress_cbcStored hi hready (by omega) hwaits.toInLoop hprog hans
  exact ⟨_, by rw [run_add 1 hu, run_succ_next hv, run_zero], hav, hblock, hnext.len, hnext.out, hnext.riv⟩

/-- After VALIDATE and `k` blocks the loop has done `k` rounds. -/
theorem cbc_run_to_atBlock {i : Instr} {s : State} {k : Nat} {rest : List Event} (hi : i = .cbcEnc ∨ i = .cbcDec)
    (hready : ReadyToRun i s) (hk : k < blockCount i (inCount s))
    (ha : s.agenda = .controller :: (blocksTurns k ++ rest)) :
    ∃ t, run (1 + 3 * k) s = .next t ∧ t.agenda = rest ∧ AtBlock i s k t ∧ CbcProgress i s k t := by
  induction k generalizing rest with
  | zero =>
    obtain ⟨t, ht, hat⟩ := cbc_step_to_atBlock hi hready ha
    exact ⟨t, run_succ_next ht, hat⟩
  | succ k ih =>
    rw [blocksTurns_succ, List.append_assoc] at ha
    obtain ⟨t, ht, hat, hblock, hprog⟩ := ih (by omega) ha
    obtain ⟨u, hu, hau⟩ := cbc_run_to_next_block hi hready hk hblock hprog hat
    exact ⟨u, by rw [show 1 + 3 * (k + 1) = 1 + 3 * k + 3 by omega, run_add 3 ht, hu], hau⟩

theorem InLoop.changes_only_out {i : Instr} {s t : State} {k : Nat} (h : InLoop i s k t) (hready : ReadyToRun i s) :
    onlyOutChanged s t := fun _ ha => h.mem.readByte_eq hready.memory_wf ha

/-- Settles O25: the run of `k` blocks, where OUT and RIV are those of the loop after `k` iterations. -/
theorem cbcRunFollowsTheLoop : Obligations.CbcRunFollowsTheLoop := by
  intro s i k rest hi hready hk ha
  obtain ⟨t, ht, hat, hblock, hprog⟩ := cbc_run_to_atBlock hi hready hk ha
  refine ⟨t, ht, ?_, hblock.blkIdx, hblock.nb, hblock.port_free, ?_, ?_, hblock.changes_only_out hready⟩
  · rw [← hat, ← hblock.fsm]
    exact eq_of_loopView hblock.view
  · rintro rfl
    exact ⟨hprog.out, hprog.riv⟩
  · rintro rfl
    exact ⟨hprog.out, hprog.riv⟩

/-! ## The end of the loop -/

/-- Every block of the CBC command `i` accepted in `s` is stored and counted, and the port is free. -/
structure CbcLoopEnd (i : Instr) (s : State) (t : State) : Prop extends
    InLoop i s (blockCount i (inCount s)) t, CbcProgress i s (blockCount i (inCount s)) t where
  port_free : portFree t = true

/-- The turns of the whole loop lead to what follows the last block. -/
theorem cbc_run_to_loopEnd {i : Instr} {s : State} {rest : List Event} (hi : i = .cbcEnc ∨ i = .cbcDec)
    (hready : ReadyToRun i s)
    (ha : s.agenda = .controller :: (blocksTurns (blockCount i (inCount s)) ++ rest)) :
    ∃ t, run (1 + 3 * blockCount i (inCount s)) s = .next (cbcLast i t) ∧ t.agenda = rest ∧ CbcLoopEnd i s t := by
  obtain ⟨-, -, hop⟩ := hready.accepted
  obtain ⟨k, hk⟩ := Nat.exists_eq_succ_of_ne_zero (blockCount_cbc_pos hi hop).ne'
  have hlt : k < blockCount i (inCount s) := by omega
  rw [hk, blocksTurns_succ, List.append_assoc] at ha
  obtain ⟨t, ht, hat, hblock, hprog⟩ := cbc_run_to_atBlock hi hready hlt ha
  obtain ⟨u, hu, hau, hwaits, hprog, hans⟩ := cbc_run_to_answered hi hready hblock hprog hat
  have hwait := (hwaits.step_controller hready (.inr hwaits.fsm) hau).trans
    (exec_cbc_last_block (s := { u with agenda := rest }) hi hwaits.fsm hwaits.response hwaits.rspFail
      (by rw [hwaits.blkIdx, hwaits.nb, hk]))
  have hnext := cbcProgress_cbcStored hi hready hlt hwaits.toInLoop hprog hans
  have hblk := hwaits.toNat_blkIdx_succ hlt
  rw [← Nat.succ_eq_add_one, ← hk] at hnext hblk
  refine ⟨cbcStored i { u with agenda := rest }, ?_, rfl, ?_⟩
  · rw [hk, show 1 + 3 * (k + 1) = 1 + 3 * k + (2 + 1) by omega, run_add _ ht, run_add 1 hu, run_succ_next hwait,
      run_zero]
  · exact
      { view := hwaits.view
        blkIdx := hblk
        nb := hwaits.nb
        mem := hwaits.params ▸ hwaits.mem.store _ _
        len := hnext.len
        out := hnext.out
        riv := hnext.riv
        port_free := by simp [portFree, cbcStored, hwaits.no_request] }

/-- A success in the block loop, as a change of the state `s` the command was accepted in. -/
theorem finish_of_cbc_loopView {i : Instr} {s t : State} (hi : i = .cbcEnc ∨ i = .cbcDec)
    (hd : decode s.cmd = .command i) (h : loopView t = loopView s) (l : Nat) :
    finish l t = { s with
      mem := (finish l t).mem, nb := t.nb, len := t.len, blkIdx := t.blkIdx, port := t.port,
      outLen := BitVec.ofNat 32 l, key := 0, keyLd := 0, iv := 0, ivLd := 0, riv := 0, blk := 0, busy := false,
      done := true, fsm := .idle, agenda := t.agenda } := by
  have hcmd : t.cmd = s.cmd := (congrArg State.cmd h :)
  exact (finish_of_cbc hi (hcmd ▸ hd) l).trans (congrArg (fun v : State => { v with
    mem := (finish l t).mem, outLen := BitVec.ofNat 32 l, key := 0, keyLd := 0, iv := 0, ivLd := 0, riv := 0,
    blk := 0, busy := false, done := true, fsm := .idle }) (eq_of_loopView h))

/-- The end of a command erases in OUT alone (R116, R117). -/
theorem InLoop.changes_only_out_of_erase {i : Instr} {s t u : State} {k l : Nat} (h : InLoop i s k t)
    (hready : ReadyToRun i s) (hu : u.mem = eraseOutFrom t.params l t.mem) : onlyOutChanged s u := fun _ ha => by
  rw [hu, h.params]
  exact (h.mem.erase l).readByte_eq hready.memory_wf ha

/-- Settles O26: after the loop the success procedure leaves all the loop has appended. -/
theorem cbcEncCommandResult : Obligations.CbcEncCommandResult := by
  intro s rest hready ha
  obtain ⟨-, hd, -⟩ := hready.accepted
  obtain ⟨t, ht, rfl, hend⟩ := cbc_run_to_loopEnd (.inl rfl) hready ha
  have hout := outHolds_finish (s := t) t.len.isLt
  have hresult : outSeq t t.len.toNat = cbcEnc Config.cipherPerm s.key s.iv (inSeq s (inCount s)) := by
    rw [hend.len, hend.out, cbcLoop_blockCount_enc]
  rw [hresult] at hout
  refine ⟨finish t.len.toNat t, ?_, ?_, hout, ?_, hend.blkIdx, hend.port_free,
    hend.changes_only_out_of_erase hready rfl⟩
  · rw [commandTurns, List.length_cons, length_blocksTurns, Nat.add_comm]
    exact ht
  · exact finish_of_cbc_loopView (.inl rfl) hd hend.view _
  · rw [hout.1, length_cbcEnc, length_inSeq]

/-! ## CHECK after the loop (R110) -/

theorem take_outSeq (s : State) {k n : Nat} (h : k ≤ n) : (outSeq s n).take k = outSeq s k := by
  rw [outSeq, ← List.map_take, List.take_range, Nat.min_eq_left h, outSeq]

/-- The loop of a CBC_DEC command ends in CHECK, where a scheduled controller's turn is the CHECK step. -/
theorem cbcDec_run_to_check {s : State} {rest : List Event} (hready : ReadyToRun .cbcDec s)
    (ha : s.agenda = commandTurns .cbcDec (inCount s) ++ rest) :
    ∃ t, run (commandTurns .cbcDec (inCount s)).length s = .next (cbcDecCheck t) ∧ t.agenda = rest ∧
      CbcLoopEnd .cbcDec s t := by
  obtain ⟨-, hd, -⟩ := hready.accepted
  rw [commandTurns, List.cons_append, List.append_assoc] at ha
  obtain ⟨t, ht, hat, hend⟩ := cbc_run_to_loopEnd (.inr rfl) hready ha
  have hcheck : step (cbcLast .cbcDec t) = .next (cbcDecCheck { t with fsm := .check, agenda := rest }) :=
    (step_controller_after_validate (s := { t with fsm := .check }) hat nofun nofun (hend.cmd ▸ hd)
      (by rw [hend.opc, hend.cmd, hready.opc_of_cmd])).trans (exec_cbcDec_at_check rfl)
  have hlength : (commandTurns .cbcDec (inCount s)).length = 1 + 3 * blockCount .cbcDec (inCount s) + 1 := by
    rw [commandTurns, List.length_cons, List.length_append, length_blocksTurns, List.length_singleton]
    omega
  refine ⟨{ t with fsm := .check, agenda := rest }, ?_, rfl, ?_⟩
  · rw [hlength, run_add 1 ht, run_succ_next hcheck, run_zero]
  · exact { hend with }

/-- CHECK with good padding: the success procedure leaves the unpadded sequence. -/
theorem outHolds_finish_unpadded (s : State) (m : Nat) :
    outHolds (finish (s.len.toNat - m) s) ((outSeq s s.len.toNat).take ((outSeq s s.len.toNat).length - m)) := by
  rw [length_outSeq, take_outSeq s (Nat.sub_le _ m)]
  exact outHolds_finish ((Nat.sub_le _ m).trans_lt s.len.isLt)

theorem InLoop.no_error {i : Instr} {s t : State} {k : Nat} (h : InLoop i s k t) (hready : ReadyToRun i s) :
    t.errCode = .none ∧ t.errDetail = .none := by
  obtain ⟨hcode, hdetail⟩ := hready.no_error
  exact ⟨(congrArg State.errCode h.view :).trans hcode, (congrArg State.errDetail h.view :).trans hdetail⟩

theorem portFree_raiseError {s : State} (h : portFree s = true) (c : ErrCode) (x : ErrDetail) :
    portFree (raiseError c x s) = true := by
  simp only [portFree, Bool.and_eq_true, Bool.not_eq_true'] at h
  simp [portFree, h.1]

/-- Settles O27: CHECK looks at all the loop has appended, and succeeds or fails as `cbc_dec` does. -/
theorem cbcDecCommandResult : Obligations.CbcDecCommandResult := by
  intro s rest hready ha
  obtain ⟨-, hd, -⟩ := hready.accepted
  obtain ⟨t, ht, rfl, hend⟩ := cbcDec_run_to_check hready ha
  have hplain : cbcDec Config.cipherPerm s.key s.iv (inSeq s (inCount s)) = unpad 16 (outSeq t t.len.toNat) := by
    rw [hend.len, hend.out, unpad_cbcLoop_blockCount_dec]
  rw [hplain]
  cases hcheck : padcheck 16 (outSeq t t.len.toNat) with
  | ok m =>
    have hframe := finish_of_cbc_loopView (.inr rfl) hd hend.view (t.len.toNat - m)
    rw [cbcDecCheck_of_ok hcheck] at ht
    rw [unpad_of_ok hcheck]
    refine ⟨_, ht, ?_, ?_, nofun, hend.blkIdx, hend.port_free, hend.changes_only_out_of_erase hready rfl⟩
    · exact congrArg (fun v : State => { v with errCode := t.errCode, errDetail := t.errDetail }) hframe
    · rintro _ ⟨⟩
      exact ⟨outHolds_finish_unpadded t m, hend.no_error hready⟩
  | bad x =>
    have hframe :=
      raiseError_of_loopView (isCipherCommand_of_cbc (.inr rfl)) hd hend.view .corruptPadding x
    rw [cbcDecCheck_of_bad hcheck] at ht
    rw [unpad_of_bad hcheck]
    refine ⟨_, ht, ?_, nofun, ?_, hend.blkIdx, portFree_raiseError hend.port_free _ _,
      hend.changes_only_out_of_erase hready rfl⟩
    · exact congrArg (fun v : State => { v with mem := eraseOutFrom t.params 0 t.mem }) hframe
    · rintro _ ⟨⟩
      exact ⟨⟨rfl, outByte_raiseError _ _ _⟩, rfl, rfl⟩

end Sys2Proof.Machine
end

section
/-! PROOFS. The two ways a command ends, field by field (60_exceptions.md R116 to R118), and the interrupt line (R121). -/

namespace Sys2Proof.Machine

/-! ## The operands a completion clears (R118) -/

theorem consumesKey_iff (d : Decoded) :
    consumesKey d = true ↔
      d = .command .ecbEnc ∨ d = .command .ecbDec ∨ d = .command .cbcEnc ∨ d = .command .cbcDec := by
  cases d with
  | command i => cases i <;> decide
  | illegal r => cases r <;> decide

theorem consumesIv_iff (d : Decoded) :
    consumesIv d = true ↔ d = .command .cbcEnc ∨ d = .command .cbcDec := by
  cases d with
  | command i => cases i <;> decide
  | illegal r => cases r <;> decide

/-- The end of every completion, by the decoded command. -/
theorem complete_eq (s : State) :
    complete s = { s with
      key := (if decode s.cmd = .command .ecbEnc ∨ decode s.cmd = .command .ecbDec ∨
        decode s.cmd = .command .cbcEnc ∨ decode s.cmd = .command .cbcDec then 0 else s.key),
      keyLd := (if decode s.cmd = .command .ecbEnc ∨ decode s.cmd = .command .ecbDec ∨
        decode s.cmd = .command .cbcEnc ∨ decode s.cmd = .command .cbcDec then 0 else s.keyLd),
      iv := (if decode s.cmd = .command .cbcEnc ∨ decode s.cmd = .command .cbcDec then 0 else s.iv),
      ivLd := (if decode s.cmd = .command .cbcEnc ∨ decode s.cmd = .command .cbcDec then 0 else s.ivLd),
      riv := 0, blk := 0, busy := false, done := true, fsm := .idle } := by
  simp only [complete, clearOperands, consumesKey_iff, consumesIv_iff]

/-! ## The two procedures (R116, R117) -/

theorem onlyOutChanged_finish (l : Nat) (s : State) : onlyOutChanged s (finish l s) := by
  intro a ha
  rw [finish_mem, readByte_eraseOutFrom, if_neg (by omega)]

/-- A length within OUT fits OUT_LEN (00_scope.md R6). -/
theorem toNat_finish_outLen {l : Nat} {s : State} (hp : s.params.wf = true) (hl : l ≤ s.params.outBytes) :
    (finish l s).outLen.toNat = l := by
  obtain ⟨-, -, hmax⟩ := params_bounds hp
  unfold Params.outBytes at hl
  rw [finish_outLen, BitVec.toNat_ofNat, Nat.mod_eq_of_lt (by omega)]

/-- Settles O34: the success procedure is the erasure of OUT from L up, OUT_LEN, and the end of every completion. -/
theorem successProcedure : Obligations.SuccessProcedure := by
  intro s l hl hp
  exact ⟨_, rfl, complete_eq _, toNat_finish_outLen hp hl, outByte_finish l s, onlyOutChanged_finish l s⟩

/-- Settles O35: the failure procedure is the erasure of OUT, the error, the dropped response, and the end of every
completion. -/
theorem failureProcedure : Obligations.FailureProcedure := by
  intro s code detail
  exact ⟨_, rfl, complete_eq _, outByte_raiseError code detail s, onlyOutChanged_raiseError code detail s⟩

/-! ## The interrupt line (R121) -/

theorem irq_iff (s : State) : irq s = true ↔ s.ie = true ∧ s.done = true := Bool.and_eq_true_iff

theorem irq_congr {s t : State} (hie : t.ie = s.ie) (hd : t.done = s.done) : irq t = irq s := by
  rw [irq, irq, hie, hd]

/-- A write of CTRL after which the line is up has stored IE = 1 (R19). -/
theorem writeCtrl_of_irq {v : Word} {s : State} (h : irq (writeCtrl v s) = true) :
    writeCtrl v s = { s with ie := true } := by
  have hie := ((irq_iff _).1 h).1
  unfold writeCtrl at hie ⊢
  split at hie
  · cases hie
  · rename_i hsrst
    exact (if_neg hsrst).trans (congrArg (fun b => { s with ie := b }) hie)

/-- A write of STATUS only clears DONE (R21). -/
theorem irq_of_writeStatus {v : Word} {s : State} (h : irq (writeStatus v s) = true) : irq s = true := by
  obtain ⟨hie, hd⟩ := (irq_iff _).1 h
  exact (irq_iff s).2 ⟨hie, (Bool.and_eq_true_iff.1 hd).1⟩

/-- A write of CMD clears DONE, or sets CIGN alone (R37, R70). -/
theorem irq_of_writeCmd {v : Word} {s : State} (h : irq (writeCmd v s) = true) : irq s = true := by
  unfold writeCmd at h
  split at h
  · exact h
  · cases (irq_of_not_done rfl).symm.trans h

/-- A host write after which the line is up found it up, or stored IE = 1. -/
theorem busWrite_of_irq {off : Nat} {v : Word} {s : State} (h : irq (busWrite off v s) = true) :
    irq s = true ∨ busWrite off v s = { s with ie := true } := by
  rcases busWrite_cases off v s with e | ⟨-, e⟩ | ⟨-, e⟩ | ⟨-, e⟩ | ⟨-, f, e, hf⟩
  · exact .inl (e ▸ h)
  · exact .inr (e.trans (writeCtrl_of_irq (e ▸ h)))
  · exact .inl (irq_of_writeStatus (e ▸ h))
  · exact .inl (irq_of_writeCmd (e ▸ h))
  · rw [e, inputWrite] at h
    split at h
    · exact .inl h
    · rw [hf] at h
      exact .inl h

/-- Settles O55: the controller keeps IE, so it raises the line by a completion alone; of the host's writes the store of IE
raises it. -/
theorem interruptRisesOnlyAtCompletion : Obligations.InterruptRisesOnlyAtCompletion := by
  intro s t hinv h hs ht
  cases step_effect h with
  | controller l now turn =>
    obtain ⟨hk, hc | hc⟩ := controllerTurn_controllerStep turn
    · cases hs.symm.trans ((irq_congr hk.ie hc.done).symm.trans ht)
    · exact .inl ⟨hinv.control.busy_iff.2 hc.from_busy, hc.busy, hc.fsm, hc.done, hk.ie⟩
  | outside port l r d eq => rw [eq] at ht; cases hs.symm.trans ht
  | write off v l now eq =>
    subst eq
    obtain hup | e := busWrite_of_irq ht
    · cases hs.symm.trans hup
    · rw [e] at ht ⊢
      have hdone : s.done = true := ((irq_iff _).1 ht).2
      have hie : s.ie = false := by simpa [irq, hdone] using hs
      exact .inr ⟨hdone, hie, rfl, rfl⟩
  | hardReset l now eq => rw [eq] at ht; cases ht

end Sys2Proof.Machine
end

section
/-! PROOFS. Reset (70_reset_and_hazards.md R129, R130; 60_exceptions.md R121), and the turns of a whole command by agent
(R138, 41_cipher_port.md R94). -/

namespace Sys2Proof.Machine

/-! ## Reset (R129, R130) -/

/-- The write of CTRL with SRST is the soft reset, whatever else it holds (R130). -/
theorem writeReg_ctrl_of_srst {v : Word} {s : State} (h : v.getLsbD 1 = true) :
    writeReg .ctrl v s = resetDevice s := if_pos h

/-- Settles O51: both resets are `resetDevice`, which leaves no byte listed and DONE = 0. -/
theorem resetPutsEverythingAtItsResetValue : Obligations.ResetPutsEverythingAtItsResetValue := by
  intro s
  refine ⟨resetDevice s, rfl, fun a => readByte_nil a, irq_of_not_done rfl, rfl, fun v hsrst => ?_⟩
  exact (hostAccess_writeReg .ctrl v s).trans (congrArg _ (writeReg_ctrl_of_srst hsrst))

/-! ## The turns of a command by agent (R94, R138) -/

/-- A turn comes in `k` blocks `k` times as often as in one. -/
theorem count_blocksTurns (e : Event) (k : Nat) : (blocksTurns k).count e = k * blockTurns.count e := by
  induction k with
  | zero => simp [blocksTurns]
  | succ k ih => rw [blocksTurns_succ, List.count_append, ih, Nat.succ_mul]

/-- The controller moves twice for each block, in LOAD and in WAIT (R138). -/
@[simp] theorem count_controller_blocksTurns (k : Nat) : (blocksTurns k).count .controller = 2 * k :=
  (count_blocksTurns .controller k).trans (Nat.mul_comm k 2)

/-- The cipher answers once for each block (R94). -/
@[simp] theorem count_cipher_blocksTurns (k : Nat) : (blocksTurns k).count (.cipher .ok) = k :=
  (count_blocksTurns (.cipher .ok) k).trans (Nat.mul_one k)

/-- VALIDATE and the block loop: one controller turn, then those of the blocks. -/
theorem count_validate_blocksTurns (k : Nat) :
    (Event.controller :: blocksTurns k).count .controller = 1 + 2 * k ∧
      (Event.controller :: blocksTurns k).count (.cipher .ok) = k := by
  constructor
  · rw [List.count_cons_self, count_controller_blocksTurns, Nat.add_comm]
  · rw [List.count_cons_of_ne (by decide), count_cipher_blocksTurns]

/-- CBC_DEC has its CHECK after the block loop (R110). -/
theorem count_commandTurns_cbcDec (n : Nat) :
    (commandTurns .cbcDec n).count .controller = 2 + 2 * (n / 16) ∧
      (commandTurns .cbcDec n).count (.cipher .ok) = n / 16 := by
  obtain ⟨hcontroller, hcipher⟩ := count_validate_blocksTurns (blockCount .cbcDec n)
  rw [commandTurns, ← List.cons_append, List.count_append, List.count_append, hcontroller, hcipher]
  exact ⟨Nat.add_right_comm .., rfl⟩

/-- Settles O30: PAD and UNPAD have a fixed schedule; the other four VALIDATE, the block loop, and CBC_DEC its CHECK. -/
theorem commandTurnCounts : Obligations.CommandTurnCounts := by
  intro n
  obtain ⟨hecb, hecb'⟩ := count_validate_blocksTurns (n / 16)
  obtain ⟨henc, henc'⟩ := count_validate_blocksTurns (n / 16 + 1)
  obtain ⟨hdec, hdec'⟩ := count_commandTurns_cbcDec n
  exact ⟨rfl, rfl, rfl, rfl, hecb, hecb', hecb, hecb', henc, henc', hdec, hdec'⟩

end Sys2Proof.Machine
end
